-- ==== Sys2Proof/Word.lean ====
section
/-! DEFINITION. The data types everything else is written over: bytes, bit strings in stream order, byte memories,
Huffman table entries and tables. No meaning of an instruction stands here. -/

namespace Sys2Proof

/-- A byte of either memory space (R66: every access is one byte wide). -/
abbrev Byte := BitVec 8

/-- A bit string in stream order, the bit consumed first at the head (R12). -/
abbrev Bits := List Bool

/-- The contents of a byte-addressed space (R60, R62): cells at strictly rising addresses, none of them holding the
byte an unlisted address reads as (`Memory.unlisted` of Machine/Memory.lean). -/
abbrev Memory := List Host.Cell

/-- One entry of a Huffman table (R36): a symbol, and the length of its code; `len = 0` marks an unfilled entry. -/
structure Entry where
  sym : Nat
  len : Nat
deriving DecidableEq, Repr

/-- A Huffman table (R36): the largest code length `m`, and `2 ^ m` entries indexed by the next `m` stream bits,
the first of them in bit 0. -/
structure Table where
  m   : Nat
  ent : List Entry
deriving DecidableEq, Repr

/-- One assigned canonical code (R163): symbol `sym` has the `len`-bit code `code`, most significant bit first. -/
structure Code where
  sym  : Nat
  len  : Nat
  code : Nat
deriving DecidableEq, Repr

end Sys2Proof
end

