-- ==== Sys2Proof/Config.lean ====
section
/-! DEFINITION. What one implementation of the block fixes (R8, R9), and the source of the values the spec leaves
open: opaque constants with no body, so that no proof can learn a value of theirs. -/

namespace Sys2Proof

/-- The address width `AW` (R9, decision D3): open in the spec, at its default 32 here (log entry 4). Only the launch
premise reads it. -/
def Config.aw : Nat := 32

/-- `ACC_W` (R8): the accumulator holds at most 32 valid bits. -/
def Config.accW : Nat := 32

/-- `MAXBITS` (R8): the largest code length the table builder accepts. -/
def Config.maxBits : Nat := 16

/-- A FREE VALUE (log entry 5): the number the hardware happens to leave in register slot `slot` at the `draw`-th
moment at which the spec calls the register's contents undefined (R43, R376, U1 to U3, U10). -/
opaque Config.freeValue (draw slot : Nat) : Nat

/-- A FREE VALUE (log entry 5): the byte found at address `addr` of `OUT` after the `draw`-th such moment (R376, U1). -/
opaque Config.freeByte (draw addr : Nat) : Byte

end Sys2Proof
end

