-- ==== Sys2Proof/Machine/Tables.lean ====
section
/-! DEFINITION. The constant tables of the format (R42: read-only inputs of the step, not state). -/

namespace Sys2Proof

/-- `LBASE` (R268), indexed by `s - 257`. -/
def lbaseTable : List Nat :=
  [3, 4, 5, 6, 7, 8, 9, 10, 11, 13, 15, 17, 19, 23, 27] ++
  [31, 35, 43, 51, 59, 67, 83, 99, 115, 131, 163, 195, 227, 258]

/-- `LEXTRA` (R268), indexed by `s - 257`. -/
def lextraTable : List Nat :=
  [0, 0, 0, 0, 0, 0, 0, 0, 1, 1, 1, 1, 2, 2, 2] ++
  [2, 3, 3, 3, 3, 4, 4, 4, 4, 5, 5, 5, 5, 0]

/-- `DBASE` (R302), indexed by the distance symbol. -/
def dbaseTable : List Nat :=
  [1, 2, 3, 4, 5, 7, 9, 13, 17, 25, 33, 49, 65, 97, 129] ++
  [193, 257, 385, 513, 769, 1025, 1537, 2049, 3073, 4097] ++
  [6145, 8193, 12289, 16385, 24577]

/-- `DEXTRA` (R302), indexed by the distance symbol. -/
def dextraTable : List Nat :=
  [0, 0, 0, 0, 1, 1, 2, 2, 3, 3, 4, 4, 5, 5, 6] ++
  [6, 7, 7, 8, 8, 9, 9, 10, 10, 11, 11, 12, 12, 13, 13]

/-- `CLORDER` (R232), the swizzled order of the code-length-code entries. -/
def clorderTable : List Nat :=
  [16, 17, 18, 0, 8, 7, 9, 6, 10, 5, 11, 4, 12, 3, 13, 2, 14, 1, 15]

/-- `LBASE[i]` (R268). -/
def lbase (i : Nat) : Nat := lbaseTable.getD i 0

/-- `LEXTRA[i]` (R268). -/
def lextra (i : Nat) : Nat := lextraTable.getD i 0

/-- `DBASE[d]` (R302). -/
def dbase (d : Nat) : Nat := dbaseTable.getD d 0

/-- `DEXTRA[d]` (R302). -/
def dextra (d : Nat) : Nat := dextraTable.getD d 0

/-- `CLORDER[i]` (R232). -/
def clorder (i : Nat) : Nat := clorderTable.getD i 19

/-- `FIXED_LL_LEN` (R204): the code lengths of the fixed literal/length alphabet. -/
def fixedLLLens : List Nat :=
  List.replicate 144 8 ++ List.replicate 112 9 ++ List.replicate 24 7 ++ List.replicate 8 8

/-- `FIXED_D_LEN` (R204): the code lengths of the fixed distance alphabet. -/
def fixedDLens : List Nat := List.replicate 32 5

end Sys2Proof
end

