-- ==== Sys2Proof/Machine/Huffman.lean ====
section
/-! DEFINITION. canonical_huffman_decoder's `BUILD` (R161 to R171), a pure function of the code lengths, and the
lookup of a table entry. -/

namespace Sys2Proof

/-- `rev_N(v)` (R13): the `n`-bit value whose bit `i` is bit `n-1-i` of `v`. -/
def revBits : Nat → Nat → Nat
  | 0, _ => 0
  | n + 1, v => (v % 2) * 2 ^ n + revBits n (v / 2)

/-- How many of `lens` equal `l`. -/
def countEq (l : Nat) : List Nat → Nat
  | [] => 0
  | x :: rest => if x = l then countEq l rest + 1 else countEq l rest

/-- `count[L]` (R162): how many symbols have a code of length `L`; symbols of length 0 are not counted. -/
def lenCount (lens : List Nat) (l : Nat) : Nat := if l = 0 then 0 else countEq l lens

/-- `M` (R161): the largest length present, 0 when there is none. -/
def maxLen : List Nat → Nat
  | [] => 0
  | l :: rest => max l (maxLen rest)

/-- `K` (R164), summed from length 1 up to `n`. -/
def kraftUpTo (lens : List Nat) : Nat → Nat
  | 0 => 0
  | n + 1 => kraftUpTo lens n + lenCount lens (n + 1) * 2 ^ (Config.maxBits - (n + 1))

/-- `K` of R164: a set is over-subscribed when `K > 2 ^ 16` and complete when `K = 2 ^ 16`. -/
def kraft (lens : List Nat) : Nat := kraftUpTo lens Config.maxBits

/-- `first[L]` (R163): the numerically smallest code of length `L`. -/
def firstCode (lens : List Nat) : Nat → Nat
  | 0 => 0
  | l + 1 => (firstCode lens l + lenCount lens l) * 2

/-- The codes of one length class (R163): in increasing symbol order, the counter `c` stepping after each assignment.
`s` is the symbol number of the head of the list. -/
def classCodes (l : Nat) : Nat → Nat → List Nat → List Code
  | _, _, [] => []
  | s, c, x :: rest =>
    if x = l then ⟨s, l, c⟩ :: classCodes l (s + 1) (c + 1) rest else classCodes l (s + 1) c rest

/-- The assigned codes of the lengths 1 to `n`, class after class. -/
def codesUpTo (lens : List Nat) : Nat → List Code
  | 0 => []
  | n + 1 => codesUpTo lens n ++ classCodes (n + 1) 0 (firstCode lens (n + 1)) lens

/-- All assigned codes (R163). -/
def codes (lens : List Nat) : List Code := codesUpTo lens Config.maxBits

/-- An entry no code reaches (R170). -/
def Entry.unfilled : Entry := ⟨0, 0⟩

/-- Entry `i` of the table (R167, step 4; R169): the code whose value the low `len` bits of `i`, bit-reversed, equal;
unfilled when there is none. -/
def entryOf (cs : List Code) (i : Nat) : Entry :=
  match cs.find? (fun c => revBits c.len (i % 2 ^ c.len) == c.code) with
  | some c => ⟨c.sym, c.len⟩
  | none => Entry.unfilled

/-- `BUILD` (R167): `none` where the lengths are over-subscribed (`InvalidCodeLengths`, R164, R168). -/
def build (lens : List Nat) : Option Table :=
  if kraft lens > 2 ^ Config.maxBits then none
  else some ⟨maxLen lens, (List.range (2 ^ maxLen lens)).map (entryOf (codes lens))⟩

/-- `T.ENT[i]` (R36). -/
def Table.entry (t : Table) (i : Nat) : Entry := t.ent.getD i Entry.unfilled

/-- The table of an alphabet without codes: `M = 0` and one unfilled entry (R177, `len = [0, 0, 0]`). -/
def Table.empty : Table := ⟨0, [Entry.unfilled]⟩

/-- `T_LL_FIXED` as `BUILD` makes it (R205). -/
def fixedLLTable : Table := (build fixedLLLens).getD Table.empty

/-- `T_D_FIXED` as `BUILD` makes it (R205). -/
def fixedDTable : Table := (build fixedDLens).getD Table.empty

end Sys2Proof
end

