-- ==== Sys2Proof/Syntax.lean ====
section
/-! DEFINITION. The stream elements (R10: the block's instructions), one constructor per row of
spec/opcode_table.json, with the operands of the listing syntax of R107. -/

namespace Sys2Proof

/-- A stream element with its operands. Counts and repeat counts are the ASSEMBLED values of R100 (`hlit` is
field + 257, `r` is base + field); `x` is the extra-bits value of a length or distance symbol. The padding and the
payload of `STORED` are no operands: the one is ignored, the other is read from `IN` while it is copied. -/
inductive Instr where
  /-- `ZHDR cmf, flg` (R92, R195). -/
  | zhdr (cmf flg : Byte)
  /-- `BHDR.STORED f`, `f` the final-block flag (R93, R198). -/
  | bhdrStored (bfinal : Bool)
  /-- `BHDR.FIXED f` (R203). -/
  | bhdrFixed (bfinal : Bool)
  /-- `BHDR.DYN f` (R206). -/
  | bhdrDyn (bfinal : Bool)
  /-- `BHDR.RSVD f` (R207). -/
  | bhdrRsvd (bfinal : Bool)
  /-- `STORED len, nlen` (R94, R199). -/
  | stored (len nlen : BitVec 16)
  /-- `DYNHDR hlit, hdist, hclen` (R95, R231). -/
  | dynhdr (hlit hdist hclen : Nat)
  /-- `CLLEN3 v` (R96, R233). -/
  | cllen3 (v : Nat)
  /-- `CL.LEN v` (R97, R238). -/
  | clLen (v : Nat)
  /-- `CL.REP r` (R97, R239). -/
  | clRep (r : Nat)
  /-- `CL.ZREP3 r` (R97, R240). -/
  | clZrep3 (r : Nat)
  /-- `CL.ZREP11 r` (R97, R241). -/
  | clZrep11 (r : Nat)
  /-- `LIT b` (R98, R265). -/
  | lit (b : Byte)
  /-- `EOB` (R266). -/
  | eob
  /-- `LEN_257 x` (R270). -/
  | len257 (x : Nat)
  /-- `LEN_258 x` (R271). -/
  | len258 (x : Nat)
  /-- `LEN_259 x` (R272). -/
  | len259 (x : Nat)
  /-- `LEN_260 x` (R273). -/
  | len260 (x : Nat)
  /-- `LEN_261 x` (R274). -/
  | len261 (x : Nat)
  /-- `LEN_262 x` (R275). -/
  | len262 (x : Nat)
  /-- `LEN_263 x` (R276). -/
  | len263 (x : Nat)
  /-- `LEN_264 x` (R277). -/
  | len264 (x : Nat)
  /-- `LEN_265 x` (R278). -/
  | len265 (x : Nat)
  /-- `LEN_266 x` (R279). -/
  | len266 (x : Nat)
  /-- `LEN_267 x` (R280). -/
  | len267 (x : Nat)
  /-- `LEN_268 x` (R281). -/
  | len268 (x : Nat)
  /-- `LEN_269 x` (R282). -/
  | len269 (x : Nat)
  /-- `LEN_270 x` (R283). -/
  | len270 (x : Nat)
  /-- `LEN_271 x` (R284). -/
  | len271 (x : Nat)
  /-- `LEN_272 x` (R285). -/
  | len272 (x : Nat)
  /-- `LEN_273 x` (R286). -/
  | len273 (x : Nat)
  /-- `LEN_274 x` (R287). -/
  | len274 (x : Nat)
  /-- `LEN_275 x` (R288). -/
  | len275 (x : Nat)
  /-- `LEN_276 x` (R289). -/
  | len276 (x : Nat)
  /-- `LEN_277 x` (R290). -/
  | len277 (x : Nat)
  /-- `LEN_278 x` (R291). -/
  | len278 (x : Nat)
  /-- `LEN_279 x` (R292). -/
  | len279 (x : Nat)
  /-- `LEN_280 x` (R293). -/
  | len280 (x : Nat)
  /-- `LEN_281 x` (R294). -/
  | len281 (x : Nat)
  /-- `LEN_282 x` (R295). -/
  | len282 (x : Nat)
  /-- `LEN_283 x` (R296). -/
  | len283 (x : Nat)
  /-- `LEN_284 x` (R297). -/
  | len284 (x : Nat)
  /-- `LEN_285 x` (R298). -/
  | len285 (x : Nat)
  /-- `LL_286`, reserved (R299). -/
  | ll286
  /-- `LL_287`, reserved (R300). -/
  | ll287
  /-- `DIST_0 x` (R303). -/
  | dist0 (x : Nat)
  /-- `DIST_1 x` (R304). -/
  | dist1 (x : Nat)
  /-- `DIST_2 x` (R305). -/
  | dist2 (x : Nat)
  /-- `DIST_3 x` (R306). -/
  | dist3 (x : Nat)
  /-- `DIST_4 x` (R307). -/
  | dist4 (x : Nat)
  /-- `DIST_5 x` (R308). -/
  | dist5 (x : Nat)
  /-- `DIST_6 x` (R309). -/
  | dist6 (x : Nat)
  /-- `DIST_7 x` (R310). -/
  | dist7 (x : Nat)
  /-- `DIST_8 x` (R311). -/
  | dist8 (x : Nat)
  /-- `DIST_9 x` (R312). -/
  | dist9 (x : Nat)
  /-- `DIST_10 x` (R313). -/
  | dist10 (x : Nat)
  /-- `DIST_11 x` (R314). -/
  | dist11 (x : Nat)
  /-- `DIST_12 x` (R315). -/
  | dist12 (x : Nat)
  /-- `DIST_13 x` (R316). -/
  | dist13 (x : Nat)
  /-- `DIST_14 x` (R317). -/
  | dist14 (x : Nat)
  /-- `DIST_15 x` (R318). -/
  | dist15 (x : Nat)
  /-- `DIST_16 x` (R319). -/
  | dist16 (x : Nat)
  /-- `DIST_17 x` (R320). -/
  | dist17 (x : Nat)
  /-- `DIST_18 x` (R321). -/
  | dist18 (x : Nat)
  /-- `DIST_19 x` (R322). -/
  | dist19 (x : Nat)
  /-- `DIST_20 x` (R323). -/
  | dist20 (x : Nat)
  /-- `DIST_21 x` (R324). -/
  | dist21 (x : Nat)
  /-- `DIST_22 x` (R325). -/
  | dist22 (x : Nat)
  /-- `DIST_23 x` (R326). -/
  | dist23 (x : Nat)
  /-- `DIST_24 x` (R327). -/
  | dist24 (x : Nat)
  /-- `DIST_25 x` (R328). -/
  | dist25 (x : Nat)
  /-- `DIST_26 x` (R329). -/
  | dist26 (x : Nat)
  /-- `DIST_27 x` (R330). -/
  | dist27 (x : Nat)
  /-- `DIST_28 x` (R331). -/
  | dist28 (x : Nat)
  /-- `DIST_29 x` (R332). -/
  | dist29 (x : Nat)
  /-- `DIST_30`, reserved (R333). -/
  | dist30
  /-- `DIST_31`, reserved (R334). -/
  | dist31
deriving DecidableEq, Repr

end Sys2Proof
end

