-- ==== Sys2Proof/WellFormed.lean ====
section
/-! DEFINITION. Which operands the encoding of each stream element can carry (R100). An element that is well formed
may still be one the block faults on (a bad zlib header, `HLIT > 286`): those have encodings and meanings. -/

namespace Sys2Proof

/-- The operands fit the fields of the element's format (R91 to R100). -/
def wellFormed : Instr → Bool
  | .zhdr _ _ => true
  | .bhdrStored _ => true
  | .bhdrFixed _ => true
  | .bhdrDyn _ => true
  | .bhdrRsvd _ => true
  | .stored _ _ => true
  | .dynhdr hlit hdist hclen =>
    decide (257 ≤ hlit ∧ hlit ≤ 288 ∧ 1 ≤ hdist ∧ hdist ≤ 32 ∧ 4 ≤ hclen ∧ hclen ≤ 19)
  | .cllen3 v => decide (v < 8)
  | .clLen v => decide (v < 16)
  | .clRep r => decide (3 ≤ r ∧ r ≤ 6)
  | .clZrep3 r => decide (3 ≤ r ∧ r ≤ 10)
  | .clZrep11 r => decide (11 ≤ r ∧ r ≤ 138)
  | .lit _ => true
  | .eob => true
  | .len257 x => decide (x < 2 ^ lextra 0)
  | .len258 x => decide (x < 2 ^ lextra 1)
  | .len259 x => decide (x < 2 ^ lextra 2)
  | .len260 x => decide (x < 2 ^ lextra 3)
  | .len261 x => decide (x < 2 ^ lextra 4)
  | .len262 x => decide (x < 2 ^ lextra 5)
  | .len263 x => decide (x < 2 ^ lextra 6)
  | .len264 x => decide (x < 2 ^ lextra 7)
  | .len265 x => decide (x < 2 ^ lextra 8)
  | .len266 x => decide (x < 2 ^ lextra 9)
  | .len267 x => decide (x < 2 ^ lextra 10)
  | .len268 x => decide (x < 2 ^ lextra 11)
  | .len269 x => decide (x < 2 ^ lextra 12)
  | .len270 x => decide (x < 2 ^ lextra 13)
  | .len271 x => decide (x < 2 ^ lextra 14)
  | .len272 x => decide (x < 2 ^ lextra 15)
  | .len273 x => decide (x < 2 ^ lextra 16)
  | .len274 x => decide (x < 2 ^ lextra 17)
  | .len275 x => decide (x < 2 ^ lextra 18)
  | .len276 x => decide (x < 2 ^ lextra 19)
  | .len277 x => decide (x < 2 ^ lextra 20)
  | .len278 x => decide (x < 2 ^ lextra 21)
  | .len279 x => decide (x < 2 ^ lextra 22)
  | .len280 x => decide (x < 2 ^ lextra 23)
  | .len281 x => decide (x < 2 ^ lextra 24)
  | .len282 x => decide (x < 2 ^ lextra 25)
  | .len283 x => decide (x < 2 ^ lextra 26)
  | .len284 x => decide (x < 2 ^ lextra 27)
  | .len285 x => decide (x < 2 ^ lextra 28)
  | .ll286 => true
  | .ll287 => true
  | .dist0 x => decide (x < 2 ^ dextra 0)
  | .dist1 x => decide (x < 2 ^ dextra 1)
  | .dist2 x => decide (x < 2 ^ dextra 2)
  | .dist3 x => decide (x < 2 ^ dextra 3)
  | .dist4 x => decide (x < 2 ^ dextra 4)
  | .dist5 x => decide (x < 2 ^ dextra 5)
  | .dist6 x => decide (x < 2 ^ dextra 6)
  | .dist7 x => decide (x < 2 ^ dextra 7)
  | .dist8 x => decide (x < 2 ^ dextra 8)
  | .dist9 x => decide (x < 2 ^ dextra 9)
  | .dist10 x => decide (x < 2 ^ dextra 10)
  | .dist11 x => decide (x < 2 ^ dextra 11)
  | .dist12 x => decide (x < 2 ^ dextra 12)
  | .dist13 x => decide (x < 2 ^ dextra 13)
  | .dist14 x => decide (x < 2 ^ dextra 14)
  | .dist15 x => decide (x < 2 ^ dextra 15)
  | .dist16 x => decide (x < 2 ^ dextra 16)
  | .dist17 x => decide (x < 2 ^ dextra 17)
  | .dist18 x => decide (x < 2 ^ dextra 18)
  | .dist19 x => decide (x < 2 ^ dextra 19)
  | .dist20 x => decide (x < 2 ^ dextra 20)
  | .dist21 x => decide (x < 2 ^ dextra 21)
  | .dist22 x => decide (x < 2 ^ dextra 22)
  | .dist23 x => decide (x < 2 ^ dextra 23)
  | .dist24 x => decide (x < 2 ^ dextra 24)
  | .dist25 x => decide (x < 2 ^ dextra 25)
  | .dist26 x => decide (x < 2 ^ dextra 26)
  | .dist27 x => decide (x < 2 ^ dextra 27)
  | .dist28 x => decide (x < 2 ^ dextra 28)
  | .dist29 x => decide (x < 2 ^ dextra 29)
  | .dist30 => true
  | .dist31 => true

end Sys2Proof
end

