-- ==== Sys2Proof/Decode.lean ====
section
/-! DEFINITION. The decoder, total on every bit string in every context of R104 and rejecting by name, and after it
the encoder, written from the formats of R92 to R103 and from the canonical codes of R163, R166.

What an element's bits mean depends on where the dispatcher stands (R101, R104), so both take a context. -/

namespace Sys2Proof

/-! ## Bits and numbers -/

/-- The number a field's bits stand for: the first stream bit is bit 0 (R65). -/
def natOfBits : Bits → Nat
  | [] => 0
  | b :: bs => b.toNat + 2 * natOfBits bs

/-- The `n` bits of an `n`-bit field, first stream bit first (R65). -/
def bitsOfNat : Nat → Nat → Bits
  | 0, _ => []
  | n + 1, v => decide (v % 2 = 1) :: bitsOfNat n (v / 2)

/-- The bits of an `n`-bit Huffman code, most significant first (R166). -/
def codeBits (n c : Nat) : Bits := (bitsOfNat n c).reverse

/-- The bits of one byte, bit 0 first (R64). -/
def bitsOfByte (b : Byte) : Bits := bitsOfNat 8 b.toNat

/-- Bits packed into whole bytes, the last one filled with zeros (R64). `fuel` bounds the number of bytes. -/
def bytesOfBits : Nat → Bits → List Byte
  | 0, _ => []
  | fuel + 1, bs => if bs.isEmpty then [] else BitVec.ofNat 8 (natOfBits (bs.take 8)) :: bytesOfBits fuel (bs.drop 8)

/-! ## Assembling an instruction from its fields (R92 to R100) -/

/-- `ZHDR` from its two bytes (R92). -/
def zhdrInstr (cmf flg : Nat) : Instr := .zhdr (BitVec.ofNat 8 cmf) (BitVec.ofNat 8 flg)

/-- `BHDR` from its two fields (R93): `btype` selects the row. -/
def bhdrInstr (bfinal btype : Nat) : Instr :=
  match btype with
  | 0 => .bhdrStored (bfinal == 1)
  | 1 => .bhdrFixed (bfinal == 1)
  | 2 => .bhdrDyn (bfinal == 1)
  | _ => .bhdrRsvd (bfinal == 1)

/-- `STORED` from its two counts (R94). -/
def storedInstr (len nlen : Nat) : Instr := .stored (BitVec.ofNat 16 len) (BitVec.ofNat 16 nlen)

/-- `DYNHDR` from its three fields (R95). -/
def dynhdrInstr (hlit hdist hclen : Nat) : Instr := .dynhdr (hlit + 257) (hdist + 1) (hclen + 4)

/-- How many extra bits follow the code of code-length symbol `sym` (R97). -/
def clExtra (sym : Nat) : Nat :=
  match sym with
  | 16 => 2
  | 17 => 3
  | 18 => 7
  | _ => 0

/-- A code-length symbol with its extra-bits value (R97); `none` outside the alphabet. -/
def clInstr (sym x : Nat) : Option Instr :=
  if sym < 16 then some (.clLen sym)
  else match sym with
    | 16 => some (.clRep (3 + x))
    | 17 => some (.clZrep3 (3 + x))
    | 18 => some (.clZrep11 (11 + x))
    | _ => none

/-- How many extra bits follow the code of literal/length symbol `sym` (R98). -/
def llExtra (sym : Nat) : Nat := if 257 ≤ sym ∧ sym ≤ 285 then lextra (sym - 257) else 0

/-- A literal/length symbol with its extra-bits value (R98, R104); `none` outside the alphabet. -/
def llInstr (sym x : Nat) : Option Instr :=
  if sym < 256 then some (.lit (BitVec.ofNat 8 sym))
  else match sym with
    | 256 => some .eob
    | 257 => some (.len257 x)
    | 258 => some (.len258 x)
    | 259 => some (.len259 x)
    | 260 => some (.len260 x)
    | 261 => some (.len261 x)
    | 262 => some (.len262 x)
    | 263 => some (.len263 x)
    | 264 => some (.len264 x)
    | 265 => some (.len265 x)
    | 266 => some (.len266 x)
    | 267 => some (.len267 x)
    | 268 => some (.len268 x)
    | 269 => some (.len269 x)
    | 270 => some (.len270 x)
    | 271 => some (.len271 x)
    | 272 => some (.len272 x)
    | 273 => some (.len273 x)
    | 274 => some (.len274 x)
    | 275 => some (.len275 x)
    | 276 => some (.len276 x)
    | 277 => some (.len277 x)
    | 278 => some (.len278 x)
    | 279 => some (.len279 x)
    | 280 => some (.len280 x)
    | 281 => some (.len281 x)
    | 282 => some (.len282 x)
    | 283 => some (.len283 x)
    | 284 => some (.len284 x)
    | 285 => some (.len285 x)
    | 286 => some .ll286
    | 287 => some .ll287
    | _ => none

/-- How many extra bits follow the code of distance symbol `d` (R99). -/
def dExtra (d : Nat) : Nat := if d ≤ 29 then dextra d else 0

/-- A distance symbol with its extra-bits value (R99, R104); `none` outside the alphabet. -/
def dInstr (d x : Nat) : Option Instr :=
  match d with
  | 0 => some (.dist0 x)
  | 1 => some (.dist1 x)
  | 2 => some (.dist2 x)
  | 3 => some (.dist3 x)
  | 4 => some (.dist4 x)
  | 5 => some (.dist5 x)
  | 6 => some (.dist6 x)
  | 7 => some (.dist7 x)
  | 8 => some (.dist8 x)
  | 9 => some (.dist9 x)
  | 10 => some (.dist10 x)
  | 11 => some (.dist11 x)
  | 12 => some (.dist12 x)
  | 13 => some (.dist13 x)
  | 14 => some (.dist14 x)
  | 15 => some (.dist15 x)
  | 16 => some (.dist16 x)
  | 17 => some (.dist17 x)
  | 18 => some (.dist18 x)
  | 19 => some (.dist19 x)
  | 20 => some (.dist20 x)
  | 21 => some (.dist21 x)
  | 22 => some (.dist22 x)
  | 23 => some (.dist23 x)
  | 24 => some (.dist24 x)
  | 25 => some (.dist25 x)
  | 26 => some (.dist26 x)
  | 27 => some (.dist27 x)
  | 28 => some (.dist28 x)
  | 29 => some (.dist29 x)
  | 30 => some .dist30
  | 31 => some .dist31
  | _ => none

/-! ## The decoder -/

/-- Why a bit string is no stream element in its context. -/
inductive Reject where
  /-- Fewer bits are there than the element's fields, or the look-ahead of its code, ask for (R134, R173). -/
  | truncated
  /-- The bits select an unfilled entry of the table (R105, R173). -/
  | unfilled
  /-- The table holds a symbol outside its alphabet: no table that `BUILD` makes does (R236, R264). -/
  | outsideAlphabet
deriving DecidableEq, Repr

/-- Where the dispatcher stands when it decodes an element (R104). -/
inductive Context where
  /-- `ZlibHeader`. -/
  | zlib
  /-- `AwaitingBlockHeader`. -/
  | block
  /-- `StoredBlock`, with `pad` bits left in the current byte (R94). -/
  | stored (pad : Nat)
  /-- `DynamicBlockHeader`, first. -/
  | counts
  /-- `DynamicBlockHeader`, the next `HCLEN` elements. -/
  | cllen
  /-- `DynamicBlockHeader`, then: symbols of `T_CL`. -/
  | clsym (t : Table)
  /-- `SymbolLoop`: symbols of the active literal/length table. -/
  | llsym (t : Table)
  /-- `SymbolLoop`, after a `LEN_s`: symbols of the active distance table. -/
  | dsym (t : Table)
deriving DecidableEq, Repr

/-- An `n`-bit field taken off the front (R65). -/
def takeField (n : Nat) (bs : Bits) : Except Reject (Nat × Bits) :=
  if bs.length < n then .error .truncated else .ok (natOfBits (bs.take n), bs.drop n)

/-- One symbol taken off the front (R173): `M` bits are looked at, the code's own length is consumed. -/
def takeSymbol (t : Table) (bs : Bits) : Except Reject (Nat × Bits) :=
  if bs.length < t.m then .error .truncated
  else
    let e := t.entry (natOfBits (bs.take t.m))
    if e.len = 0 then .error .unfilled else .ok (e.sym, bs.drop e.len)

/-- A symbol and the extra bits it calls for, made into an instruction by `mk`. -/
def takeSymbolInstr (t : Table) (extra : Nat → Nat) (mk : Nat → Nat → Option Instr) (bs : Bits) :
    Except Reject (Instr × Bits) :=
  match takeSymbol t bs with
  | .error r => .error r
  | .ok (sym, bs1) =>
    match takeField (extra sym) bs1 with
    | .error r => .error r
    | .ok (x, bs2) =>
      match mk sym x with
      | none => .error .outsideAlphabet
      | some i => .ok (i, bs2)

/-- Two fields of `n` and `m` bits, made into an instruction by `mk`. -/
def takeTwoFields (n m : Nat) (mk : Nat → Nat → Instr) (bs : Bits) : Except Reject (Instr × Bits) :=
  match takeField n bs with
  | .error r => .error r
  | .ok (a, bs1) =>
    match takeField m bs1 with
    | .error r => .error r
    | .ok (b, bs2) => .ok (mk a b, bs2)

/-- The stream element at the front of a bit string, and the bits after it (R104). -/
def decode (c : Context) (bs : Bits) : Except Reject (Instr × Bits) :=
  match c with
  | .zlib => takeTwoFields 8 8 zhdrInstr bs
  | .block => takeTwoFields 1 2 bhdrInstr bs
  | .stored pad =>
    match takeField pad bs with
    | .error r => .error r
    | .ok (_, bs1) => takeTwoFields 16 16 storedInstr bs1
  | .counts =>
    match takeField 5 bs with
    | .error r => .error r
    | .ok (a, bs1) => takeTwoFields 5 4 (dynhdrInstr a) bs1
  | .cllen =>
    match takeField 3 bs with
    | .error r => .error r
    | .ok (v, bs1) => .ok (.cllen3 v, bs1)
  | .clsym t => takeSymbolInstr t clExtra clInstr bs
  | .llsym t => takeSymbolInstr t llExtra llInstr bs
  | .dsym t => takeSymbolInstr t dExtra dInstr bs

/-! ## The encoder -/

/-- A code for each symbol of an alphabet, in stream order; `none` where the symbol has none. -/
abbrev CodeBook := Nat → Option Bits

/-- The canonical code of R163 in the stream order of R166. -/
def canonicalBook (lens : List Nat) : CodeBook := fun sym =>
  ((codes lens).find? (fun c => c.sym == sym)).map (fun c => codeBits c.len c.code)

/-- The fixed literal/length codes as R102 lists them. -/
def fixedLLBook : CodeBook := fun s =>
  if s ≤ 143 then some (codeBits 8 (0x30 + s))
  else if s ≤ 255 then some (codeBits 9 (0x190 + (s - 144)))
  else if s ≤ 279 then some (codeBits 7 (s - 256))
  else if s ≤ 287 then some (codeBits 8 (0xC0 + (s - 280)))
  else none

/-- The fixed distance codes as R103 lists them. -/
def fixedDBook : CodeBook := fun d => if d ≤ 31 then some (codeBits 5 d) else none

/-- The code books of the three alphabets. -/
structure Books where
  cl : CodeBook
  ll : CodeBook
  d  : CodeBook

/-- The code-length symbol and the extra-bits value of an instruction (R97). -/
def clParts : Instr → Option (Nat × Nat)
  | .clLen v => some (v, 0)
  | .clRep r => some (16, r - 3)
  | .clZrep3 r => some (17, r - 3)
  | .clZrep11 r => some (18, r - 11)
  | _ => none

/-- The literal/length symbol and the extra-bits value of an instruction (R98). -/
def llParts : Instr → Option (Nat × Nat)
  | .lit b => some (b.toNat, 0)
  | .eob => some (256, 0)
  | .len257 x => some (257, x)
  | .len258 x => some (258, x)
  | .len259 x => some (259, x)
  | .len260 x => some (260, x)
  | .len261 x => some (261, x)
  | .len262 x => some (262, x)
  | .len263 x => some (263, x)
  | .len264 x => some (264, x)
  | .len265 x => some (265, x)
  | .len266 x => some (266, x)
  | .len267 x => some (267, x)
  | .len268 x => some (268, x)
  | .len269 x => some (269, x)
  | .len270 x => some (270, x)
  | .len271 x => some (271, x)
  | .len272 x => some (272, x)
  | .len273 x => some (273, x)
  | .len274 x => some (274, x)
  | .len275 x => some (275, x)
  | .len276 x => some (276, x)
  | .len277 x => some (277, x)
  | .len278 x => some (278, x)
  | .len279 x => some (279, x)
  | .len280 x => some (280, x)
  | .len281 x => some (281, x)
  | .len282 x => some (282, x)
  | .len283 x => some (283, x)
  | .len284 x => some (284, x)
  | .len285 x => some (285, x)
  | .ll286 => some (286, 0)
  | .ll287 => some (287, 0)
  | _ => none

/-- The distance symbol and the extra-bits value of an instruction (R99). -/
def dParts : Instr → Option (Nat × Nat)
  | .dist0 x => some (0, x)
  | .dist1 x => some (1, x)
  | .dist2 x => some (2, x)
  | .dist3 x => some (3, x)
  | .dist4 x => some (4, x)
  | .dist5 x => some (5, x)
  | .dist6 x => some (6, x)
  | .dist7 x => some (7, x)
  | .dist8 x => some (8, x)
  | .dist9 x => some (9, x)
  | .dist10 x => some (10, x)
  | .dist11 x => some (11, x)
  | .dist12 x => some (12, x)
  | .dist13 x => some (13, x)
  | .dist14 x => some (14, x)
  | .dist15 x => some (15, x)
  | .dist16 x => some (16, x)
  | .dist17 x => some (17, x)
  | .dist18 x => some (18, x)
  | .dist19 x => some (19, x)
  | .dist20 x => some (20, x)
  | .dist21 x => some (21, x)
  | .dist22 x => some (22, x)
  | .dist23 x => some (23, x)
  | .dist24 x => some (24, x)
  | .dist25 x => some (25, x)
  | .dist26 x => some (26, x)
  | .dist27 x => some (27, x)
  | .dist28 x => some (28, x)
  | .dist29 x => some (29, x)
  | .dist30 => some (30, 0)
  | .dist31 => some (31, 0)
  | _ => none

/-- A symbol's code followed by its extra bits (R97 to R99). -/
def encodeSymbol (book : CodeBook) (extra : Nat → Nat) (p : Nat × Nat) : Option Bits :=
  (book p.1).map (fun code => code ++ bitsOfNat (extra p.1) p.2)

/-- The bits of an instruction in stream order; `none` where its symbol has no code in the books. `STORED` is encoded
from the byte boundary on: the padding before it is any `pad` bits. -/
def encode (bk : Books) (i : Instr) : Option Bits :=
  match i with
  | .zhdr cmf flg => some (bitsOfByte cmf ++ bitsOfByte flg)
  | .bhdrStored f => some (f :: bitsOfNat 2 0)
  | .bhdrFixed f => some (f :: bitsOfNat 2 1)
  | .bhdrDyn f => some (f :: bitsOfNat 2 2)
  | .bhdrRsvd f => some (f :: bitsOfNat 2 3)
  | .stored len nlen => some (bitsOfNat 16 len.toNat ++ bitsOfNat 16 nlen.toNat)
  | .dynhdr hlit hdist hclen =>
    some (bitsOfNat 5 (hlit - 257) ++ (bitsOfNat 5 (hdist - 1) ++ bitsOfNat 4 (hclen - 4)))
  | .cllen3 v => some (bitsOfNat 3 v)
  | i =>
    match clParts i with
    | some p => encodeSymbol bk.cl clExtra p
    | none =>
      match llParts i with
      | some p => encodeSymbol bk.ll llExtra p
      | none =>
        match dParts i with
        | some p => encodeSymbol bk.d dExtra p
        | none => none

/-! ## The opcode table's own words (R108)

The table numbers a SELECTOR, not the stream's bits: for a symbol format the stream holds the symbol's code in the
active table. A word is therefore laid out as the stream bits of its selector: the two header bytes, the three header
bits, or the symbol's code, in a static block's tables for literal/length and distance symbols and, for code-length
symbols, in the `T_CL` of nineteen 5-bit codes. Log entry 14 says how a word that fits several formats is read. -/

/-- Nineteen code-length-code lengths of 5 bits: the code of symbol `v` is the 5-bit number `v`. -/
def flatCLLens : List Nat := List.replicate 19 5

/-- `BUILD` of `flatCLLens`. -/
def flatCLTable : Table := (build flatCLLens).getD Table.empty

/-- The codes of `flatCLTable`. -/
def flatCLBook : CodeBook := fun v => if v ≤ 18 then some (codeBits 5 v) else none

/-- The books of a static block, and `flatCLBook`. -/
def staticBooks : Books := ⟨flatCLBook, fixedLLBook, fixedDBook⟩

/-- The selector formats of R108. -/
inductive Format where
  | zhdr16
  | bhdr3
  | stored
  | clsym
  | llsym
  | dsym
deriving DecidableEq, Repr

/-- The format a table word of `nbits` bits is read in. -/
def formatOf (nbits w : Nat) : Option Format :=
  match nbits with
  | 0 => some .stored
  | 8 =>
    if w ∈ [0, 2, 4, 6] then some .bhdr3
    else if w ∈ [16, 17, 18] then some .clsym
    else if w < 32 then some .dsym
    else none
  | 16 =>
    if w < 512 then some .llsym
    else if w < 65536 ∧ w &&& 0x8F20 = 0x0800 then some .zhdr16
    else none
  | _ => none

/-- The context a format is decoded in. -/
def Format.context : Format → Context
  | .zhdr16 => .zlib
  | .bhdr3 => .block
  | .stored => .stored 0
  | .clsym => .clsym flatCLTable
  | .llsym => .llsym fixedLLTable
  | .dsym => .dsym fixedDTable

/-- The stream bits of a table word, filled up with zeros to the longest element (48 bits, R106); `none` where the
symbol has no code. -/
def Format.bits (f : Format) (w : Nat) : Option Bits :=
  (match f with
    | .zhdr16 => some (bitsOfNat 8 (w / 256) ++ bitsOfNat 8 (w % 256))
    | .bhdr3 => some (bitsOfNat 3 w)
    | .stored => some []
    | .clsym => flatCLBook w
    | .llsym => fixedLLBook w
    | .dsym => fixedDBook w).map (fun bs => bs ++ List.replicate 48 false)

/-- The instruction the decoder reads from a word of spec/opcode_table.json. -/
def decodeTableWord (nbits w : Nat) : Option Instr :=
  match formatOf nbits w with
  | none => none
  | some f =>
    match f.bits w with
    | none => none
    | some bs =>
      match decode f.context bs with
      | .ok (i, _) => some i
      | .error _ => none

end Sys2Proof
end

