-- ==== Sys2Proof/Machine/State.lean ====
section
/-! DEFINITION. The state of the block, all of it (R20 to R44), the reasons a step can stop, and the state after
reset (R43, R410). Register names are the spec's, in lower camel case. -/

namespace Sys2Proof.Machine

/-- The dispatcher state `FSM` (R28). -/
inductive Fsm where
  | idle
  | zlibHeader
  | awaitingBlockHeader
  | storedBlock
  | staticBlock
  | dynamicBlockHeader
  | symbolLoop
  | done
  | failed
deriving DecidableEq, Repr

/-- Where in a dynamic block's header the dispatcher stands (the three contexts R104 gives `DynamicBlockHeader`; a
field the spec implies, log entry 9). -/
inductive DynPhase where
  /-- the counts come next (`DYNHDR`) -/
  | counts
  /-- a code-length-code entry comes next (`CLLEN3`) -/
  | cllens
  /-- a code-length symbol comes next (`CL.*`) -/
  | symbols
deriving DecidableEq, Repr

/-- The block's own fault kinds (R370, R371). Raising one is no stop of the model: it takes the block to `Failed`
(R375), a next state. -/
inductive FaultKind where
  | invalidHeader
  | truncatedStream
  | lengthMismatch
  | invalidBlockType
  | invalidBackReference
  | outputBufferExhausted
  | invalidCodeLengths
  | invalidSymbol
deriving DecidableEq, Repr

/-- A step stops with one of these only where it would touch an address that does not exist (R60, R62, R69). The
rules test every address before the access, so no step ever answers one; both are safe. -/
inductive Fault where
  /-- Raised by a read of `IN` at or above `IN_LEN` (R61). Safe: the model stops where the spec has no access. -/
  | inAddress
  /-- Raised by an access to `OUT` at or above `OUT_CAP` (R69). Safe, as above. -/
  | outAddress
deriving DecidableEq, Repr

/-- A step is refused with one of these where the spec says a model refuses the call or the launch. -/
inductive Refusal where
  /-- Raised by an arm of `exec` that has no meaning yet. Safe. -/
  | notModelled (mnemonic : String)
  /-- Raised by `PEEK(n)` outside the domain of R133 (U11). No element of a run asks for it. Safe. -/
  | peekDomain
  /-- Raised by `DISCARD(n)` of bits that were not peeked (R139, U11). No element of a run asks for it. Safe. -/
  | discardDomain
  /-- Raised by `READ_RAW` while `BITCNT mod 8` is not 0 (R146, U11). No element of a run asks for it. Safe. -/
  | readRawDomain
  /-- Raised where a table yields a symbol outside its alphabet, which no table `BUILD` makes does (R236, R264).
  Safe. -/
  | symbolDomain
  /-- Raised by a launch whose `IN_LEN` or `OUT_CAP` does not fit `AW` bits (the launch premise of R9, R413). Safe. -/
  | launchPremise
deriving DecidableEq, Repr

/-- The input signals of R33, as the next step samples them. They are driven by the host, not by the block: no step
changes them (log entry 8). -/
structure Pins where
  rst    : Bool
  start  : Bool
  zlib   : Bool
  inLen  : Nat
  outCap : Nat
deriving DecidableEq, Repr

/-- The state of the block. Counts and sizes are natural numbers (R11; R9 allows it for the `AW`-wide ones);
`State.Inv` of Safety.lean states the widths of R21, R30, R31 and R39 for them. -/
structure State where
  /-- `ACC`, the residual bit accumulator (R22). -/
  acc : BitVec 32
  /-- `BITCNT`, how many bits of `ACC` are valid (R23). -/
  bitcnt : Nat
  /-- `IN_OFF`, index of the next byte to load (R24). -/
  inOff : Nat
  /-- `OUT_POS`, index of the next byte to write (R25). -/
  outPos : Nat
  /-- `FSM`, the dispatcher state (R28). -/
  fsm : Fsm
  /-- `BFINAL`, the final-block flag (R21, R29). -/
  bfinal : Bool
  /-- `STATIC_VALID`, the fixed tables are built (R21, R29). -/
  staticValid : Bool
  /-- `SEL`, false for the fixed and true for the dynamic tables (R21, R29). -/
  sel : Bool
  /-- `IN_LEN`, launch argument (R30). -/
  inLen : Nat
  /-- `OUT_CAP`, launch argument (R30). -/
  outCap : Nat
  /-- `ZLIB`, launch argument (R30). -/
  zlib : Bool
  /-- `BYTES_WRITTEN`, result register (R31). -/
  bytesWritten : Nat
  /-- `ERR_CODE`, result register (R31). -/
  errCode : BitVec 4
  /-- `CLLEN[0..18]` (R34). -/
  cllen : Vector (BitVec 3) 19
  /-- `LENS[0..319]` (R35). -/
  lens : Vector (BitVec 4) 320
  /-- `T_CL` (R37). -/
  tCl : Table
  /-- `T_LL` (R37). -/
  tLl : Table
  /-- `T_D` (R37). -/
  tD : Table
  /-- `T_LL_FIXED` (R37). -/
  tLlFixed : Table
  /-- `T_D_FIXED` (R37). -/
  tDFixed : Table
  /-- `CMF` (R39). -/
  cmf : Byte
  /-- `FLG` (R39). -/
  flg : Byte
  /-- `BTYPE` (R39). -/
  btype : BitVec 2
  /-- `LEN` (R39). -/
  len : BitVec 16
  /-- `NLEN` (R39). -/
  nlen : BitVec 16
  /-- `HLIT` (R39). -/
  hlit : Nat
  /-- `HDIST` (R39). -/
  hdist : Nat
  /-- `HCLEN` (R39). -/
  hclen : Nat
  /-- `LIDX` (R39). -/
  lidx : Nat
  /-- `REP` (R39). -/
  rep : Nat
  /-- `SYM` (R39). -/
  sym : Nat
  /-- `DSYM` (R39). -/
  dsym : Nat
  /-- `MLEN` (R39). -/
  mlen : Nat
  /-- `MDIST` (R39). -/
  mdist : Nat
  /-- Which context of `DynamicBlockHeader` comes next (R104; log entry 9). -/
  dynPhase : DynPhase
  /-- The index `i` of the next `CLLEN3` (R233; log entry 9). -/
  clIdx : Nat
  /-- The contents of `IN` (R60), an input no step changes (log entry 1). -/
  inp : Memory
  /-- The contents of `OUT` (R62). -/
  out : Memory
  /-- The input signals (R33; log entry 8). -/
  pins : Pins
  /-- The model's own counter of free values drawn so far (log entry 5). -/
  draw : Nat
deriving DecidableEq, Repr

/-- The block right after `rst` (R43, R410). Arrays, tables and transient registers, which the spec leaves
unspecified, hold the values log entry 2 names; both spaces list nothing (log entry 3); all input signals are low
(log entry 8). -/
def State.reset : State where
  acc := 0
  bitcnt := 0
  inOff := 0
  outPos := 0
  fsm := .idle
  bfinal := false
  staticValid := false
  sel := false
  inLen := 0
  outCap := 0
  zlib := false
  bytesWritten := 0
  errCode := 0
  cllen := Vector.replicate 19 0
  lens := Vector.replicate 320 0
  tCl := Table.empty
  tLl := Table.empty
  tD := Table.empty
  tLlFixed := Table.empty
  tDFixed := Table.empty
  cmf := 0
  flg := 0
  btype := 0
  len := 0
  nlen := 0
  hlit := 0
  hdist := 0
  hclen := 0
  lidx := 0
  rep := 0
  sym := 0
  dsym := 0
  mlen := 0
  mdist := 0
  dynPhase := .counts
  clIdx := 0
  inp := []
  out := []
  pins := ⟨false, false, false, 0, 0⟩
  draw := 0

end Sys2Proof.Machine
end

