-- ==== Sys2Proof/Machine/Flags.lean ====
section
/-! DEFINITION. The block's flags and status outputs (R29: it has no condition codes), its output ports (R33), and the
header test. -/

namespace Sys2Proof.Machine

/-- `BUSY` (R29). -/
def State.busy (s : State) : Bool :=
  match s.fsm with
  | .idle => false
  | .done => false
  | .failed => false
  | _ => true

/-- `DONE` (R29). -/
def State.isDone (s : State) : Bool := s.fsm == .done

/-- `ERR` (R29). -/
def State.isErr (s : State) : Bool := s.fsm == .failed

/-- `ERR_CODE` of each fault kind (R371). -/
def FaultKind.code : FaultKind → BitVec 4
  | .invalidHeader => 1
  | .truncatedStream => 2
  | .lengthMismatch => 3
  | .invalidBlockType => 4
  | .invalidBackReference => 5
  | .outputBufferExhausted => 6
  | .invalidCodeLengths => 7
  | .invalidSymbol => 8

/-- `POS` (R27), the index of the next unconsumed bit of `IN`. -/
def State.pos (s : State) : Nat := 8 * s.inOff - s.bitcnt

/-- `ZValid(CMF, FLG)` (R196): the checksum, `FDICT = 0`, `CM = 8`, `CINFO ≤ 7`. -/
def zValid (cmf flg : Byte) : Bool :=
  decide ((256 * cmf.toNat + flg.toNat) % 31 = 0) && !flg.getLsbD 5 &&
    decide (cmf.toNat % 16 = 8) && decide (cmf.toNat / 16 ≤ 7)

/-- The complement test of a stored header (R201), in 16 bits: `LEN = ~NLEN`. -/
def lenMatches (len nlen : BitVec 16) : Bool := len == ~~~nlen

end Sys2Proof.Machine
end

