-- ==== Sys2Proof/Machine/Memory.lean ====
section
/-! DEFINITION. Reading and writing one byte of a space (R66, R68), in the canonical form that makes equal memories
equal data. -/

namespace Sys2Proof

/-- What an address reads as that the list does not name (log entry 3). -/
def Memory.unlisted : Byte := 0

/-- The byte at address `a` (R68: the last byte written there). -/
def Memory.read (m : Memory) (a : Nat) : Byte :=
  match m with
  | [] => Memory.unlisted
  | (k, v) :: rest => if k = a then v else Memory.read rest a

/-- Put a cell in front, unless it says what an unlisted address says. -/
def Memory.cons (a : Nat) (b : Byte) (m : Memory) : Memory := if b = Memory.unlisted then m else (a, b) :: m

/-- Write byte `b` at address `a` (R62), keeping the canonical form. -/
def Memory.write (m : Memory) (a : Nat) (b : Byte) : Memory :=
  match m with
  | [] => Memory.cons a b []
  | (k, v) :: rest =>
    if a < k then Memory.cons a b ((k, v) :: rest)
    else if a = k then Memory.cons a b rest
    else (k, v) :: Memory.write rest a b

/-- Every cell lies above address `lo` and none holds the unlisted byte, addresses rising. -/
def Memory.wfFrom (lo : Nat) (m : Memory) : Bool :=
  match m with
  | [] => true
  | (k, v) :: rest => decide (lo ≤ k) && decide (v ≠ Memory.unlisted) && Memory.wfFrom (k + 1) rest

/-- The canonical form: addresses strictly rising, no cell holding the unlisted byte. -/
def Memory.wf (m : Memory) : Bool := Memory.wfFrom 0 m

/-- The bytes `f n`, `f (n + 1)`, … up to but not including `f (n + k)`, as cells in front of `m`. -/
def Memory.fill (f : Nat → Byte) (n : Nat) (k : Nat) (m : Memory) : Memory :=
  match k with
  | 0 => m
  | k + 1 => Memory.cons n (f n) (Memory.fill f (n + 1) k m)

/-- The memory whose bytes below `cap` are the given ones and whose other bytes are those of `m`: what is left of
`OUT` where the spec calls its contents undefined (R376, R410). -/
def Memory.overwriteBelow (cap : Nat) (f : Nat → Byte) (m : Memory) : Memory :=
  Memory.fill f 0 cap (m.filter (fun c => decide (cap ≤ c.1)))

/-- The memory that holds a list of bytes from address `n` on. -/
def Memory.ofBytes (n : Nat) (bs : List Byte) : Memory :=
  match bs with
  | [] => []
  | b :: rest => Memory.cons n b (Memory.ofBytes (n + 1) rest)

end Sys2Proof
end

