-- ==== Sys2Proof/Machine/Ops.lean ====
section
/-! DEFINITION. The operations every meaning is written over: what an operation answers, raising a fault and the two
ways out of a terminal state, byte accesses, the bit cursor (R130 to R150), `BUILD` and `DECODE` (R160 to R174), the
copier (R350 to R359), and the end of a block (R193). -/

namespace Sys2Proof.Machine

/-! ## What an operation answers -/

/-- The answer of an operation: a value and the state after it, a fault kind raised (R375), or a stop of the model. -/
inductive Res (α : Type) where
  | ok (a : α) (s : State)
  | raised (k : FaultKind) (s : State)
  | fault (r : Fault)
  | refused (r : Refusal)

/-- Go on with the value and the state, unless the operation before ended the run (R14, R378: the first fault
wins). -/
def Res.bind {α β : Type} (x : Res α) (f : α → State → Res β) : Res β :=
  match x with
  | .ok a s => f a s
  | .raised k s => .raised k s
  | .fault r => .fault r
  | .refused r => .refused r

/-! ## Values the spec leaves undefined (log entry 5) -/

/-- A free natural number below `n`. -/
def State.freeBelow (s : State) (slot n : Nat) : Nat := Config.freeValue s.draw slot % n

/-- A free bit. -/
def State.freeBit (s : State) (slot : Nat) : Bool := decide (s.freeBelow slot 2 = 1)

/-- A free Huffman table of the shape of R36; its slots start at `base`. -/
def State.freeTable (s : State) (base : Nat) : Table :=
  let m := s.freeBelow base 17
  ⟨m, (List.range (2 ^ m)).map fun i => ⟨s.freeBelow (base + 2 * i + 1) 288, s.freeBelow (base + 2 * i + 2) 17⟩⟩

/-- The arrays, the tables and the transient registers hold any value: after `rst` and launch (R43, U10), at `Done` and
`Failed` (U3). -/
def State.freeScratch (s : State) : State :=
  { s with
    cllen := ⟨⟨(List.range 19).map fun i => BitVec.ofNat 3 (Config.freeValue s.draw (1000 + i))⟩, by simp⟩
    lens := ⟨⟨(List.range 320).map fun i => BitVec.ofNat 4 (Config.freeValue s.draw (2000 + i))⟩, by simp⟩
    tCl := s.freeTable 1000000
    tLl := s.freeTable 2000000
    tD := s.freeTable 3000000
    tLlFixed := s.freeTable 4000000
    tDFixed := s.freeTable 5000000
    cmf := BitVec.ofNat 8 (Config.freeValue s.draw 10)
    flg := BitVec.ofNat 8 (Config.freeValue s.draw 11)
    btype := BitVec.ofNat 2 (Config.freeValue s.draw 12)
    len := BitVec.ofNat 16 (Config.freeValue s.draw 13)
    nlen := BitVec.ofNat 16 (Config.freeValue s.draw 14)
    hlit := s.freeBelow 15 512
    hdist := s.freeBelow 16 64
    hclen := s.freeBelow 17 32
    lidx := s.freeBelow 18 512
    rep := s.freeBelow 19 256
    sym := s.freeBelow 20 512
    dsym := s.freeBelow 21 32
    mlen := s.freeBelow 22 512
    mdist := s.freeBelow 23 65536
    dynPhase := if s.freeBit 24 then .symbols else if s.freeBit 25 then .cllens else .counts
    clIdx := s.freeBelow 26 32
    draw := s.draw + 1 }

/-- `OUT` below `OUT_CAP` holds any bytes (R376, U1; R410). -/
def State.freeOut (s : State) : State :=
  { s with out := Memory.overwriteBelow s.outCap (Config.freeByte s.draw) s.out, draw := s.draw + 1 }

/-! ## Raising a fault, reset, launch -/

/-- `raise K` (R375) with the state of R376: `FSM = Failed`, `ERR_CODE` the kind's code; `BYTES_WRITTEN`, `OUT` below
`OUT_CAP` and every working register hold any value (U1 to U3). `IN`, `OUT` from `OUT_CAP` on, the launch arguments
and the input signals stay. Nothing is saved and there is no return (R382, R383): the ways out of `Failed` are
`State.rst` and `State.launch`. -/
def State.raise (k : FaultKind) (s : State) : State :=
  { s.freeOut.freeScratch with
    acc := BitVec.ofNat 32 (Config.freeValue s.draw 0)
    bitcnt := s.freeBelow 1 64
    inOff := s.freeBelow 2 (2 ^ Config.aw)
    outPos := s.freeBelow 3 (2 ^ Config.aw)
    bfinal := s.freeBit 4
    staticValid := s.freeBit 5
    sel := s.freeBit 6
    bytesWritten := s.freeBelow 7 (2 ^ Config.aw)
    fsm := .failed
    errCode := k.code }

/-- What one step makes of an operation's answer. -/
def Res.finish (x : Res Unit) : Host.Outcome State Fault Refusal :=
  match x with
  | .ok _ s => .next s
  | .raised k s => .next (s.raise k)
  | .fault r => .fault r
  | .refused r => .refused r

/-- `rst` (R410): the "after `rst`" column of R43, whose arrays, tables and transient registers hold any value (U10);
`IN` is untouched, and so is `OUT` unless a run is abandoned, which leaves `OUT` below `OUT_CAP` undefined. -/
def State.rst (s : State) : State :=
  { s.freeScratch with
    fsm := .idle
    acc := 0
    bitcnt := 0
    inOff := 0
    outPos := 0
    bfinal := false
    staticValid := false
    sel := false
    inLen := 0
    outCap := 0
    zlib := false
    bytesWritten := 0
    errCode := 0
    out := if s.busy then s.freeOut.out else s.out }

/-- The registers after launch (R43, R412). `BYTES_WRITTEN` keeps its 0 until the run ends, where R31 leaves it undefined:
DESIGN CHOICE, log entry 21. -/
def State.launched (s : State) : State :=
  { s.freeScratch with
    fsm := if s.pins.zlib then .zlibHeader else .awaitingBlockHeader
    acc := 0
    bitcnt := 0
    inOff := 0
    outPos := 0
    bfinal := false
    staticValid := false
    sel := false
    inLen := s.pins.inLen
    outCap := s.pins.outCap
    zlib := s.pins.zlib
    bytesWritten := 0
    errCode := 0 }

/-- Launch (R412), refused where the premise of R9 and R413 on the widths of its arguments fails. -/
def State.launch (s : State) : Host.Outcome State Fault Refusal :=
  if s.pins.inLen < 2 ^ Config.aw ∧ s.pins.outCap < 2 ^ Config.aw then .next s.launched
  else .refused .launchPremise

/-! ## Byte accesses (R61, R62, R66) -/

/-- `MemRead(IN, a, 1)`. -/
def inRead (a : Nat) (s : State) : Res Byte :=
  if a < s.inLen then .ok (Memory.read s.inp a) s else .fault .inAddress

/-- `MemRead(OUT, a, 1)`. -/
def outRead (a : Nat) (s : State) : Res Byte :=
  if a < s.outCap then .ok (Memory.read s.out a) s else .fault .outAddress

/-- `MemWrite(OUT, a, 1, b)`. -/
def outWrite (a : Nat) (b : Byte) (s : State) : Res Unit :=
  if a < s.outCap then .ok () { s with out := Memory.write s.out a b } else .fault .outAddress

/-- A byte goes to `OUT` at `OUT_POS`, which steps on (R62); the capacity is tested when the byte is about to be
written (R265, R374 row 6). -/
def emit (b : Byte) (s : State) : Res Unit :=
  if s.outPos ≥ s.outCap then .raised .outputBufferExhausted s
  else (outWrite s.outPos b s).bind fun _ s => .ok () { s with outPos := s.outPos + 1 }

/-! ## The bit cursor -/

/-- A byte loaded into the accumulator above the valid bits (R134). -/
def State.pushByte (b : Byte) (s : State) : State :=
  { s with acc := s.acc ||| (b.setWidth 32 <<< s.bitcnt), bitcnt := s.bitcnt + 8, inOff := s.inOff + 1 }

/-- The refill loop of `PEEK` (R134): a byte is loaded exactly while fewer than `n` bits are valid. `fuel` bounds the
number of bytes. -/
def refill : Nat → Nat → State → Res Unit
  | 0, _, s => .ok () s
  | fuel + 1, n, s =>
    if n ≤ s.bitcnt then .ok () s
    else if s.inOff ≥ s.inLen then .raised .truncatedStream s
    else (inRead s.inOff s).bind fun b s => refill fuel n (s.pushByte b)

/-- The domain of `PEEK(n)` (R133): the refill must not push `BITCNT` past 32. -/
def State.peekable (s : State) (n : Nat) : Bool :=
  decide (n ≤ 32 ∧ (n ≤ s.bitcnt ∨ s.bitcnt + 8 * ((n - s.bitcnt + 7) / 8) ≤ Config.accW))

/-- `PEEK(n)` (R134). At most 4 bytes are loaded, since `n ≤ 32`. -/
def peek (n : Nat) (s : State) : Res Nat :=
  if s.peekable n then (refill 4 n s).bind fun _ s => .ok (s.acc.toNat % 2 ^ n) s
  else .refused .peekDomain

/-- The state after `n` valid bits are dropped (R139). -/
def State.dropBits (n : Nat) (s : State) : State :=
  { s with acc := s.acc >>> n, bitcnt := s.bitcnt - n }

/-- `DISCARD(n)` (R139). -/
def discard (n : Nat) (s : State) : Res Unit :=
  if n ≤ s.bitcnt then .ok () (s.dropBits n) else .refused .discardDomain

/-- `TAKE(n)` (R140). -/
def take (n : Nat) (s : State) : Res Nat :=
  (peek n s).bind fun v s => (discard n s).bind fun _ s => .ok v s

/-- `ALIGN()` (R143). -/
def align (s : State) : Res Unit := discard (s.bitcnt % 8) s

/-- The copy loop of `READ_RAW` (R146): per byte the input bound is tested before the output bound. -/
def rawLoop : Nat → State → Res Unit
  | 0, s => .ok () s
  | n + 1, s =>
    if s.inOff ≥ s.inLen then .raised .truncatedStream s
    else if s.outPos ≥ s.outCap then .raised .outputBufferExhausted s
    else
      (inRead s.inOff s).bind fun b s =>
        (outWrite s.outPos b s).bind fun _ s =>
          rawLoop n { s with inOff := s.inOff + 1, outPos := s.outPos + 1 }

/-- Whole bytes still held in `ACC` are given back before a raw copy (R146). -/
def State.giveBack (s : State) : State :=
  { s with inOff := s.inOff - s.bitcnt / 8, acc := 0, bitcnt := 0 }

/-- `READ_RAW(n)` (R146). -/
def readRaw (n : Nat) (s : State) : Res Unit :=
  if s.bitcnt % 8 = 0 then rawLoop n s.giveBack else .refused .readRawDomain

/-! ## The Huffman decoder -/

/-- `BUILD` as the dispatcher calls it (R167, R168). -/
def buildTable (lens : List Nat) (s : State) : Res Table :=
  match build lens with
  | none => .raised .invalidCodeLengths s
  | some t => .ok t s

/-- `DECODE(T)` (R173). -/
def decodeSym (t : Table) (s : State) : Res Nat :=
  (peek t.m s).bind fun i s =>
    if (t.entry i).len = 0 then .raised .invalidSymbol s
    else (discard (t.entry i).len s).bind fun _ s => .ok (t.entry i).sym s

/-! ## The back-reference copier -/

/-- The loop of `COPY` (R352), one byte at a time in increasing address order. -/
def copyLoop : Nat → Nat → State → Res Unit
  | 0, _, s => .ok () s
  | n + 1, dist, s =>
    if s.outPos ≥ s.outCap then .raised .outputBufferExhausted s
    else
      (outRead (s.outPos - dist) s).bind fun b s =>
        (outWrite s.outPos b s).bind fun _ s => copyLoop n dist { s with outPos := s.outPos + 1 }

/-- `COPY(len, dist)` (R352): the distance test comes first (R358). -/
def copy (len dist : Nat) (s : State) : Res Unit :=
  if dist > s.outPos then .raised .invalidBackReference s else copyLoop len dist s

/-! ## The end of a block -/

/-- The state at `Done` (R44, R194); arrays, tables and transients hold any value there (U3). -/
def State.finished (s : State) : State :=
  { s.freeScratch with fsm := .done, bytesWritten := s.outPos, errCode := 0 }

/-- End of block (R193). Where the run goes on, the dynamic tables and the transient registers of the block keep their
last values, though their lifetime is over (R37, R39): DESIGN CHOICE, log entries 22 and 23. -/
def endOfBlock (s : State) : Res Unit :=
  if s.bfinal then .ok () s.finished else .ok () { s with fsm := .awaitingBlockHeader }

end Sys2Proof.Machine
end

