-- ==== Sys2Proof/Machine/Operands.lean ====
section
/-! DEFINITION. Fetching a stream element: its selector and its operands are read through the bit cursor in the order
of the element's pseudocode and assembled by the decoder's own functions (R100, R104). -/

namespace Sys2Proof.Machine

/-- The active literal/length table `TLL` (R263). -/
def State.tll (s : State) : Table := if s.sel then s.tLl else s.tLlFixed

/-- The active distance table `TD` (R263). -/
def State.td (s : State) : Table := if s.sel then s.tD else s.tDFixed

/-- What a decoded symbol makes of its extra bits; no symbol of a built table is outside its alphabet. -/
def orSymbolDomain (i : Option Instr) (s : State) : Res Instr :=
  match i with
  | some i => .ok i s
  | none => .refused .symbolDomain

/-- `ZHDR`: two bytes (R195). -/
def fetchZhdr (s : State) : Res Instr :=
  (take 8 s).bind fun cmf s => (take 8 s).bind fun flg s => .ok (zhdrInstr cmf flg) s

/-- `BHDR`: `BFINAL`, then `BTYPE` (R192). -/
def fetchBhdr (s : State) : Res Instr :=
  (take 1 s).bind fun f s => (take 2 s).bind fun t s => .ok (bhdrInstr f t) s

/-- `STORED`: alignment, `LEN`, `NLEN` (R199). -/
def fetchStored (s : State) : Res Instr :=
  (align s).bind fun _ s => (take 16 s).bind fun len s => (take 16 s).bind fun nlen s => .ok (storedInstr len nlen) s

/-- `DYNHDR`: three counts (R231). -/
def fetchDynhdr (s : State) : Res Instr :=
  (take 5 s).bind fun a s => (take 5 s).bind fun b s => (take 4 s).bind fun c s => .ok (dynhdrInstr a b c) s

/-- `CLLEN3`: one entry (R233). -/
def fetchCllen3 (s : State) : Res Instr := (take 3 s).bind fun v s => .ok (.cllen3 v) s

/-- A code-length symbol (R236) with its extra bits (R239 to R241). `CL.REP` without a previous length faults before
its extra bits are read (R239). -/
def fetchCl (s : State) : Res Instr :=
  (decodeSym s.tCl s).bind fun sym s =>
    let s := { s with sym := sym }
    if sym = 16 ∧ s.lidx = 0 then .raised .invalidCodeLengths s
    else (take (clExtra sym) s).bind fun x s => orSymbolDomain (clInstr sym x) s

/-- A literal/length symbol (R261) with its extra bits (R267). -/
def fetchLl (s : State) : Res Instr :=
  (decodeSym s.tll s).bind fun sym s =>
    (take (llExtra sym) { s with sym := sym }).bind fun x s => orSymbolDomain (llInstr sym x) s

/-- A distance symbol with its extra bits (R267, R301); a reserved one has none (R333). -/
def fetchDist (s : State) : Res Instr :=
  (decodeSym s.td s).bind fun d s =>
    (take (dExtra d) { s with dsym := d }).bind fun x s => orSymbolDomain (dInstr d x) s

/-- The element the dispatcher state calls for (R104); `none` in the states that call for none. -/
def fetch (s : State) : Option (Res Instr) :=
  match s.fsm with
  | .zlibHeader => some (fetchZhdr s)
  | .awaitingBlockHeader => some (fetchBhdr s)
  | .storedBlock => some (fetchStored s)
  | .dynamicBlockHeader =>
    match s.dynPhase with
    | .counts => some (fetchDynhdr s)
    | .cllens => some (fetchCllen3 s)
    | .symbols => some (fetchCl s)
  | .symbolLoop => some (fetchLl s)
  | .idle => none
  | .staticBlock => none
  | .done => none
  | .failed => none

end Sys2Proof.Machine
end

