-- ==== Sys2Proof/Machine/DynHeader.lean ====
section
/-! DEFINITION. block_dispatcher: the header of a dynamic block (R230 to R245). -/

namespace Sys2Proof.Machine

/-- `DYNHDR` (R231, R235). -/
def execDynhdr (hlit hdist hclen : Nat) (s : State) : Host.Outcome State Fault Refusal :=
  let s := { s with hlit := hlit, hdist := hdist, hclen := hclen }
  if hlit > 286 ∨ hdist > 30 then .next (s.raise .invalidCodeLengths)
  else .next { s with cllen := Vector.replicate 19 0, dynPhase := .cllens, clIdx := 0 }

/-- The code lengths of the code-length alphabet, as `BUILD` takes them. -/
def State.cllenList (s : State) : List Nat := s.cllen.toList.map BitVec.toNat

/-- After the last `CLLEN3` (R234): `T_CL` is built and `LIDX` starts at 0. -/
def afterCllens (s : State) : Res Unit :=
  (buildTable s.cllenList s).bind fun t s => .ok () { s with tCl := t, lidx := 0, dynPhase := .symbols }

/-- `CLLEN3` (R233, R234). -/
def execCllen3 (v : Nat) (s : State) : Host.Outcome State Fault Refusal :=
  let s := { s with cllen := s.cllen.setIfInBounds (clorder s.clIdx) (BitVec.ofNat 3 v), clIdx := s.clIdx + 1 }
  if s.clIdx < s.hclen then .next s else (afterCllens s).finish

/-- `LENS[0 .. HLIT-1]` (R244). -/
def State.llLens (s : State) : List Nat := (s.lens.toList.map BitVec.toNat).take s.hlit

/-- `LENS[HLIT .. HLIT+HDIST-1]` (R244). -/
def State.dLens (s : State) : List Nat := ((s.lens.toList.map BitVec.toNat).drop s.hlit).take s.hdist

/-- The two tables of a dynamic block (R244). `T_CL`, whose lifetime ends here (R37), keeps its entries: DESIGN CHOICE, log
entry 22. -/
def buildDynamic (s : State) : Res Unit :=
  (buildTable s.llLens s).bind fun ll s =>
    (buildTable s.dLens s).bind fun d s => .ok () { s with tLl := ll, tD := d, sel := true, fsm := .symbolLoop }

/-- The loop condition of R236: another code-length symbol, or the tables. -/
def afterLengths (s : State) : Res Unit :=
  if s.lidx < s.hlit + s.hdist then .ok () s else buildDynamic s

/-- `LENS[i] <- v`; an index outside the array writes nothing (log entry 15: none occurs). -/
def State.setLens (i : Nat) (v : BitVec 4) (s : State) : State := { s with lens := s.lens.setIfInBounds i v }

/-- `for k in 0 .. rep-1: LENS[i + k] <- v` (R239 to R241). -/
def State.fillLens : Nat → Nat → BitVec 4 → State → State
  | 0, _, _, s => s
  | rep + 1, i, v, s => State.fillLens rep (i + 1) v (s.setLens i v)

/-- A run of `rep` lengths `v` (R239 to R242). -/
def repeatLength (v : BitVec 4) (rep : Nat) (s : State) : Res Unit :=
  let s := { s with rep := rep }
  if s.lidx + rep > s.hlit + s.hdist then .raised .invalidCodeLengths s
  else
    let s := s.fillLens rep s.lidx v
    afterLengths { s with lidx := s.lidx + rep }

/-- `CL.LEN` (R238). -/
def execClLen (v : Nat) (s : State) : Host.Outcome State Fault Refusal :=
  let s := s.setLens s.lidx (BitVec.ofNat 4 v)
  (afterLengths { s with lidx := s.lidx + 1 }).finish

/-- The previous length (R239), whichever element wrote it. -/
def State.prevLen (s : State) : BitVec 4 := s.lens.getD (s.lidx - 1) 0

/-- `CL.REP` (R239). -/
def execClRep (r : Nat) (s : State) : Host.Outcome State Fault Refusal :=
  if s.lidx = 0 then .next (s.raise .invalidCodeLengths)
  else (repeatLength s.prevLen r s).finish

/-- `CL.ZREP3` (R240). -/
def execClZrep3 (r : Nat) (s : State) : Host.Outcome State Fault Refusal := (repeatLength 0 r s).finish

/-- `CL.ZREP11` (R241). -/
def execClZrep11 (r : Nat) (s : State) : Host.Outcome State Fault Refusal := (repeatLength 0 r s).finish

end Sys2Proof.Machine
end

