-- ==== Sys2Proof/Machine/Header.lean ====
section
/-! DEFINITION. block_dispatcher: the zlib header, the four block headers and the stored block (R190 to R208). -/

namespace Sys2Proof.Machine

/-- `ZHDR` (R195): both bytes are recorded, then tested (R196). -/
def execZhdr (cmf flg : Byte) (s : State) : Host.Outcome State Fault Refusal :=
  let s := { s with cmf := cmf, flg := flg }
  if zValid cmf flg then .next { s with fsm := .awaitingBlockHeader } else .next (s.raise .invalidHeader)

/-- The registers every `BHDR` writes (R192). -/
def State.withHeader (bfinal : Bool) (btype : BitVec 2) (s : State) : State :=
  { s with bfinal := bfinal, btype := btype }

/-- `BHDR.STORED` (R192, R198). -/
def execBhdrStored (bfinal : Bool) (s : State) : Host.Outcome State Fault Refusal :=
  .next { s.withHeader bfinal 0 with fsm := .storedBlock }

/-- The fixed tables, built on the first use in a run (R205). -/
def buildFixed (s : State) : Res Unit :=
  if s.staticValid then .ok () s
  else
    (buildTable fixedLLLens s).bind fun ll s =>
      (buildTable fixedDLens s).bind fun d s =>
        .ok () { s with tLlFixed := ll, tDFixed := d, staticValid := true }

/-- Selecting the fixed tables (R205): what `StaticBlock` does at once on its way to `SymbolLoop` (R191). -/
def selectFixed (s : State) : Res Unit :=
  (buildFixed s).bind fun _ s => .ok () { s with sel := false, fsm := .symbolLoop }

/-- `BHDR.FIXED` (R192, R203, R205). -/
def execBhdrFixed (bfinal : Bool) (s : State) : Host.Outcome State Fault Refusal :=
  (selectFixed { s.withHeader bfinal 1 with fsm := .staticBlock }).finish

/-- `BHDR.DYN` (R192, R206): the counts come next. -/
def execBhdrDyn (bfinal : Bool) (s : State) : Host.Outcome State Fault Refusal :=
  .next { s.withHeader bfinal 2 with fsm := .dynamicBlockHeader, dynPhase := .counts }

/-- `BHDR.RSVD` (R192, R207). -/
def execBhdrRsvd (bfinal : Bool) (s : State) : Host.Outcome State Fault Refusal :=
  .next ((s.withHeader bfinal 3).raise .invalidBlockType)

/-- The body of `STORED` once `LEN` and `NLEN` are read (R199, R201, R202). -/
def storedBody (len nlen : BitVec 16) (s : State) : Res Unit :=
  let s := { s with len := len, nlen := nlen }
  if lenMatches len nlen then (readRaw len.toNat s).bind fun _ s => endOfBlock s
  else .raised .lengthMismatch s

/-- `STORED` (R199). -/
def execStored (len nlen : BitVec 16) (s : State) : Host.Outcome State Fault Refusal :=
  (storedBody len nlen s).finish

end Sys2Proof.Machine
end

