-- ==== Sys2Proof/Machine/Distance.lean ====
section
/-! DEFINITION. block_dispatcher: the symbols of the distance alphabet (R301 to R334). `DIST_d` runs inside a `LEN_s`,
which leaves the match length in `MLEN`; it ends with the copy (R267, R303). -/

namespace Sys2Proof.Machine

/-- The rest of a match once its distance is known (R267): `MDIST`, then `COPY(MLEN, MDIST)`. The registers of the pair keep
their values after it, where R39 gives them none: DESIGN CHOICE, log entry 23. -/
def matchAt (dist : Nat) (s : State) : Host.Outcome State Fault Refusal :=
  let s := { s with mdist := dist }
  (copy s.mlen s.mdist s).finish

/-- `DIST_0` (R303): `DBASE[0] = 1`. -/
def execDist0 (x : Nat) (s : State) : Host.Outcome State Fault Refusal := matchAt (dbase 0 + x) s

/-- `DIST_1` (R304): `DBASE[1] = 2`. -/
def execDist1 (x : Nat) (s : State) : Host.Outcome State Fault Refusal := matchAt (dbase 1 + x) s

/-- `DIST_2` (R305): `DBASE[2] = 3`. -/
def execDist2 (x : Nat) (s : State) : Host.Outcome State Fault Refusal := matchAt (dbase 2 + x) s

/-- `DIST_3` (R306): `DBASE[3] = 4`. -/
def execDist3 (x : Nat) (s : State) : Host.Outcome State Fault Refusal := matchAt (dbase 3 + x) s

/-- `DIST_4` (R307): `DBASE[4] = 5`. -/
def execDist4 (x : Nat) (s : State) : Host.Outcome State Fault Refusal := matchAt (dbase 4 + x) s

/-- `DIST_5` (R308): `DBASE[5] = 7`. -/
def execDist5 (x : Nat) (s : State) : Host.Outcome State Fault Refusal := matchAt (dbase 5 + x) s

/-- `DIST_6` (R309): `DBASE[6] = 9`. -/
def execDist6 (x : Nat) (s : State) : Host.Outcome State Fault Refusal := matchAt (dbase 6 + x) s

/-- `DIST_7` (R310): `DBASE[7] = 13`. -/
def execDist7 (x : Nat) (s : State) : Host.Outcome State Fault Refusal := matchAt (dbase 7 + x) s

/-- `DIST_8` (R311): `DBASE[8] = 17`. -/
def execDist8 (x : Nat) (s : State) : Host.Outcome State Fault Refusal := matchAt (dbase 8 + x) s

/-- `DIST_9` (R312): `DBASE[9] = 25`. -/
def execDist9 (x : Nat) (s : State) : Host.Outcome State Fault Refusal := matchAt (dbase 9 + x) s

/-- `DIST_10` (R313): `DBASE[10] = 33`. -/
def execDist10 (x : Nat) (s : State) : Host.Outcome State Fault Refusal := matchAt (dbase 10 + x) s

/-- `DIST_11` (R314): `DBASE[11] = 49`. -/
def execDist11 (x : Nat) (s : State) : Host.Outcome State Fault Refusal := matchAt (dbase 11 + x) s

/-- `DIST_12` (R315): `DBASE[12] = 65`. -/
def execDist12 (x : Nat) (s : State) : Host.Outcome State Fault Refusal := matchAt (dbase 12 + x) s

/-- `DIST_13` (R316): `DBASE[13] = 97`. -/
def execDist13 (x : Nat) (s : State) : Host.Outcome State Fault Refusal := matchAt (dbase 13 + x) s

/-- `DIST_14` (R317): `DBASE[14] = 129`. -/
def execDist14 (x : Nat) (s : State) : Host.Outcome State Fault Refusal := matchAt (dbase 14 + x) s

/-- `DIST_15` (R318): `DBASE[15] = 193`. -/
def execDist15 (x : Nat) (s : State) : Host.Outcome State Fault Refusal := matchAt (dbase 15 + x) s

/-- `DIST_16` (R319): `DBASE[16] = 257`. -/
def execDist16 (x : Nat) (s : State) : Host.Outcome State Fault Refusal := matchAt (dbase 16 + x) s

/-- `DIST_17` (R320): `DBASE[17] = 385`. -/
def execDist17 (x : Nat) (s : State) : Host.Outcome State Fault Refusal := matchAt (dbase 17 + x) s

/-- `DIST_18` (R321): `DBASE[18] = 513`. -/
def execDist18 (x : Nat) (s : State) : Host.Outcome State Fault Refusal := matchAt (dbase 18 + x) s

/-- `DIST_19` (R322): `DBASE[19] = 769`. -/
def execDist19 (x : Nat) (s : State) : Host.Outcome State Fault Refusal := matchAt (dbase 19 + x) s

/-- `DIST_20` (R323): `DBASE[20] = 1025`. -/
def execDist20 (x : Nat) (s : State) : Host.Outcome State Fault Refusal := matchAt (dbase 20 + x) s

/-- `DIST_21` (R324): `DBASE[21] = 1537`. -/
def execDist21 (x : Nat) (s : State) : Host.Outcome State Fault Refusal := matchAt (dbase 21 + x) s

/-- `DIST_22` (R325): `DBASE[22] = 2049`. -/
def execDist22 (x : Nat) (s : State) : Host.Outcome State Fault Refusal := matchAt (dbase 22 + x) s

/-- `DIST_23` (R326): `DBASE[23] = 3073`. -/
def execDist23 (x : Nat) (s : State) : Host.Outcome State Fault Refusal := matchAt (dbase 23 + x) s

/-- `DIST_24` (R327): `DBASE[24] = 4097`. -/
def execDist24 (x : Nat) (s : State) : Host.Outcome State Fault Refusal := matchAt (dbase 24 + x) s

/-- `DIST_25` (R328): `DBASE[25] = 6145`. -/
def execDist25 (x : Nat) (s : State) : Host.Outcome State Fault Refusal := matchAt (dbase 25 + x) s

/-- `DIST_26` (R329): `DBASE[26] = 8193`. -/
def execDist26 (x : Nat) (s : State) : Host.Outcome State Fault Refusal := matchAt (dbase 26 + x) s

/-- `DIST_27` (R330): `DBASE[27] = 12289`. -/
def execDist27 (x : Nat) (s : State) : Host.Outcome State Fault Refusal := matchAt (dbase 27 + x) s

/-- `DIST_28` (R331): `DBASE[28] = 16385`. -/
def execDist28 (x : Nat) (s : State) : Host.Outcome State Fault Refusal := matchAt (dbase 28 + x) s

/-- `DIST_29` (R332): `DBASE[29] = 24577`. -/
def execDist29 (x : Nat) (s : State) : Host.Outcome State Fault Refusal := matchAt (dbase 29 + x) s

/-- `DIST_30` (R333): reserved. -/
def execDist30 (s : State) : Host.Outcome State Fault Refusal := .next (s.raise .invalidSymbol)

/-- `DIST_31` (R334): reserved. -/
def execDist31 (s : State) : Host.Outcome State Fault Refusal := .next (s.raise .invalidSymbol)

/-- The meaning of the distance symbol a `LEN_s` has fetched. -/
def execDistance (i : Instr) (s : State) : Host.Outcome State Fault Refusal :=
  match i with
  | .dist0 x => execDist0 x s
  | .dist1 x => execDist1 x s
  | .dist2 x => execDist2 x s
  | .dist3 x => execDist3 x s
  | .dist4 x => execDist4 x s
  | .dist5 x => execDist5 x s
  | .dist6 x => execDist6 x s
  | .dist7 x => execDist7 x s
  | .dist8 x => execDist8 x s
  | .dist9 x => execDist9 x s
  | .dist10 x => execDist10 x s
  | .dist11 x => execDist11 x s
  | .dist12 x => execDist12 x s
  | .dist13 x => execDist13 x s
  | .dist14 x => execDist14 x s
  | .dist15 x => execDist15 x s
  | .dist16 x => execDist16 x s
  | .dist17 x => execDist17 x s
  | .dist18 x => execDist18 x s
  | .dist19 x => execDist19 x s
  | .dist20 x => execDist20 x s
  | .dist21 x => execDist21 x s
  | .dist22 x => execDist22 x s
  | .dist23 x => execDist23 x s
  | .dist24 x => execDist24 x s
  | .dist25 x => execDist25 x s
  | .dist26 x => execDist26 x s
  | .dist27 x => execDist27 x s
  | .dist28 x => execDist28 x s
  | .dist29 x => execDist29 x s
  | .dist30 => execDist30 s
  | .dist31 => execDist31 s
  | _ => .refused .symbolDomain

end Sys2Proof.Machine
end

