-- ==== Sys2Proof/Machine/Symbols.lean ====
section
/-! DEFINITION. block_dispatcher: the symbols of the literal/length alphabet (R260 to R300). -/

namespace Sys2Proof.Machine

/-- `LIT` (R265). -/
def execLit (b : Byte) (s : State) : Host.Outcome State Fault Refusal := (emit b s).finish

/-- `EOB` (R266). -/
def execEob (s : State) : Host.Outcome State Fault Refusal := (endOfBlock s).finish

/-- The rest of a `LEN_s DIST_d` pair once the match length is known (R267): `MLEN`, the distance symbol, and that
symbol's own meaning. -/
def matchOf (len : Nat) (s : State) : Host.Outcome State Fault Refusal :=
  match fetchDist { s with mlen := len } with
  | .ok i s => execDistance i s
  | .raised k s => .next (s.raise k)
  | .fault r => .fault r
  | .refused r => .refused r

/-- `LEN_257` (R270): `LBASE[0] = 3`. -/
def execLen257 (x : Nat) (s : State) : Host.Outcome State Fault Refusal := matchOf (lbase 0 + x) s

/-- `LEN_258` (R271): `LBASE[1] = 4`. -/
def execLen258 (x : Nat) (s : State) : Host.Outcome State Fault Refusal := matchOf (lbase 1 + x) s

/-- `LEN_259` (R272): `LBASE[2] = 5`. -/
def execLen259 (x : Nat) (s : State) : Host.Outcome State Fault Refusal := matchOf (lbase 2 + x) s

/-- `LEN_260` (R273): `LBASE[3] = 6`. -/
def execLen260 (x : Nat) (s : State) : Host.Outcome State Fault Refusal := matchOf (lbase 3 + x) s

/-- `LEN_261` (R274): `LBASE[4] = 7`. -/
def execLen261 (x : Nat) (s : State) : Host.Outcome State Fault Refusal := matchOf (lbase 4 + x) s

/-- `LEN_262` (R275): `LBASE[5] = 8`. -/
def execLen262 (x : Nat) (s : State) : Host.Outcome State Fault Refusal := matchOf (lbase 5 + x) s

/-- `LEN_263` (R276): `LBASE[6] = 9`. -/
def execLen263 (x : Nat) (s : State) : Host.Outcome State Fault Refusal := matchOf (lbase 6 + x) s

/-- `LEN_264` (R277): `LBASE[7] = 10`. -/
def execLen264 (x : Nat) (s : State) : Host.Outcome State Fault Refusal := matchOf (lbase 7 + x) s

/-- `LEN_265` (R278): `LBASE[8] = 11`. -/
def execLen265 (x : Nat) (s : State) : Host.Outcome State Fault Refusal := matchOf (lbase 8 + x) s

/-- `LEN_266` (R279): `LBASE[9] = 13`. -/
def execLen266 (x : Nat) (s : State) : Host.Outcome State Fault Refusal := matchOf (lbase 9 + x) s

/-- `LEN_267` (R280): `LBASE[10] = 15`. -/
def execLen267 (x : Nat) (s : State) : Host.Outcome State Fault Refusal := matchOf (lbase 10 + x) s

/-- `LEN_268` (R281): `LBASE[11] = 17`. -/
def execLen268 (x : Nat) (s : State) : Host.Outcome State Fault Refusal := matchOf (lbase 11 + x) s

/-- `LEN_269` (R282): `LBASE[12] = 19`. -/
def execLen269 (x : Nat) (s : State) : Host.Outcome State Fault Refusal := matchOf (lbase 12 + x) s

/-- `LEN_270` (R283): `LBASE[13] = 23`. -/
def execLen270 (x : Nat) (s : State) : Host.Outcome State Fault Refusal := matchOf (lbase 13 + x) s

/-- `LEN_271` (R284): `LBASE[14] = 27`. -/
def execLen271 (x : Nat) (s : State) : Host.Outcome State Fault Refusal := matchOf (lbase 14 + x) s

/-- `LEN_272` (R285): `LBASE[15] = 31`. -/
def execLen272 (x : Nat) (s : State) : Host.Outcome State Fault Refusal := matchOf (lbase 15 + x) s

/-- `LEN_273` (R286): `LBASE[16] = 35`. -/
def execLen273 (x : Nat) (s : State) : Host.Outcome State Fault Refusal := matchOf (lbase 16 + x) s

/-- `LEN_274` (R287): `LBASE[17] = 43`. -/
def execLen274 (x : Nat) (s : State) : Host.Outcome State Fault Refusal := matchOf (lbase 17 + x) s

/-- `LEN_275` (R288): `LBASE[18] = 51`. -/
def execLen275 (x : Nat) (s : State) : Host.Outcome State Fault Refusal := matchOf (lbase 18 + x) s

/-- `LEN_276` (R289): `LBASE[19] = 59`. -/
def execLen276 (x : Nat) (s : State) : Host.Outcome State Fault Refusal := matchOf (lbase 19 + x) s

/-- `LEN_277` (R290): `LBASE[20] = 67`. -/
def execLen277 (x : Nat) (s : State) : Host.Outcome State Fault Refusal := matchOf (lbase 20 + x) s

/-- `LEN_278` (R291): `LBASE[21] = 83`. -/
def execLen278 (x : Nat) (s : State) : Host.Outcome State Fault Refusal := matchOf (lbase 21 + x) s

/-- `LEN_279` (R292): `LBASE[22] = 99`. -/
def execLen279 (x : Nat) (s : State) : Host.Outcome State Fault Refusal := matchOf (lbase 22 + x) s

/-- `LEN_280` (R293): `LBASE[23] = 115`. -/
def execLen280 (x : Nat) (s : State) : Host.Outcome State Fault Refusal := matchOf (lbase 23 + x) s

/-- `LEN_281` (R294): `LBASE[24] = 131`. -/
def execLen281 (x : Nat) (s : State) : Host.Outcome State Fault Refusal := matchOf (lbase 24 + x) s

/-- `LEN_282` (R295): `LBASE[25] = 163`. -/
def execLen282 (x : Nat) (s : State) : Host.Outcome State Fault Refusal := matchOf (lbase 25 + x) s

/-- `LEN_283` (R296): `LBASE[26] = 195`. -/
def execLen283 (x : Nat) (s : State) : Host.Outcome State Fault Refusal := matchOf (lbase 26 + x) s

/-- `LEN_284` (R297): `LBASE[27] = 227`. -/
def execLen284 (x : Nat) (s : State) : Host.Outcome State Fault Refusal := matchOf (lbase 27 + x) s

/-- `LEN_285` (R298): `LBASE[28] = 258`. -/
def execLen285 (x : Nat) (s : State) : Host.Outcome State Fault Refusal := matchOf (lbase 28 + x) s

/-- `LL_286` (R299): reserved. -/
def execLl286 (s : State) : Host.Outcome State Fault Refusal := .next (s.raise .invalidSymbol)

/-- `LL_287` (R300): reserved. -/
def execLl287 (s : State) : Host.Outcome State Fault Refusal := .next (s.raise .invalidSymbol)

end Sys2Proof.Machine
end

