-- ==== Sys2Proof/Machine/Dispatch.lean ====
section
/-! DEFINITION. The meaning of every stream element: one arm per constructor, each one call. -/

namespace Sys2Proof.Machine

def exec (i : Instr) (s : State) : Host.Outcome State Fault Refusal :=
  match i with
  | .zhdr cmf flg => Sys2Proof.Machine.execZhdr cmf flg s
  | .bhdrStored bfinal => Sys2Proof.Machine.execBhdrStored bfinal s
  | .bhdrFixed bfinal => Sys2Proof.Machine.execBhdrFixed bfinal s
  | .bhdrDyn bfinal => Sys2Proof.Machine.execBhdrDyn bfinal s
  | .bhdrRsvd bfinal => Sys2Proof.Machine.execBhdrRsvd bfinal s
  | .stored len nlen => Sys2Proof.Machine.execStored len nlen s
  | .dynhdr hlit hdist hclen => Sys2Proof.Machine.execDynhdr hlit hdist hclen s
  | .cllen3 v => Sys2Proof.Machine.execCllen3 v s
  | .clLen v => Sys2Proof.Machine.execClLen v s
  | .clRep r => Sys2Proof.Machine.execClRep r s
  | .clZrep3 r => Sys2Proof.Machine.execClZrep3 r s
  | .clZrep11 r => Sys2Proof.Machine.execClZrep11 r s
  | .lit b => Sys2Proof.Machine.execLit b s
  | .eob => Sys2Proof.Machine.execEob s
  | .len257 x => Sys2Proof.Machine.execLen257 x s
  | .len258 x => Sys2Proof.Machine.execLen258 x s
  | .len259 x => Sys2Proof.Machine.execLen259 x s
  | .len260 x => Sys2Proof.Machine.execLen260 x s
  | .len261 x => Sys2Proof.Machine.execLen261 x s
  | .len262 x => Sys2Proof.Machine.execLen262 x s
  | .len263 x => Sys2Proof.Machine.execLen263 x s
  | .len264 x => Sys2Proof.Machine.execLen264 x s
  | .len265 x => Sys2Proof.Machine.execLen265 x s
  | .len266 x => Sys2Proof.Machine.execLen266 x s
  | .len267 x => Sys2Proof.Machine.execLen267 x s
  | .len268 x => Sys2Proof.Machine.execLen268 x s
  | .len269 x => Sys2Proof.Machine.execLen269 x s
  | .len270 x => Sys2Proof.Machine.execLen270 x s
  | .len271 x => Sys2Proof.Machine.execLen271 x s
  | .len272 x => Sys2Proof.Machine.execLen272 x s
  | .len273 x => Sys2Proof.Machine.execLen273 x s
  | .len274 x => Sys2Proof.Machine.execLen274 x s
  | .len275 x => Sys2Proof.Machine.execLen275 x s
  | .len276 x => Sys2Proof.Machine.execLen276 x s
  | .len277 x => Sys2Proof.Machine.execLen277 x s
  | .len278 x => Sys2Proof.Machine.execLen278 x s
  | .len279 x => Sys2Proof.Machine.execLen279 x s
  | .len280 x => Sys2Proof.Machine.execLen280 x s
  | .len281 x => Sys2Proof.Machine.execLen281 x s
  | .len282 x => Sys2Proof.Machine.execLen282 x s
  | .len283 x => Sys2Proof.Machine.execLen283 x s
  | .len284 x => Sys2Proof.Machine.execLen284 x s
  | .len285 x => Sys2Proof.Machine.execLen285 x s
  | .ll286 => Sys2Proof.Machine.execLl286 s
  | .ll287 => Sys2Proof.Machine.execLl287 s
  | .dist0 x => Sys2Proof.Machine.execDist0 x s
  | .dist1 x => Sys2Proof.Machine.execDist1 x s
  | .dist2 x => Sys2Proof.Machine.execDist2 x s
  | .dist3 x => Sys2Proof.Machine.execDist3 x s
  | .dist4 x => Sys2Proof.Machine.execDist4 x s
  | .dist5 x => Sys2Proof.Machine.execDist5 x s
  | .dist6 x => Sys2Proof.Machine.execDist6 x s
  | .dist7 x => Sys2Proof.Machine.execDist7 x s
  | .dist8 x => Sys2Proof.Machine.execDist8 x s
  | .dist9 x => Sys2Proof.Machine.execDist9 x s
  | .dist10 x => Sys2Proof.Machine.execDist10 x s
  | .dist11 x => Sys2Proof.Machine.execDist11 x s
  | .dist12 x => Sys2Proof.Machine.execDist12 x s
  | .dist13 x => Sys2Proof.Machine.execDist13 x s
  | .dist14 x => Sys2Proof.Machine.execDist14 x s
  | .dist15 x => Sys2Proof.Machine.execDist15 x s
  | .dist16 x => Sys2Proof.Machine.execDist16 x s
  | .dist17 x => Sys2Proof.Machine.execDist17 x s
  | .dist18 x => Sys2Proof.Machine.execDist18 x s
  | .dist19 x => Sys2Proof.Machine.execDist19 x s
  | .dist20 x => Sys2Proof.Machine.execDist20 x s
  | .dist21 x => Sys2Proof.Machine.execDist21 x s
  | .dist22 x => Sys2Proof.Machine.execDist22 x s
  | .dist23 x => Sys2Proof.Machine.execDist23 x s
  | .dist24 x => Sys2Proof.Machine.execDist24 x s
  | .dist25 x => Sys2Proof.Machine.execDist25 x s
  | .dist26 x => Sys2Proof.Machine.execDist26 x s
  | .dist27 x => Sys2Proof.Machine.execDist27 x s
  | .dist28 x => Sys2Proof.Machine.execDist28 x s
  | .dist29 x => Sys2Proof.Machine.execDist29 x s
  | .dist30 => Sys2Proof.Machine.execDist30 s
  | .dist31 => Sys2Proof.Machine.execDist31 s

end Sys2Proof.Machine
end

