-- ==== Sys2Proof/Machine/Step.lean ====
section
/-! DEFINITION. One step of the block: reset, launch, or one stream element (R190, R191, R410, R412). -/

namespace Sys2Proof.Machine

/-- The element the dispatcher state calls for, fetched and executed; in `StaticBlock`, which a block header leaves at
once, the fixed tables are selected; `Idle`, `Done` and `Failed` keep their state (R382, R390, R411). -/
def element (s : State) : Host.Outcome State Fault Refusal :=
  match fetch s with
  | some (.ok i s) => exec i s
  | some (.raised k s) => .next (s.raise k)
  | some (.fault r) => .fault r
  | some (.refused r) => .refused r
  | none => if s.fsm = .staticBlock then (selectFixed s).finish else .next s

/-- One step: `rst` wins over everything (R410); `start` is honoured unless the block is busy (R412). -/
def step (s : State) : Host.Outcome State Fault Refusal :=
  if s.pins.rst then .next s.rst
  else if s.pins.start && !s.busy then s.launch
  else element s

/-- The state in which the cursor stands at bit 0 of an `IN` that holds `bs`, with `rst` and `start` low. -/
def State.withStream (bs : Bits) (s : State) : State :=
  { s with
    acc := 0
    bitcnt := 0
    inOff := 0
    inp := Memory.ofBytes 0 (bytesOfBits bs.length bs)
    inLen := (bs.length + 7) / 8
    pins := { s.pins with rst := false, start := false } }

/-- The state in which a static block's symbols come next. -/
def State.withFixedTables (s : State) : State :=
  { s with fsm := .symbolLoop, sel := false, staticValid := true, tLlFixed := fixedLLTable, tDFixed := fixedDTable }

/-- The dispatcher state, tables and stream that make the next step run the instruction of a table word (R108; log
entry 14). A distance symbol never runs on its own (R301): its word runs as the second half of a `LEN_257` pair. -/
def State.withFormat (f : Format) (bs : Bits) (s : State) : State :=
  match f with
  | .zhdr16 => { s.withStream bs with fsm := .zlibHeader }
  | .bhdr3 => { s.withStream bs with fsm := .awaitingBlockHeader }
  | .stored => { s.withStream bs with fsm := .storedBlock }
  | .clsym =>
    { s.withStream bs with
      fsm := .dynamicBlockHeader, dynPhase := .symbols, tCl := flatCLTable, hlit := 257, hdist := 1, lidx := 1 }
  | .llsym => (s.withStream bs).withFixedTables
  | .dsym => (s.withStream (codeBits 7 1 ++ bs)).withFixedTables

/-- The state whose next step fetches and runs the instruction of a word of spec/opcode_table.json. -/
def State.withFetchWord (s : State) (nbits w : Nat) : State :=
  match formatOf nbits w with
  | none => s
  | some f =>
    match f.bits w with
    | none => s
    | some bs => s.withFormat f bs

end Sys2Proof.Machine
end

