-- ==== Sys2Proof/Safety.lean ====
section
/-! DEFINITION. What counts as a good state and a safe run, in the terms the claims use: the stream as the cursor sees
it, the widths of the registers, and the invariant of the machine. -/

namespace Sys2Proof.Machine

/-! ## The stream -/

/-- Stream bit `p` (R64): bit `p mod 8` of `IN[p div 8]`. -/
def State.streamBit (s : State) (p : Nat) : Bool := (Memory.read s.inp (p / 8)).getLsbD (p % 8)

/-- The `n` stream bits from bit `p` on. -/
def State.streamBits (s : State) (p n : Nat) : Bits := (List.range n).map fun j => s.streamBit (p + j)

/-- How many bits of `IN` are not consumed yet (R27). -/
def State.bitsLeft (s : State) : Nat := 8 * s.inLen - s.pos

/-- All the bits of `IN` that are not consumed yet. -/
def State.remaining (s : State) : Bits := s.streamBits s.pos s.bitsLeft

/-- The context in which the dispatcher decodes its next element (R104). -/
def State.context (s : State) : Option Context :=
  match s.fsm with
  | .zlibHeader => some .zlib
  | .awaitingBlockHeader => some .block
  | .storedBlock => some (.stored (s.bitcnt % 8))
  | .dynamicBlockHeader =>
    match s.dynPhase with
    | .counts => some .counts
    | .cllens => some .cllen
    | .symbols => some (.clsym s.tCl)
  | .symbolLoop => some (.llsym s.tll)
  | .idle => none
  | .staticBlock => none
  | .done => none
  | .failed => none

/-- The canonical code of symbol `sym` (R163): the smallest code of its length, plus how many earlier symbols have that
length. -/
def canonicalCode (lens : List Nat) (sym : Nat) : Nat :=
  firstCode lens (lens.getD sym 0) + countEq (lens.getD sym 0) (lens.take sym)

/-! ## The elements of a match, row by row -/

/-- A row of the length table or of the distance table as one element carries it: its symbol, base and number of extra
bits, and the element's extra-bits value. The claims' own transcription, apart from the tables the meanings use. -/
structure Row where
  sym   : Nat
  base  : Nat
  extra : Nat
  x     : Nat
deriving DecidableEq, Repr

/-- The number a row stands for: the base plus the extra-bits value (R100). -/
def Row.value (r : Row) : Nat := r.base + r.x

/-- The length symbols (R270 to R298). -/
def lengthRow : Instr → Option Row
  | .len257 x => some ⟨257, 3, 0, x⟩
  | .len258 x => some ⟨258, 4, 0, x⟩
  | .len259 x => some ⟨259, 5, 0, x⟩
  | .len260 x => some ⟨260, 6, 0, x⟩
  | .len261 x => some ⟨261, 7, 0, x⟩
  | .len262 x => some ⟨262, 8, 0, x⟩
  | .len263 x => some ⟨263, 9, 0, x⟩
  | .len264 x => some ⟨264, 10, 0, x⟩
  | .len265 x => some ⟨265, 11, 1, x⟩
  | .len266 x => some ⟨266, 13, 1, x⟩
  | .len267 x => some ⟨267, 15, 1, x⟩
  | .len268 x => some ⟨268, 17, 1, x⟩
  | .len269 x => some ⟨269, 19, 2, x⟩
  | .len270 x => some ⟨270, 23, 2, x⟩
  | .len271 x => some ⟨271, 27, 2, x⟩
  | .len272 x => some ⟨272, 31, 2, x⟩
  | .len273 x => some ⟨273, 35, 3, x⟩
  | .len274 x => some ⟨274, 43, 3, x⟩
  | .len275 x => some ⟨275, 51, 3, x⟩
  | .len276 x => some ⟨276, 59, 3, x⟩
  | .len277 x => some ⟨277, 67, 4, x⟩
  | .len278 x => some ⟨278, 83, 4, x⟩
  | .len279 x => some ⟨279, 99, 4, x⟩
  | .len280 x => some ⟨280, 115, 4, x⟩
  | .len281 x => some ⟨281, 131, 5, x⟩
  | .len282 x => some ⟨282, 163, 5, x⟩
  | .len283 x => some ⟨283, 195, 5, x⟩
  | .len284 x => some ⟨284, 227, 5, x⟩
  | .len285 x => some ⟨285, 258, 0, x⟩
  | _ => none

/-- The distance symbols (R303 to R332). -/
def distanceRow : Instr → Option Row
  | .dist0 x => some ⟨0, 1, 0, x⟩
  | .dist1 x => some ⟨1, 2, 0, x⟩
  | .dist2 x => some ⟨2, 3, 0, x⟩
  | .dist3 x => some ⟨3, 4, 0, x⟩
  | .dist4 x => some ⟨4, 5, 1, x⟩
  | .dist5 x => some ⟨5, 7, 1, x⟩
  | .dist6 x => some ⟨6, 9, 2, x⟩
  | .dist7 x => some ⟨7, 13, 2, x⟩
  | .dist8 x => some ⟨8, 17, 3, x⟩
  | .dist9 x => some ⟨9, 25, 3, x⟩
  | .dist10 x => some ⟨10, 33, 4, x⟩
  | .dist11 x => some ⟨11, 49, 4, x⟩
  | .dist12 x => some ⟨12, 65, 5, x⟩
  | .dist13 x => some ⟨13, 97, 5, x⟩
  | .dist14 x => some ⟨14, 129, 6, x⟩
  | .dist15 x => some ⟨15, 193, 6, x⟩
  | .dist16 x => some ⟨16, 257, 7, x⟩
  | .dist17 x => some ⟨17, 385, 7, x⟩
  | .dist18 x => some ⟨18, 513, 8, x⟩
  | .dist19 x => some ⟨19, 769, 8, x⟩
  | .dist20 x => some ⟨20, 1025, 9, x⟩
  | .dist21 x => some ⟨21, 1537, 9, x⟩
  | .dist22 x => some ⟨22, 2049, 10, x⟩
  | .dist23 x => some ⟨23, 3073, 10, x⟩
  | .dist24 x => some ⟨24, 4097, 11, x⟩
  | .dist25 x => some ⟨25, 6145, 11, x⟩
  | .dist26 x => some ⟨26, 8193, 12, x⟩
  | .dist27 x => some ⟨27, 12289, 12, x⟩
  | .dist28 x => some ⟨28, 16385, 13, x⟩
  | .dist29 x => some ⟨29, 24577, 13, x⟩
  | _ => none

/-- `OUT` of `t` is that of `s` with the `dist` bytes before the position repeated cyclically over `len` bytes (R354). -/
def State.Copied (s t : State) (len dist : Nat) : Prop :=
  ∀ a, Memory.read t.out a = if s.outPos ≤ a ∧ a < s.outPos + len
    then Memory.read s.out (s.outPos - dist + (a - s.outPos) % dist) else Memory.read s.out a

/-! ## The elements of a dynamic header -/

/-- What a code-length symbol appends to `LENS`: `count` entries of `value`, with the register `REP` after it. -/
structure Run where
  value : BitVec 4
  count : Nat
  rep   : Nat
deriving DecidableEq, Repr

/-- The run of each code-length symbol (R238 to R241); `none` where there is no previous length to repeat. -/
def State.lengthRun (s : State) : Instr → Option Run
  | .clLen v => some ⟨BitVec.ofNat 4 v, 1, s.rep⟩
  | .clRep r => if s.lidx = 0 then none else some ⟨s.lens.getD (s.lidx - 1) 0, r, r⟩
  | .clZrep3 r => some ⟨0, r, r⟩
  | .clZrep11 r => some ⟨0, r, r⟩
  | _ => none

/-- `lens` is `s.lens` with a run written from `LIDX` on. -/
def State.Ran (s : State) (run : Run) (lens : Vector (BitVec 4) 320) : Prop :=
  ∀ k, k < 320 → lens.getD k 0 = if s.lidx ≤ k ∧ k < s.lidx + run.count then run.value else s.lens.getD k 0

/-- Among the code-length symbols, `CL.REP` comes next and there is no previous length (R239). -/
def State.RepeatsNothing (s : State) : Prop :=
  s.lidx = 0 ∧ ∃ rest, takeSymbol s.tCl s.remaining = .ok (16, rest)

/-- The order of the code-length-code entries, from R232. -/
def swizzle : List Nat := [16, 17, 18, 0, 8, 7, 9, 6, 10, 5, 11, 4, 12, 3, 13, 2, 14, 1, 15]

/-- `cllen` is `s.cllen` with the next entry, in swizzled order, set to `v`. -/
def State.Swizzled (s : State) (v : Nat) (cllen : Vector (BitVec 3) 19) : Prop :=
  ∀ k, k < 19 → cllen.getD k 0 = if swizzle[s.clIdx]? = some k then BitVec.ofNat 3 v else s.cllen.getD k 0

/-- `K` of R164, from the list of code lengths alone. -/
def kraftSum (lens : List Nat) : Nat := ((List.range 16).map fun j => lens.count (j + 1) * 2 ^ (15 - j)).sum

/-- The code lengths the first `n` entries from entry `i` of `LENS` hold. -/
def lensSlice (lens : Vector (BitVec 4) 320) (i n : Nat) : List Nat := ((lens.toList.drop i).take n).map BitVec.toNat

/-! ## Where an element stands -/

/-- The context an element is decoded in, with the tables whose books are `staticBooks` (R104); `pad` bits stand before
a stored header. -/
def homeContext (pad : Nat) (i : Instr) : Context :=
  match i with
  | .zhdr _ _ => .zlib
  | .bhdrStored _ => .block
  | .bhdrFixed _ => .block
  | .bhdrDyn _ => .block
  | .bhdrRsvd _ => .block
  | .stored _ _ => .stored pad
  | .dynhdr _ _ _ => .counts
  | .cllen3 _ => .cllen
  | i =>
    if (clParts i).isSome then .clsym flatCLTable
    else if (llParts i).isSome then .llsym fixedLLTable
    else .dsym fixedDTable

/-- What `SYM` holds once an element is fetched: the symbol, where the element has one of `T_CL` or of the active
literal/length table (R236, R261). -/
def State.symAfter (s : State) (i : Instr) : Nat :=
  match clParts i with
  | some p => p.1
  | none =>
    match llParts i with
    | some p => p.1
    | none => s.sym

/-- The dispatcher states one element can lead to (R191). -/
def Fsm.successors : Fsm → List Fsm
  | .idle => [.idle]
  | .zlibHeader => [.awaitingBlockHeader, .failed]
  | .awaitingBlockHeader => [.storedBlock, .symbolLoop, .dynamicBlockHeader, .failed]
  | .storedBlock => [.awaitingBlockHeader, .done, .failed]
  | .staticBlock => [.symbolLoop]
  | .dynamicBlockHeader => [.dynamicBlockHeader, .symbolLoop, .failed]
  | .symbolLoop => [.symbolLoop, .awaitingBlockHeader, .done, .failed]
  | .done => [.done]
  | .failed => [.failed]

/-! ## Good states -/

/-- The cursor invariants of R26, with `IN_OFF ≤ IN_LEN` (R24). -/
structure State.CursorInv (s : State) : Prop where
  count    : s.bitcnt ≤ 32
  acc_lt   : s.acc.toNat < 2 ^ s.bitcnt
  behind   : s.bitcnt ≤ 8 * s.inOff
  within   : s.inOff ≤ s.inLen
  acc_bits : ∀ i, i < s.bitcnt → s.acc.getLsbD i = s.streamBit (s.pos + i)

/-- `u` is `s` with the cursor moved `n` bits on (R27): nothing but the cursor registers differs, and the cursor is in
order. How many bytes are read ahead is not said. -/
structure State.Moved (s u : State) (n : Nat) : Prop where
  same   : u = { s with acc := u.acc, bitcnt := u.bitcnt, inOff := u.inOff }
  cursor : u.CursorInv
  pos    : u.pos = s.pos + n

/-- A table has the shape and the field widths of R36. -/
structure Table.Fits (t : Table) : Prop where
  m_le    : t.m ≤ 16
  size    : t.ent.length = 2 ^ t.m
  entries : ∀ e ∈ t.ent, e.sym < 288 ∧ e.len ≤ 16

/-- What `DECODE` needs of its table: no code is longer than the look-ahead (R173). -/
def Table.Decodable (t : Table) : Prop := t.m ≤ 16 ∧ ∀ i, (t.entry i).len ≤ t.m

/-- Every register holds a value of its width (R21, R30, R31, R36, R39). -/
structure State.Fits (s : State) : Prop where
  bitcnt       : s.bitcnt < 64
  inOff        : s.inOff < 2 ^ Config.aw
  outPos       : s.outPos < 2 ^ Config.aw
  inLen        : s.inLen < 2 ^ Config.aw
  outCap       : s.outCap < 2 ^ Config.aw
  bytesWritten : s.bytesWritten < 2 ^ Config.aw
  hlit         : s.hlit < 512
  hdist        : s.hdist < 64
  hclen        : s.hclen < 32
  lidx         : s.lidx < 512
  rep          : s.rep < 256
  sym          : s.sym < 512
  dsym         : s.dsym < 32
  mlen         : s.mlen < 512
  mdist        : s.mdist < 65536
  clIdx        : s.clIdx < 32
  tCl          : Table.Fits s.tCl
  tLl          : Table.Fits s.tLl
  tD           : Table.Fits s.tD
  tLlFixed     : Table.Fits s.tLlFixed
  tDFixed      : Table.Fits s.tDFixed

/-- The counts of a dynamic block are in range (R231, R235). -/
structure State.CountsInv (s : State) : Prop where
  hlit  : 257 ≤ s.hlit ∧ s.hlit ≤ 286
  hdist : 1 ≤ s.hdist ∧ s.hdist ≤ 30
  hclen : 4 ≤ s.hclen ∧ s.hclen ≤ 19

/-- What holds inside the header of a dynamic block, by what comes next (R233, R234, R236). -/
def State.HeaderInv (s : State) : Prop :=
  match s.dynPhase with
  | .counts => True
  | .cllens => s.CountsInv ∧ s.clIdx < s.hclen
  | .symbols => s.CountsInv ∧ s.lidx < s.hlit + s.hdist ∧ build s.cllenList = some s.tCl

/-- The active tables of the symbol loop are the ones `BUILD` made (R205, R244, R263). -/
def State.TablesInv (s : State) : Prop :=
  if s.sel then s.CountsInv ∧ build s.llLens = some s.tLl ∧ build s.dLens = some s.tD
  else s.staticValid = true

/-- The invariant of the machine: every step keeps it from every state in which it holds. After a fault only what R376
leaves defined is in it. -/
structure State.Inv (s : State) : Prop where
  inp_wf  : Memory.wf s.inp = true
  out_wf  : Memory.wf s.out = true
  fits    : s.Fits
  /-- R31, R371, R376 -/
  code    : if s.fsm = .failed then 1 ≤ s.errCode.toNat ∧ s.errCode.toNat ≤ 8 else s.errCode = 0
  /-- R26 -/
  cursor  : s.fsm ≠ .failed → s.CursorInv
  /-- R25 -/
  room    : s.fsm ≠ .failed → s.outPos ≤ s.outCap
  /-- R44 -/
  result  : s.fsm = .done → s.bytesWritten = s.outPos
  /-- R205 -/
  fixed   : s.busy = true → s.staticValid = true →
              build fixedLLLens = some s.tLlFixed ∧ build fixedDLens = some s.tDFixed
  header  : s.fsm = .dynamicBlockHeader → s.HeaderInv
  tables  : s.fsm = .symbolLoop → s.TablesInv

/-- The launch arguments on the input signals fit `AW` bits (R9, R413 item 5), as signals of that width do. -/
def State.LaunchPremise (s : State) : Prop := s.pins.inLen < 2 ^ Config.aw ∧ s.pins.outCap < 2 ^ Config.aw

/-- A step is safe when it answers a next state in which the invariant still holds. -/
def Safe (o : Host.Outcome State Fault Refusal) : Prop := ∃ t, o = .next t ∧ t.Inv

/-- Neither `rst` nor `start` is asserted: the step runs an element. -/
def State.Quiet (s : State) : Prop := s.pins.rst = false ∧ s.pins.start = false

/-- `k` steps from `s` end in `t`. -/
inductive Steps : Nat → State → State → Prop where
  | zero (s : State) : Steps 0 s s
  | succ {k : Nat} {s t u : State} : step s = .next t → Steps k t u → Steps (k + 1) s u

end Sys2Proof.Machine
end

