-- ==== Sys2Proof/Certificates/Slice0/Obligations.lean ====
section
/-! DEFINITION. The statements about the block, from the numbered rules of spec/. -/

open Sys2Proof Sys2Proof.Machine

/-! ## Encoding -/

/-- Words written out from R92, R93, R95 to R99, R102 and R103 decode to the elements they stand for. -/
def Obligations.WrittenOutWordsDecode : Prop :=
  decode .zlib (bitsOfNat 8 0x78 ++ bitsOfNat 8 0x9C) = .ok (.zhdr 0x78 0x9C, []) ∧
  decode .block [true, false, false] = .ok (.bhdrStored true, []) ∧
  decode .block [false, true, false] = .ok (.bhdrFixed false, []) ∧
  decode .block [false, false, true] = .ok (.bhdrDyn false, []) ∧
  decode .counts ([false, false, false, false, false] ++ [false, false, false, false, false] ++
    [false, true, true, true]) = .ok (.dynhdr 257 1 18, []) ∧
  decode .cllen [true, false, false] = .ok (.cllen3 1, []) ∧
  decode (.llsym fixedLLTable) ([true, false, false, true, false, false, false, true] ++ [false]) =
    .ok (.lit 0x61, [false]) ∧
  decode (.llsym fixedLLTable) ([false, false, false, false, false, false, false] ++ [true, true]) =
    .ok (.eob, [true, true]) ∧
  decode (.llsym fixedLLTable) ([false, false, false, true, false, false, true] ++ [true] ++ [false]) =
    .ok (.len265 1, [false]) ∧
  decode (.dsym fixedDTable) ([false, false, true, false, false] ++ [true]) = .ok (.dist4 1, []) ∧
  decode (.dsym fixedDTable) [true, true, true, true, false] = .ok (.dist30, [])

/-- Decoding undoes encoding: every well-formed element, encoded with the books of a static block (and the nineteen
5-bit codes of log entry 14), behind any padding where it has some, and followed by any bits, at least two: the fixed table
looks at 9 bits where its shortest code has 7. -/
def Obligations.DecodeUndoesEncode : Prop :=
  ∀ (i : Instr) (pad bits rest : Bits), wellFormed i = true → encode staticBooks i = some bits → 2 ≤ rest.length →
    (pad = [] ∨ ∃ len nlen, i = .stored len nlen) →
    decode (homeContext pad.length i) (pad ++ (bits ++ rest)) = .ok (i, rest)

/-- In the table of any accepted set of lengths every symbol's canonical code, most significant bit first, decodes to
the symbol and consumes exactly the code. -/
def Obligations.CanonicalCodesDecode : Prop :=
  ∀ (lens : List Nat) (t : Table) (sym : Nat) (rest : Bits), (∀ l ∈ lens, l ≤ 16) → build lens = some t →
    sym < lens.length → lens.getD sym 0 ≠ 0 →
    t.m ≤ (codeBits (lens.getD sym 0) (canonicalCode lens sym) ++ rest).length →
    takeSymbol t (codeBits (lens.getD sym 0) (canonicalCode lens sym) ++ rest) = .ok (sym, rest)

/-! ## Huffman tables -/

/-- R164: an over-subscribed set is refused with `InvalidCodeLengths` before anything is written; any other set is
accepted, its codes fit their lengths and no code is a prefix of another. -/
def Obligations.OnlyOverSubscribedSetsAreRefused : Prop :=
  ∀ (lens : List Nat) (s : State), (∀ l ∈ lens, l ≤ 16) →
    (2 ^ 16 < kraftSum lens → buildTable lens s = .raised .invalidCodeLengths s) ∧
    (kraftSum lens ≤ 2 ^ 16 →
      (∃ t, buildTable lens s = .ok t s) ∧
      (∀ sym, sym < lens.length → lens.getD sym 0 ≠ 0 → canonicalCode lens sym < 2 ^ lens.getD sym 0) ∧
      ∀ a b, a < lens.length → b < lens.length → a ≠ b → lens.getD a 0 ≠ 0 → lens.getD a 0 ≤ lens.getD b 0 →
        canonicalCode lens b / 2 ^ (lens.getD b 0 - lens.getD a 0) ≠ canonicalCode lens a)

/-- R169: what every entry of a built table holds. -/
def Obligations.BuiltEntriesAreTheCanonicalCodes : Prop :=
  ∀ (lens : List Nat) (t : Table), (∀ l ∈ lens, l ≤ 16) → build lens = some t →
    t.ent.length = 2 ^ t.m ∧
    ∀ i, i < 2 ^ t.m →
      (∀ sym len, len ≠ 0 → (t.entry i = ⟨sym, len⟩ ↔
        sym < lens.length ∧ lens.getD sym 0 = len ∧ i % 2 ^ len = revBits len (canonicalCode lens sym))) ∧
      ((t.entry i).len = 0 ↔ ¬ ∃ sym, sym < lens.length ∧ lens.getD sym 0 ≠ 0 ∧
        i % 2 ^ lens.getD sym 0 = revBits (lens.getD sym 0) (canonicalCode lens sym))

/-- R170: how many entries of a built table are unfilled; a complete set leaves none (R171). -/
def Obligations.UnfilledEntriesAreCounted : Prop :=
  ∀ (lens : List Nat) (t : Table), (∀ l ∈ lens, l ≤ 16) → build lens = some t →
    ((List.range (2 ^ t.m)).filter fun i => (t.entry i).len = 0).length = 2 ^ t.m - kraftSum lens / 2 ^ (16 - t.m) ∧
    (kraftSum lens = 2 ^ 16 → ∀ i, i < 2 ^ t.m → (t.entry i).len ≠ 0)

/-! ## The bit cursor -/

/-- R135: `PEEK(n)` in its domain. -/
def Obligations.PeekLooksAhead : Prop :=
  ∀ (s : State), s.CursorInv →
    (∀ n, s.peekable n = true → (n ≤ s.bitcnt ∨ (n - s.bitcnt + 7) / 8 ≤ s.inLen - s.inOff) →
      ∃ v u, peek n s = .ok v u ∧ s.Moved u 0 ∧ v < 2 ^ n ∧ (∀ i, i < n → v.testBit i = s.streamBit (s.pos + i)) ∧
        n ≤ u.bitcnt ∧ (s.bitcnt < n → u.bitcnt < n + 8) ∧ ∀ m, m ≤ u.bitcnt → ∃ w, peek m u = .ok w u) ∧
    (∀ n, s.peekable n = true → ¬ (n ≤ s.bitcnt ∨ (n - s.bitcnt + 7) / 8 ≤ s.inLen - s.inOff) →
      ∃ u, peek n s = .raised .truncatedStream u) ∧
    peek 0 s = .ok 0 s

/-- R140: `TAKE(n)` reads and consumes the next `n` bits, or raises `TruncatedStream` and consumes nothing, exactly when
fewer remain. -/
def Obligations.TakeConsumesTheNextBits : Prop :=
  ∀ (s : State) (n : Nat), s.CursorInv → s.peekable n = true →
    (n ≤ s.bitsLeft → ∃ v u, take n s = .ok v u ∧ s.Moved u n ∧ v < 2 ^ n ∧
      ∀ i, i < n → v.testBit i = s.streamBit (s.pos + i)) ∧
    (s.bitsLeft < n → ∃ u : State, take n s = .raised .truncatedStream u ∧ u.pos = s.pos)

/-- R139: `DISCARD(n)`, and the refusal of bits that were not peeked. -/
def Obligations.DiscardDropsPeekedBits : Prop :=
  ∀ (s : State) (n : Nat),
    (n ≤ s.bitcnt → discard n s = .ok () { s with acc := s.acc >>> n, bitcnt := s.bitcnt - n }) ∧
    (s.bitcnt < n → discard n s = .refused .discardDomain) ∧
    (n ≤ s.bitcnt → s.CursorInv → (s.dropBits n).pos = s.pos + n) ∧
    (s.bitcnt = 32 → (s.dropBits 32).acc = 0 ∧ (s.dropBits 32).bitcnt = 0)

/-- R143, R144: `ALIGN` moves to the next byte boundary, drops fewer than 8 bits, loads nothing and cannot fault. -/
def Obligations.AlignReachesTheNextByte : Prop :=
  ∀ (s : State), s.CursorInv → ∃ u : State, align s = .ok () u ∧ u = { s with acc := u.acc, bitcnt := u.bitcnt } ∧
    u.CursorInv ∧ u.pos % 8 = 0 ∧ s.pos ≤ u.pos ∧ u.pos < s.pos + 8 ∧ u.bitcnt % 8 = 0 ∧ (s.bitcnt % 8 = 0 → u = s)

/-- R146, R148: `READ_RAW(n)` copies, or faults as the closed form says, after `min a b` bytes; outside its domain it is
refused. -/
def Obligations.ReadRawCopiesOrFaults : Prop :=
  ∀ (s : State) (n a b : Nat), s.CursorInv → s.out.wf = true → s.outPos ≤ s.outCap →
    a = s.inLen - (s.inOff - s.bitcnt / 8) → b = s.outCap - s.outPos →
    (s.bitcnt % 8 ≠ 0 → readRaw n s = .refused .readRawDomain) ∧
    (s.bitcnt % 8 = 0 → n ≤ a → n ≤ b →
      ∃ u : State, readRaw n s = .ok () u ∧
        u = { s with acc := 0, bitcnt := 0, inOff := s.inOff - s.bitcnt / 8 + n, outPos := s.outPos + n, out := u.out } ∧
        u.pos = s.pos + 8 * n ∧ u.out.wf = true ∧
        ∀ x, u.out.read x = if s.outPos ≤ x ∧ x < s.outPos + n
          then s.inp.read (s.inOff - s.bitcnt / 8 + (x - s.outPos)) else s.out.read x) ∧
    (s.bitcnt % 8 = 0 → ¬ (n ≤ a ∧ n ≤ b) →
      ∃ u : State, readRaw n s = .raised (if a ≤ b then .truncatedStream else .outputBufferExhausted) u ∧
        u.outPos = s.outPos + min a b)

/-- R173: `DECODE` with a built table: the one symbol whose code comes next, consuming its code alone; else
`TruncatedStream` where the look-ahead is short, else `InvalidSymbol`, consuming nothing. -/
def Obligations.DecodeFindsTheOneCode : Prop :=
  ∀ (s : State) (lens : List Nat) (t : Table), s.CursorInv → (∀ l ∈ lens, l ≤ 16) → build lens = some t →
    (s.bitsLeft < t.m → ∃ u : State, decodeSym t s = .raised .truncatedStream u ∧ u.pos = s.pos) ∧
    (t.m ≤ s.bitsLeft → ∀ sym, sym < lens.length → lens.getD sym 0 ≠ 0 →
      s.streamBits s.pos (lens.getD sym 0) = codeBits (lens.getD sym 0) (canonicalCode lens sym) →
      ∃ u : State, decodeSym t s = .ok sym u ∧ s.Moved u (lens.getD sym 0)) ∧
    (t.m ≤ s.bitsLeft →
      (∀ sym, sym < lens.length → lens.getD sym 0 ≠ 0 →
        s.streamBits s.pos (lens.getD sym 0) ≠ codeBits (lens.getD sym 0) (canonicalCode lens sym)) →
      ∃ u : State, decodeSym t s = .raised .invalidSymbol u ∧ u.pos = s.pos)

/-! ## The copier -/

/-- R354: a copy repeats the bytes before the position cyclically, and changes nothing else (R352). -/
def Obligations.CopyRepeatsCyclically : Prop :=
  ∀ (s : State) (len dist : Nat), s.out.wf = true → 1 ≤ dist → dist ≤ s.outPos → s.outPos + len ≤ s.outCap →
    ∃ u : State, copy len dist s = .ok () u ∧ u = { s with outPos := s.outPos + len, out := u.out } ∧ u.out.wf = true ∧
      s.Copied u len dist

/-- R356 to R358: the distance is tested first and nothing is written when it fails; then the bytes that fit are
copied before the capacity fault; a copy that ends exactly at `OUT_CAP` succeeds. -/
def Obligations.CopyFaultsInOrder : Prop :=
  ∀ (s : State) (len dist : Nat), s.out.wf = true → 1 ≤ dist → s.outPos ≤ s.outCap →
    (s.outPos < dist → copy len dist s = .raised .invalidBackReference s) ∧
    (dist ≤ s.outPos → s.outCap < s.outPos + len →
      ∃ u : State, copy len dist s = .raised .outputBufferExhausted u ∧
        u = { s with outPos := s.outCap, out := u.out } ∧ s.Copied u (s.outCap - s.outPos) dist) ∧
    (dist ≤ s.outPos → s.outPos + len ≤ s.outCap → ∃ u : State, copy len dist s = .ok () u)

/-! ## Headers and stored blocks -/

/-- R195, R196: the zlib header is accepted exactly when the four tests hold; the bytes are recorded. That `CMF` and `FLG`
hold them once the element has ended is the model's choice (log entry 23). -/
def Obligations.ZlibHeaderIsTested : Prop :=
  ∀ (cmf flg : Byte) (s : State),
    ((256 * cmf.toNat + flg.toNat) % 31 = 0 ∧ flg.getLsbD 5 = false ∧ cmf.toNat % 16 = 8 ∧ cmf.toNat / 16 ≤ 7 →
      exec (.zhdr cmf flg) s = .next { s with cmf := cmf, flg := flg, fsm := .awaitingBlockHeader }) ∧
    (¬ ((256 * cmf.toNat + flg.toNat) % 31 = 0 ∧ flg.getLsbD 5 = false ∧ cmf.toNat % 16 = 8 ∧ cmf.toNat / 16 ≤ 7) →
      exec (.zhdr cmf flg) s = .next (s.raise .invalidHeader))

/-- R198, R206: a stored and a dynamic block header record `BFINAL` and `BTYPE` and select the block's body. The field
`dynPhase` is the model's (log entry 9). -/
def Obligations.BlockHeadersSelectTheBody : Prop :=
  ∀ (f : Bool) (s : State),
    exec (.bhdrStored f) s = .next { s with bfinal := f, btype := 0, fsm := .storedBlock } ∧
    exec (.bhdrDyn f) s =
      .next { s with bfinal := f, btype := 2, fsm := .dynamicBlockHeader, dynPhase := .counts }

/-- R205: a static block header selects the fixed tables, built on the first use in a run. -/
def Obligations.StaticHeaderSelectsTheFixedTables : Prop :=
  ∀ (f : Bool) (s : State),
    (s.staticValid = true → exec (.bhdrFixed f) s =
      .next { s with bfinal := f, btype := 1, sel := false, fsm := .symbolLoop }) ∧
    (s.staticValid = false → ∃ ll d, build fixedLLLens = some ll ∧ build fixedDLens = some d ∧
      ll.m = 9 ∧ ll.ent.length = 512 ∧ (∀ i, i < 512 → (ll.entry i).len ≠ 0) ∧
      d.m = 5 ∧ d.ent.length = 32 ∧ (∀ i, i < 32 → (d.entry i).len ≠ 0) ∧
      exec (.bhdrFixed f) s = .next
        { s with bfinal := f, btype := 1, tLlFixed := ll, tDFixed := d, staticValid := true, sel := false, fsm := .symbolLoop })

/-- R207: a reserved block type raises `InvalidBlockType`. -/
def Obligations.ReservedBlockTypeFaults : Prop :=
  ∀ (f : Bool) (s : State), exec (.bhdrRsvd f) s = .next (s.raise .invalidBlockType)

/-- R202, R193: a stored block whose complement matches copies its payload and ends the block. With `BFINAL = 1` the
state is that of the payload's end taken to `Done`: there `LEN`, `NLEN` and every other array, table and transient
register hold any value, and the flags keep theirs, which is the model's reading (log entry 6). With `BFINAL = 0` the
registers of the ended block keep their values, which is the model's choice (log entries 21 to 23). -/
def Obligations.StoredBlockCopiesItsPayload : Prop :=
  ∀ (len nlen : BitVec 16) (s : State), len.toNat + nlen.toNat = 65535 → s.CursorInv → s.bitcnt % 8 = 0 →
    s.out.wf = true → len.toNat ≤ s.inLen - (s.inOff - s.bitcnt / 8) → s.outPos + len.toNat ≤ s.outCap →
    ∃ u : State, u = { s with
        len := len, nlen := nlen, acc := 0, bitcnt := 0, inOff := s.inOff - s.bitcnt / 8 + len.toNat,
        outPos := s.outPos + len.toNat, out := u.out } ∧
      u.out.wf = true ∧
      (∀ x, u.out.read x = if s.outPos ≤ x ∧ x < s.outPos + len.toNat
        then s.inp.read (s.inOff - s.bitcnt / 8 + (x - s.outPos)) else s.out.read x) ∧
      exec (.stored len nlen) s =
        .next (if s.bfinal then u.finished else { u with fsm := .awaitingBlockHeader })

/-- R201, R148: the faults of a stored block: the complement is tested before any payload byte, then the payload faults
as the closed form says. -/
def Obligations.StoredBlockFaultsInOrder : Prop :=
  ∀ (len nlen : BitVec 16) (s : State),
    (len.toNat + nlen.toNat = 65535 ↔ len ^^^ nlen = 0xFFFF) ∧
    (len.toNat + nlen.toNat ≠ 65535 → exec (.stored len nlen) s = .next (s.raise .lengthMismatch)) ∧
    (len.toNat + nlen.toNat = 65535 → s.CursorInv → s.bitcnt % 8 = 0 → s.out.wf = true → s.outPos ≤ s.outCap →
      ∀ a b, a = s.inLen - (s.inOff - s.bitcnt / 8) → b = s.outCap - s.outPos →
        ¬ (len.toNat ≤ a ∧ len.toNat ≤ b) →
        exec (.stored len nlen) s =
          .next (s.raise (if a ≤ b then .truncatedStream else .outputBufferExhausted)))

/-! ## The header of a dynamic block -/

/-- R231, R233, R235: the counts of a dynamic block are recorded and `CLLEN` is cleared, or the counts are out of range.
The fields `dynPhase` and `clIdx` are the model's (log entry 9). -/
def Obligations.CountsAreRangeChecked : Prop :=
  ∀ (hlit hdist hclen : Nat) (s : State),
    (hlit ≤ 286 → hdist ≤ 30 → exec (.dynhdr hlit hdist hclen) s = .next { s with
      hlit := hlit, hdist := hdist, hclen := hclen, cllen := Vector.replicate 19 0, dynPhase := .cllens, clIdx := 0 }) ∧
    (286 < hlit ∨ 30 < hdist → exec (.dynhdr hlit hdist hclen) s = .next (s.raise .invalidCodeLengths))

/-- R232, R233: an entry that is not the last one goes to its place in swizzled order. The field `clIdx` is the model's
(log entry 9). -/
def Obligations.EntriesGoToTheirSwizzledPlace : Prop :=
  ∀ (v : Nat) (s : State), s.clIdx + 1 < s.hclen → s.clIdx < 19 →
    ∃ cllen, s.Swizzled v cllen ∧ exec (.cllen3 v) s = .next { s with cllen := cllen, clIdx := s.clIdx + 1 }

/-- R232 to R234: after the last entry `T_CL` is built and `LIDX` starts at 0, or the set is over-subscribed. The fields
`clIdx` and `dynPhase` are the model's (log entry 9). -/
def Obligations.LastEntryBuildsTCl : Prop :=
  ∀ (v : Nat) (s : State), s.hclen ≤ s.clIdx + 1 → s.clIdx < 19 →
    ∃ cllen, s.Swizzled v cllen ∧
      (kraftSum (cllen.toList.map BitVec.toNat) ≤ 2 ^ 16 →
        ∃ t, build (cllen.toList.map BitVec.toNat) = some t ∧ exec (.cllen3 v) s =
          .next { s with cllen := cllen, clIdx := s.clIdx + 1, tCl := t, lidx := 0, dynPhase := .symbols }) ∧
      (2 ^ 16 < kraftSum (cllen.toList.map BitVec.toNat) →
        exec (.cllen3 v) s = .next (s.raise .invalidCodeLengths))

/-- R238 to R241: a code-length symbol whose run leaves lengths undefined writes its run and moves `LIDX` on. That `REP`
outlasts its element is the model's choice (log entry 23). -/
def Obligations.CodeLengthSymbolsWriteTheirRun : Prop :=
  ∀ (i : Instr) (run : Run) (s : State), s.lengthRun i = some run → s.lidx + run.count < s.hlit + s.hdist →
    ∃ lens, s.Ran run lens ∧
      exec i s = .next { s with rep := run.rep, lens := lens, lidx := s.lidx + run.count }

/-- R238 to R241, R244: the code-length symbol that defines the last length builds the two tables from the two slices, or
finds one of them over-subscribed. That `T_CL`, whose lifetime ends there, keeps its entries is the model's choice (log
entry 22), and so is that `REP` outlasts its element (log entry 23). -/
def Obligations.LastLengthBuildsTheTables : Prop :=
  ∀ (i : Instr) (run : Run) (s : State), s.lengthRun i = some run → s.lidx + run.count = s.hlit + s.hdist →
    ∃ lens, s.Ran run lens ∧
      (kraftSum (lensSlice lens 0 s.hlit) ≤ 2 ^ 16 → kraftSum (lensSlice lens s.hlit s.hdist) ≤ 2 ^ 16 →
        ∃ ll d, build (lensSlice lens 0 s.hlit) = some ll ∧ build (lensSlice lens s.hlit s.hdist) = some d ∧
          exec i s = .next { s with
            rep := run.rep, lens := lens, lidx := s.lidx + run.count, tLl := ll, tD := d, sel := true,
            fsm := .symbolLoop }) ∧
      (2 ^ 16 < kraftSum (lensSlice lens 0 s.hlit) ∨ 2 ^ 16 < kraftSum (lensSlice lens s.hlit s.hdist) →
        exec i s = .next (s.raise .invalidCodeLengths))

/-- R239, R242: a repeat with no previous length, and a repeat that would pass the last length. -/
def Obligations.RunawayRepeatsFault : Prop :=
  ∀ (r : Nat) (s : State),
    (s.lidx = 0 → exec (.clRep r) s = .next (s.raise .invalidCodeLengths)) ∧
    (s.hlit + s.hdist < s.lidx + r →
      exec (.clRep r) s = .next (s.raise .invalidCodeLengths) ∧
      exec (.clZrep3 r) s = .next (s.raise .invalidCodeLengths) ∧
      exec (.clZrep11 r) s = .next (s.raise .invalidCodeLengths))

/-! ## The symbol loop -/

/-- R265: a literal is written at `OUT_POS`, or finds the buffer full; its code in a static block. -/
def Obligations.LiteralIsEmitted : Prop :=
  ∀ (b : Byte) (s : State), s.out.wf = true →
    (s.outPos < s.outCap → ∃ u : State, exec (.lit b) s = .next u ∧
      u = { s with outPos := s.outPos + 1, out := u.out } ∧ u.out.wf = true ∧
      ∀ x, u.out.read x = if x = s.outPos then b else s.out.read x) ∧
    (s.outCap ≤ s.outPos → exec (.lit b) s = .next (s.raise .outputBufferExhausted)) ∧
    encode staticBooks (.lit b) =
      some (if b.toNat ≤ 143 then codeBits 8 (0x30 + b.toNat) else codeBits 9 (0x190 + (b.toNat - 144)))

/-- R193, R194, R266: the end of a block, and its code in a static block. That the flags outlast the run, and that
arrays, tables and transient registers do not, is the model's reading (log entry 6); that the tables and registers of a
block outlast it where the run goes on is its choice (log entries 21 to 23). -/
def Obligations.EndOfBlockReturnsOrFinishes : Prop :=
  ∀ (s : State),
    (s.bfinal = false → exec .eob s = .next { s with fsm := .awaitingBlockHeader }) ∧
    (s.bfinal = true → ∃ t : State, exec .eob s = .next t ∧ t.fsm = .done ∧ t.isDone = true ∧ t.busy = false ∧
      t.bytesWritten = s.outPos ∧ t.errCode = 0 ∧ t.out = s.out ∧ t.outPos = s.outPos ∧ t.acc = s.acc ∧
      t.bitcnt = s.bitcnt ∧ t.inOff = s.inOff ∧ t.bfinal = s.bfinal ∧ t.staticValid = s.staticValid ∧ t.sel = s.sel ∧
      t.inLen = s.inLen ∧ t.outCap = s.outCap ∧ t.zlib = s.zlib ∧ t.inp = s.inp ∧ t = s.finished) ∧
    encode staticBooks .eob = some [false, false, false, false, false, false, false]

/-- R267: a length symbol whose distance symbol comes next in the stream, whose distance is in range and whose bytes
fit, copies: `LEN_257` to `LEN_285`. That the registers of the pair are left at its values is the model's choice (log
entry 23). -/
def Obligations.LengthPairsCopy : Prop :=
  ∀ (i j : Instr) (len dist : Row) (s : State) (rest : Bits), lengthRow i = some len → s.CursorInv →
    Table.Decodable s.td → s.out.wf = true → decode (.dsym s.td) s.remaining = .ok (j, rest) →
    distanceRow j = some dist → dist.value ≤ s.outPos → s.outPos + len.value ≤ s.outCap →
    ∃ t : State, exec i s = .next t ∧
      t = { s with
        mlen := len.value, dsym := dist.sym, mdist := dist.value, acc := t.acc, bitcnt := t.bitcnt, inOff := t.inOff,
        outPos := s.outPos + len.value, out := t.out } ∧
      t.CursorInv ∧ t.remaining = rest ∧ t.out.wf = true ∧ s.Copied t len.value dist.value

/-- R335: the faults of a pair, first one first: the stream ends within the pair; no code or a reserved distance
symbol; a distance that is too far; no room. -/
def Obligations.LengthPairsFaultInOrder : Prop :=
  ∀ (i : Instr) (len : Row) (s : State), lengthRow i = some len → s.CursorInv → Table.Decodable s.td →
    s.out.wf = true → s.outPos ≤ s.outCap →
    (decode (.dsym s.td) s.remaining = .error .truncated → exec i s = .next (s.raise .truncatedStream)) ∧
    (decode (.dsym s.td) s.remaining = .error .unfilled → exec i s = .next (s.raise .invalidSymbol)) ∧
    (∀ rest, decode (.dsym s.td) s.remaining = .ok (.dist30, rest) ∨
        decode (.dsym s.td) s.remaining = .ok (.dist31, rest) → exec i s = .next (s.raise .invalidSymbol)) ∧
    (∀ j dist rest, decode (.dsym s.td) s.remaining = .ok (j, rest) → distanceRow j = some dist →
      (s.outPos < dist.value → exec i s = .next (s.raise .invalidBackReference)) ∧
      (dist.value ≤ s.outPos → s.outCap < s.outPos + len.value → exec i s = .next (s.raise .outputBufferExhausted)))

/-- R301, R352: a distance symbol inside its pair records the distance and copies `MLEN` bytes: `DIST_0` to
`DIST_29`. That `MDIST` and `MLEN` hold their values after the pair is the model's choice (log entry 23). -/
def Obligations.DistanceSymbolsCopy : Prop :=
  ∀ (j : Instr) (dist : Row) (s : State), distanceRow j = some dist → s.out.wf = true →
    (dist.value ≤ s.outPos → s.outPos + s.mlen ≤ s.outCap →
      ∃ t : State, exec j s = .next t ∧
        t = { s with mdist := dist.value, outPos := s.outPos + s.mlen, out := t.out } ∧ t.out.wf = true ∧
        s.Copied t s.mlen dist.value) ∧
    (s.outPos < dist.value → exec j s = .next (s.raise .invalidBackReference)) ∧
    (dist.value ≤ s.outPos → s.outPos ≤ s.outCap → s.outCap < s.outPos + s.mlen →
      exec j s = .next (s.raise .outputBufferExhausted))

/-- R299, R300, R333, R334: the reserved symbols raise `InvalidSymbol`. -/
def Obligations.ReservedSymbolsFault : Prop :=
  ∀ (s : State), exec .ll286 s = .next (s.raise .invalidSymbol) ∧ exec .ll287 s = .next (s.raise .invalidSymbol) ∧
    exec .dist30 s = .next (s.raise .invalidSymbol) ∧ exec .dist31 s = .next (s.raise .invalidSymbol)

/-! ## The step -/

/-- A step runs the element the decoder reads from the bits that remain, at the position behind it (R104, R191). -/
def Obligations.StepRunsTheDecodedElement : Prop :=
  ∀ (s : State) (c : Context) (i : Instr) (rest : Bits), s.Inv → s.Quiet → s.context = some c →
    decode c s.remaining = .ok (i, rest) →
    ∃ u : State, step s = exec i u ∧
      u = { s with acc := u.acc, bitcnt := u.bitcnt, inOff := u.inOff, sym := s.symAfter i } ∧
      u.CursorInv ∧ u.remaining = rest

/-- Where the decoder finds no element the step faults, `TruncatedStream` before `InvalidSymbol` (R134, R173); the one
exception is `CL.REP` with no previous length, which raises `InvalidCodeLengths` although its extra bits are missing,
since it faults before they are read (R239). -/
def Obligations.StepFaultsWhereTheDecoderRejects : Prop :=
  ∀ (s : State) (c : Context), s.Inv → s.Quiet → s.context = some c →
    decode c s.remaining ≠ .error .outsideAlphabet ∧
    (decode c s.remaining = .error .unfilled → step s = .next (s.raise .invalidSymbol)) ∧
    (decode c s.remaining = .error .truncated →
      (c = .clsym s.tCl ∧ s.RepeatsNothing → step s = .next (s.raise .invalidCodeLengths)) ∧
      (¬ (c = .clsym s.tCl ∧ s.RepeatsNothing) → step s = .next (s.raise .truncatedStream)))

/-- R382, R390, R411: `Idle`, `Done` and `Failed` keep their state until `rst` or launch. -/
def Obligations.TerminalStatesPersist : Prop :=
  ∀ (s : State), s.Quiet → s.fsm = .idle ∨ s.fsm = .done ∨ s.fsm = .failed →
    step s = .next s ∧ s.busy = false ∧ s.isDone = decide (s.fsm = .done) ∧ s.isErr = decide (s.fsm = .failed)

/-- R412, R43: launch samples the arguments and clears the registers, whatever the previous run left, and is ignored
while the block is busy; the arguments keep the premise of R9 and R413. -/
def Obligations.LaunchStartsAFreshRun : Prop :=
  ∀ (s : State), s.pins.rst = false → s.pins.start = true →
    (s.busy = true → step s = element s) ∧
    (s.busy = false → s.pins.inLen < 2 ^ Config.aw → s.pins.outCap < 2 ^ Config.aw →
      ∃ t : State, step s = .next t ∧ t.fsm = (if s.pins.zlib then .zlibHeader else .awaitingBlockHeader) ∧
        t.inLen = s.pins.inLen ∧ t.outCap = s.pins.outCap ∧ t.zlib = s.pins.zlib ∧ t.acc = 0 ∧ t.bitcnt = 0 ∧
        t.inOff = 0 ∧ t.outPos = 0 ∧ t.bfinal = false ∧ t.staticValid = false ∧ t.sel = false ∧ t.bytesWritten = 0 ∧
        t.errCode = 0 ∧ t.pos = 0 ∧ t.busy = true ∧ t.out = s.out ∧ t.inp = s.inp)

/-- A launch that breaks the premise of R9 and R413 item 5 on its arguments is refused; that the model stops there is
its choice (log entry 4). -/
def Obligations.LaunchesThatDoNotFitAreRefused : Prop :=
  ∀ (s : State), s.pins.rst = false → s.pins.start = true → s.busy = false →
    2 ^ Config.aw ≤ s.pins.inLen ∨ 2 ^ Config.aw ≤ s.pins.outCap → step s = .refused .launchPremise

/-- R410: reset, from every state and also when launch is asserted with it. That `OUT` stays as it is when no run is
abandoned is the model's reading of R410 (log entry 7). -/
def Obligations.ResetWinsAlways : Prop :=
  ∀ (s : State), s.pins.rst = true → s.out.wf = true →
    ∃ t : State, step s = .next t ∧ t.fsm = .idle ∧ t.acc = 0 ∧ t.bitcnt = 0 ∧ t.inOff = 0 ∧ t.outPos = 0 ∧ t.bfinal = false ∧
      t.staticValid = false ∧ t.sel = false ∧ t.inLen = 0 ∧ t.outCap = 0 ∧ t.zlib = false ∧ t.bytesWritten = 0 ∧
      t.errCode = 0 ∧ t.inp = s.inp ∧ t.busy = false ∧
      (s.busy = false → t.out = s.out) ∧ ∀ x, s.outCap ≤ x → t.out.read x = s.out.read x

/-- R43: the registers the spec gives a reset value hold it in the state after reset. -/
def Obligations.ResetStateHoldsTheResetValues : Prop :=
  State.reset.fsm = .idle ∧ State.reset.acc = 0 ∧ State.reset.bitcnt = 0 ∧ State.reset.inOff = 0 ∧
    State.reset.outPos = 0 ∧ State.reset.bfinal = false ∧ State.reset.staticValid = false ∧ State.reset.sel = false ∧
    State.reset.inLen = 0 ∧ State.reset.outCap = 0 ∧ State.reset.zlib = false ∧ State.reset.bytesWritten = 0 ∧
    State.reset.errCode = 0 ∧ State.reset.busy = false ∧ State.reset.isDone = false ∧ State.reset.isErr = false ∧
    State.reset.pos = 0

/-! ## Taking a fault -/

/-- R371, R375, R376: the state at `Failed`, for every fault kind and from every state: the code of the kind, the status
outputs, and what a fault leaves alone (`IN`, `OUT` at and above `OUT_CAP`). -/
def Obligations.FaultEntryDefinesCodeAndStatus : Prop :=
  ∀ (k : FaultKind) (s : State), s.out.wf = true →
    (s.raise k).fsm = .failed ∧ (s.raise k).isErr = true ∧ (s.raise k).isDone = false ∧ (s.raise k).busy = false ∧
    (s.raise k).errCode.toNat = (match k with
      | .invalidHeader => 1
      | .truncatedStream => 2
      | .lengthMismatch => 3
      | .invalidBlockType => 4
      | .invalidBackReference => 5
      | .outputBufferExhausted => 6
      | .invalidCodeLengths => 7
      | .invalidSymbol => 8) ∧
    (s.raise k).inp = s.inp ∧
    ∀ x, s.outCap ≤ x → (s.raise k).out.read x = s.out.read x

/-- R373: a fault records its code and nothing else. From two states that differ in any register of the cursor, the
dispatcher, the arrays, the tables and the results, and in `OUT` below `OUT_CAP`, any two kinds lead to one state but for
`ERR_CODE`. What the two states have in common is what a fault leaves alone: the spaces, the input signals, the launch
arguments (log entry 12), and the place in the supply of free values (log entry 5). -/
def Obligations.FaultsRecordOnlyTheirCode : Prop :=
  ∀ (k k' : FaultKind) (s s' : State), s.out.wf = true → s'.out.wf = true → s'.inLen = s.inLen →
    s'.outCap = s.outCap → s'.zlib = s.zlib → s'.inp = s.inp → s'.pins = s.pins → s'.draw = s.draw →
    (∀ x, s.outCap ≤ x → s'.out.read x = s.out.read x) →
    s'.raise k' = { s.raise k with errCode := k'.code }

/-! ## Whole-machine rules -/

/-- The invariant holds after reset. -/
def Obligations.ResetStateIsGood : Prop := State.reset.Inv

/-- The invariant is kept by every step from every state in which it holds. -/
def Obligations.StepKeepsTheInvariant : Prop := ∀ (s t : State), s.Inv → step s = .next t → t.Inv

/-- In a good state, with launch arguments that fit, a step never stops. -/
def Obligations.GoodStatesStep : Prop := ∀ (s : State), s.Inv → s.LaunchPremise → ∃ t : State, step s = .next t

/-- R69: no step from any state touches an address that does not exist. -/
def Obligations.NoAccessLeavesItsBuffer : Prop := ∀ (s : State) (r : Fault), step s ≠ .fault r

/-- R421, R75: no step writes `IN`. -/
def Obligations.InputIsNeverWritten : Prop := ∀ (s t : State), step s = .next t → t.inp = s.inp

/-- R69, R376: `OUT` at and above `OUT_CAP` is never written, fault or not. -/
def Obligations.OutputAboveCapacityIsNeverWritten : Prop :=
  ∀ (s t : State), s.out.wf = true → step s = .next t → ∀ x, s.outCap ≤ x → t.out.read x = s.out.read x

/-- R72, R25: within a run `OUT_POS` never decreases and stays within the buffer, and every byte written lies between
its old and its new value. -/
def Obligations.OutputGrowsForward : Prop :=
  ∀ (s t : State), s.Inv → s.pins.rst = false → s.busy = true → step s = .next t → t.fsm ≠ .failed →
    s.outPos ≤ t.outPos ∧ t.outPos ≤ t.outCap ∧ ∀ x, x < s.outPos ∨ t.outPos ≤ x → t.out.read x = s.out.read x

/-- R27, R391: within a run the stream position never decreases, never passes the end of `IN`, and every element that
raises nothing consumes at least one bit. -/
def Obligations.PositionMovesOn : Prop :=
  ∀ (s t : State), s.Inv → s.pins.rst = false → s.busy = true → s.fsm ≠ .staticBlock → step s = .next t →
    t.fsm ≠ .failed → s.pos < t.pos ∧ t.pos ≤ 8 * t.inLen

/-- R191: the transitions of the dispatcher, and no other. -/
def Obligations.DispatcherFollowsTheGrammar : Prop :=
  ∀ (s t : State), step s = .next t →
    (s.pins.rst = true → t.fsm = .idle) ∧
    (s.pins.rst = false → s.pins.start = true → s.busy = false →
      t.fsm = if s.pins.zlib then .zlibHeader else .awaitingBlockHeader) ∧
    (s.pins.rst = false → s.pins.start = false ∨ s.busy = true →
      t.fsm ∈ s.fsm.successors ∧
      (s.fsm = .storedBlock ∨ s.fsm = .symbolLoop →
        (t.fsm = .done → s.bfinal = true) ∧ (t.fsm = .awaitingBlockHeader → s.bfinal = false)))

/-- R30: the launch arguments do not change within a run; that they also outlast a fault is the model's choice (log
entry 12), and so is that no step drives the input signals (log entry 8). -/
def Obligations.LaunchArgumentsAreConstant : Prop :=
  ∀ (s t : State), s.pins.rst = false → s.pins.start = false ∨ s.busy = true → step s = .next t →
    t.inLen = s.inLen ∧ t.outCap = s.outCap ∧ t.zlib = s.zlib ∧ t.pins = s.pins

/-- R377, R412, R353: what a run does is a function of the launch alone. Two launches with the same `IN` and the same
arguments, from blocks whose earlier runs, scratch registers and `OUT` differ in any way, agree after every number of
elements: on the dispatcher state, the code, and, unless they failed, the cursor, the position and every byte
written. That they agree on `BYTES_WRITTEN` before `Done` is the model's choice (log entry 21). -/
def Obligations.RunsDependOnTheLaunchAlone : Prop :=
  ∀ (s s' t t' u u' : State) (k : Nat), s.pins.rst = false → s.pins.start = true → s.busy = false → s'.busy = false →
    s'.pins = s.pins → s'.inp = s.inp → s.out.wf = true → s'.out.wf = true →
    step s = .next t → step s' = .next t' →
    Steps k { t with pins := { t.pins with start := false } } u →
    Steps k { t' with pins := { t'.pins with start := false } } u' →
    u.fsm = u'.fsm ∧ u.errCode = u'.errCode ∧
      (u.fsm ≠ .failed → u.acc = u'.acc ∧ u.bitcnt = u'.bitcnt ∧ u.inOff = u'.inOff ∧ u.outPos = u'.outPos ∧
        u.bytesWritten = u'.bytesWritten ∧ ∀ x, x < u.outPos → u.out.read x = u'.out.read x)

/-- R391: every run reaches `Done` or `Failed`, within a number of elements bounded by the bits that are left. -/
def Obligations.EveryRunEnds : Prop :=
  ∀ (s : State), s.Inv → s.Quiet → s.busy = true →
    ∃ (k : Nat) (t : State), k ≤ s.bitsLeft + 2 ∧ Steps k s t ∧ (t.fsm = .done ∨ t.fsm = .failed)

/-- Memory stays data in canonical form: equal contents are equal lists, and a write that changes no byte changes
nothing. -/
def Obligations.EqualMemoriesAreEqualData : Prop :=
  ∀ (m n : Memory), m.wf = true → n.wf = true → (∀ x, m.read x = n.read x) →
    m = n ∧ ∀ a, m.write a (m.read a) = m
end

