-- ==== Sys2Proof/Laws/State.lean ====
section
/-! SUPPORT. One lemma per field per named update of the state, so that no later proof unfolds a record update. The
free values of `State.freeScratch` and `State.raise` get no lemma: nothing is known of them. -/

namespace Sys2Proof.Machine

/-! ### `State.pushByte` -/

@[simp] theorem State.pushByte_acc (b : Byte) (s : State) : (s.pushByte b).acc = s.acc ||| (b.setWidth 32 <<< s.bitcnt) := rfl
@[simp] theorem State.pushByte_bitcnt (b : Byte) (s : State) : (s.pushByte b).bitcnt = s.bitcnt + 8 := rfl
@[simp] theorem State.pushByte_inOff (b : Byte) (s : State) : (s.pushByte b).inOff = s.inOff + 1 := rfl
@[simp] theorem State.pushByte_outPos (b : Byte) (s : State) : (s.pushByte b).outPos = s.outPos := rfl
@[simp] theorem State.pushByte_fsm (b : Byte) (s : State) : (s.pushByte b).fsm = s.fsm := rfl
@[simp] theorem State.pushByte_bfinal (b : Byte) (s : State) : (s.pushByte b).bfinal = s.bfinal := rfl
@[simp] theorem State.pushByte_staticValid (b : Byte) (s : State) : (s.pushByte b).staticValid = s.staticValid := rfl
@[simp] theorem State.pushByte_sel (b : Byte) (s : State) : (s.pushByte b).sel = s.sel := rfl
@[simp] theorem State.pushByte_inLen (b : Byte) (s : State) : (s.pushByte b).inLen = s.inLen := rfl
@[simp] theorem State.pushByte_outCap (b : Byte) (s : State) : (s.pushByte b).outCap = s.outCap := rfl
@[simp] theorem State.pushByte_zlib (b : Byte) (s : State) : (s.pushByte b).zlib = s.zlib := rfl
@[simp] theorem State.pushByte_bytesWritten (b : Byte) (s : State) : (s.pushByte b).bytesWritten = s.bytesWritten := rfl
@[simp] theorem State.pushByte_errCode (b : Byte) (s : State) : (s.pushByte b).errCode = s.errCode := rfl
@[simp] theorem State.pushByte_cllen (b : Byte) (s : State) : (s.pushByte b).cllen = s.cllen := rfl
@[simp] theorem State.pushByte_lens (b : Byte) (s : State) : (s.pushByte b).lens = s.lens := rfl
@[simp] theorem State.pushByte_tCl (b : Byte) (s : State) : (s.pushByte b).tCl = s.tCl := rfl
@[simp] theorem State.pushByte_tLl (b : Byte) (s : State) : (s.pushByte b).tLl = s.tLl := rfl
@[simp] theorem State.pushByte_tD (b : Byte) (s : State) : (s.pushByte b).tD = s.tD := rfl
@[simp] theorem State.pushByte_tLlFixed (b : Byte) (s : State) : (s.pushByte b).tLlFixed = s.tLlFixed := rfl
@[simp] theorem State.pushByte_tDFixed (b : Byte) (s : State) : (s.pushByte b).tDFixed = s.tDFixed := rfl
@[simp] theorem State.pushByte_cmf (b : Byte) (s : State) : (s.pushByte b).cmf = s.cmf := rfl
@[simp] theorem State.pushByte_flg (b : Byte) (s : State) : (s.pushByte b).flg = s.flg := rfl
@[simp] theorem State.pushByte_btype (b : Byte) (s : State) : (s.pushByte b).btype = s.btype := rfl
@[simp] theorem State.pushByte_len (b : Byte) (s : State) : (s.pushByte b).len = s.len := rfl
@[simp] theorem State.pushByte_nlen (b : Byte) (s : State) : (s.pushByte b).nlen = s.nlen := rfl
@[simp] theorem State.pushByte_hlit (b : Byte) (s : State) : (s.pushByte b).hlit = s.hlit := rfl
@[simp] theorem State.pushByte_hdist (b : Byte) (s : State) : (s.pushByte b).hdist = s.hdist := rfl
@[simp] theorem State.pushByte_hclen (b : Byte) (s : State) : (s.pushByte b).hclen = s.hclen := rfl
@[simp] theorem State.pushByte_lidx (b : Byte) (s : State) : (s.pushByte b).lidx = s.lidx := rfl
@[simp] theorem State.pushByte_rep (b : Byte) (s : State) : (s.pushByte b).rep = s.rep := rfl
@[simp] theorem State.pushByte_sym (b : Byte) (s : State) : (s.pushByte b).sym = s.sym := rfl
@[simp] theorem State.pushByte_dsym (b : Byte) (s : State) : (s.pushByte b).dsym = s.dsym := rfl
@[simp] theorem State.pushByte_mlen (b : Byte) (s : State) : (s.pushByte b).mlen = s.mlen := rfl
@[simp] theorem State.pushByte_mdist (b : Byte) (s : State) : (s.pushByte b).mdist = s.mdist := rfl
@[simp] theorem State.pushByte_dynPhase (b : Byte) (s : State) : (s.pushByte b).dynPhase = s.dynPhase := rfl
@[simp] theorem State.pushByte_clIdx (b : Byte) (s : State) : (s.pushByte b).clIdx = s.clIdx := rfl
@[simp] theorem State.pushByte_inp (b : Byte) (s : State) : (s.pushByte b).inp = s.inp := rfl
@[simp] theorem State.pushByte_out (b : Byte) (s : State) : (s.pushByte b).out = s.out := rfl
@[simp] theorem State.pushByte_pins (b : Byte) (s : State) : (s.pushByte b).pins = s.pins := rfl
@[simp] theorem State.pushByte_draw (b : Byte) (s : State) : (s.pushByte b).draw = s.draw := rfl

/-! ### `State.dropBits` -/

@[simp] theorem State.dropBits_acc (n : Nat) (s : State) : (s.dropBits n).acc = s.acc >>> n := rfl
@[simp] theorem State.dropBits_bitcnt (n : Nat) (s : State) : (s.dropBits n).bitcnt = s.bitcnt - n := rfl
@[simp] theorem State.dropBits_inOff (n : Nat) (s : State) : (s.dropBits n).inOff = s.inOff := rfl
@[simp] theorem State.dropBits_outPos (n : Nat) (s : State) : (s.dropBits n).outPos = s.outPos := rfl
@[simp] theorem State.dropBits_fsm (n : Nat) (s : State) : (s.dropBits n).fsm = s.fsm := rfl
@[simp] theorem State.dropBits_bfinal (n : Nat) (s : State) : (s.dropBits n).bfinal = s.bfinal := rfl
@[simp] theorem State.dropBits_staticValid (n : Nat) (s : State) : (s.dropBits n).staticValid = s.staticValid := rfl
@[simp] theorem State.dropBits_sel (n : Nat) (s : State) : (s.dropBits n).sel = s.sel := rfl
@[simp] theorem State.dropBits_inLen (n : Nat) (s : State) : (s.dropBits n).inLen = s.inLen := rfl
@[simp] theorem State.dropBits_outCap (n : Nat) (s : State) : (s.dropBits n).outCap = s.outCap := rfl
@[simp] theorem State.dropBits_zlib (n : Nat) (s : State) : (s.dropBits n).zlib = s.zlib := rfl
@[simp] theorem State.dropBits_bytesWritten (n : Nat) (s : State) : (s.dropBits n).bytesWritten = s.bytesWritten := rfl
@[simp] theorem State.dropBits_errCode (n : Nat) (s : State) : (s.dropBits n).errCode = s.errCode := rfl
@[simp] theorem State.dropBits_cllen (n : Nat) (s : State) : (s.dropBits n).cllen = s.cllen := rfl
@[simp] theorem State.dropBits_lens (n : Nat) (s : State) : (s.dropBits n).lens = s.lens := rfl
@[simp] theorem State.dropBits_tCl (n : Nat) (s : State) : (s.dropBits n).tCl = s.tCl := rfl
@[simp] theorem State.dropBits_tLl (n : Nat) (s : State) : (s.dropBits n).tLl = s.tLl := rfl
@[simp] theorem State.dropBits_tD (n : Nat) (s : State) : (s.dropBits n).tD = s.tD := rfl
@[simp] theorem State.dropBits_tLlFixed (n : Nat) (s : State) : (s.dropBits n).tLlFixed = s.tLlFixed := rfl
@[simp] theorem State.dropBits_tDFixed (n : Nat) (s : State) : (s.dropBits n).tDFixed = s.tDFixed := rfl
@[simp] theorem State.dropBits_cmf (n : Nat) (s : State) : (s.dropBits n).cmf = s.cmf := rfl
@[simp] theorem State.dropBits_flg (n : Nat) (s : State) : (s.dropBits n).flg = s.flg := rfl
@[simp] theorem State.dropBits_btype (n : Nat) (s : State) : (s.dropBits n).btype = s.btype := rfl
@[simp] theorem State.dropBits_len (n : Nat) (s : State) : (s.dropBits n).len = s.len := rfl
@[simp] theorem State.dropBits_nlen (n : Nat) (s : State) : (s.dropBits n).nlen = s.nlen := rfl
@[simp] theorem State.dropBits_hlit (n : Nat) (s : State) : (s.dropBits n).hlit = s.hlit := rfl
@[simp] theorem State.dropBits_hdist (n : Nat) (s : State) : (s.dropBits n).hdist = s.hdist := rfl
@[simp] theorem State.dropBits_hclen (n : Nat) (s : State) : (s.dropBits n).hclen = s.hclen := rfl
@[simp] theorem State.dropBits_lidx (n : Nat) (s : State) : (s.dropBits n).lidx = s.lidx := rfl
@[simp] theorem State.dropBits_rep (n : Nat) (s : State) : (s.dropBits n).rep = s.rep := rfl
@[simp] theorem State.dropBits_sym (n : Nat) (s : State) : (s.dropBits n).sym = s.sym := rfl
@[simp] theorem State.dropBits_dsym (n : Nat) (s : State) : (s.dropBits n).dsym = s.dsym := rfl
@[simp] theorem State.dropBits_mlen (n : Nat) (s : State) : (s.dropBits n).mlen = s.mlen := rfl
@[simp] theorem State.dropBits_mdist (n : Nat) (s : State) : (s.dropBits n).mdist = s.mdist := rfl
@[simp] theorem State.dropBits_dynPhase (n : Nat) (s : State) : (s.dropBits n).dynPhase = s.dynPhase := rfl
@[simp] theorem State.dropBits_clIdx (n : Nat) (s : State) : (s.dropBits n).clIdx = s.clIdx := rfl
@[simp] theorem State.dropBits_inp (n : Nat) (s : State) : (s.dropBits n).inp = s.inp := rfl
@[simp] theorem State.dropBits_out (n : Nat) (s : State) : (s.dropBits n).out = s.out := rfl
@[simp] theorem State.dropBits_pins (n : Nat) (s : State) : (s.dropBits n).pins = s.pins := rfl
@[simp] theorem State.dropBits_draw (n : Nat) (s : State) : (s.dropBits n).draw = s.draw := rfl

/-! ### `State.giveBack` -/

@[simp] theorem State.giveBack_acc (s : State) : (s.giveBack).acc = 0 := rfl
@[simp] theorem State.giveBack_bitcnt (s : State) : (s.giveBack).bitcnt = 0 := rfl
@[simp] theorem State.giveBack_inOff (s : State) : (s.giveBack).inOff = s.inOff - s.bitcnt / 8 := rfl
@[simp] theorem State.giveBack_outPos (s : State) : (s.giveBack).outPos = s.outPos := rfl
@[simp] theorem State.giveBack_fsm (s : State) : (s.giveBack).fsm = s.fsm := rfl
@[simp] theorem State.giveBack_bfinal (s : State) : (s.giveBack).bfinal = s.bfinal := rfl
@[simp] theorem State.giveBack_staticValid (s : State) : (s.giveBack).staticValid = s.staticValid := rfl
@[simp] theorem State.giveBack_sel (s : State) : (s.giveBack).sel = s.sel := rfl
@[simp] theorem State.giveBack_inLen (s : State) : (s.giveBack).inLen = s.inLen := rfl
@[simp] theorem State.giveBack_outCap (s : State) : (s.giveBack).outCap = s.outCap := rfl
@[simp] theorem State.giveBack_zlib (s : State) : (s.giveBack).zlib = s.zlib := rfl
@[simp] theorem State.giveBack_bytesWritten (s : State) : (s.giveBack).bytesWritten = s.bytesWritten := rfl
@[simp] theorem State.giveBack_errCode (s : State) : (s.giveBack).errCode = s.errCode := rfl
@[simp] theorem State.giveBack_cllen (s : State) : (s.giveBack).cllen = s.cllen := rfl
@[simp] theorem State.giveBack_lens (s : State) : (s.giveBack).lens = s.lens := rfl
@[simp] theorem State.giveBack_tCl (s : State) : (s.giveBack).tCl = s.tCl := rfl
@[simp] theorem State.giveBack_tLl (s : State) : (s.giveBack).tLl = s.tLl := rfl
@[simp] theorem State.giveBack_tD (s : State) : (s.giveBack).tD = s.tD := rfl
@[simp] theorem State.giveBack_tLlFixed (s : State) : (s.giveBack).tLlFixed = s.tLlFixed := rfl
@[simp] theorem State.giveBack_tDFixed (s : State) : (s.giveBack).tDFixed = s.tDFixed := rfl
@[simp] theorem State.giveBack_cmf (s : State) : (s.giveBack).cmf = s.cmf := rfl
@[simp] theorem State.giveBack_flg (s : State) : (s.giveBack).flg = s.flg := rfl
@[simp] theorem State.giveBack_btype (s : State) : (s.giveBack).btype = s.btype := rfl
@[simp] theorem State.giveBack_len (s : State) : (s.giveBack).len = s.len := rfl
@[simp] theorem State.giveBack_nlen (s : State) : (s.giveBack).nlen = s.nlen := rfl
@[simp] theorem State.giveBack_hlit (s : State) : (s.giveBack).hlit = s.hlit := rfl
@[simp] theorem State.giveBack_hdist (s : State) : (s.giveBack).hdist = s.hdist := rfl
@[simp] theorem State.giveBack_hclen (s : State) : (s.giveBack).hclen = s.hclen := rfl
@[simp] theorem State.giveBack_lidx (s : State) : (s.giveBack).lidx = s.lidx := rfl
@[simp] theorem State.giveBack_rep (s : State) : (s.giveBack).rep = s.rep := rfl
@[simp] theorem State.giveBack_sym (s : State) : (s.giveBack).sym = s.sym := rfl
@[simp] theorem State.giveBack_dsym (s : State) : (s.giveBack).dsym = s.dsym := rfl
@[simp] theorem State.giveBack_mlen (s : State) : (s.giveBack).mlen = s.mlen := rfl
@[simp] theorem State.giveBack_mdist (s : State) : (s.giveBack).mdist = s.mdist := rfl
@[simp] theorem State.giveBack_dynPhase (s : State) : (s.giveBack).dynPhase = s.dynPhase := rfl
@[simp] theorem State.giveBack_clIdx (s : State) : (s.giveBack).clIdx = s.clIdx := rfl
@[simp] theorem State.giveBack_inp (s : State) : (s.giveBack).inp = s.inp := rfl
@[simp] theorem State.giveBack_out (s : State) : (s.giveBack).out = s.out := rfl
@[simp] theorem State.giveBack_pins (s : State) : (s.giveBack).pins = s.pins := rfl
@[simp] theorem State.giveBack_draw (s : State) : (s.giveBack).draw = s.draw := rfl

/-! ### `State.withHeader` -/

@[simp] theorem State.withHeader_acc (f : Bool) (t : BitVec 2) (s : State) : (s.withHeader f t).acc = s.acc := rfl
@[simp] theorem State.withHeader_bitcnt (f : Bool) (t : BitVec 2) (s : State) : (s.withHeader f t).bitcnt = s.bitcnt := rfl
@[simp] theorem State.withHeader_inOff (f : Bool) (t : BitVec 2) (s : State) : (s.withHeader f t).inOff = s.inOff := rfl
@[simp] theorem State.withHeader_outPos (f : Bool) (t : BitVec 2) (s : State) : (s.withHeader f t).outPos = s.outPos := rfl
@[simp] theorem State.withHeader_fsm (f : Bool) (t : BitVec 2) (s : State) : (s.withHeader f t).fsm = s.fsm := rfl
@[simp] theorem State.withHeader_bfinal (f : Bool) (t : BitVec 2) (s : State) : (s.withHeader f t).bfinal = f := rfl
@[simp] theorem State.withHeader_staticValid (f : Bool) (t : BitVec 2) (s : State) : (s.withHeader f t).staticValid = s.staticValid := rfl
@[simp] theorem State.withHeader_sel (f : Bool) (t : BitVec 2) (s : State) : (s.withHeader f t).sel = s.sel := rfl
@[simp] theorem State.withHeader_inLen (f : Bool) (t : BitVec 2) (s : State) : (s.withHeader f t).inLen = s.inLen := rfl
@[simp] theorem State.withHeader_outCap (f : Bool) (t : BitVec 2) (s : State) : (s.withHeader f t).outCap = s.outCap := rfl
@[simp] theorem State.withHeader_zlib (f : Bool) (t : BitVec 2) (s : State) : (s.withHeader f t).zlib = s.zlib := rfl
@[simp] theorem State.withHeader_bytesWritten (f : Bool) (t : BitVec 2) (s : State) : (s.withHeader f t).bytesWritten = s.bytesWritten := rfl
@[simp] theorem State.withHeader_errCode (f : Bool) (t : BitVec 2) (s : State) : (s.withHeader f t).errCode = s.errCode := rfl
@[simp] theorem State.withHeader_cllen (f : Bool) (t : BitVec 2) (s : State) : (s.withHeader f t).cllen = s.cllen := rfl
@[simp] theorem State.withHeader_lens (f : Bool) (t : BitVec 2) (s : State) : (s.withHeader f t).lens = s.lens := rfl
@[simp] theorem State.withHeader_tCl (f : Bool) (t : BitVec 2) (s : State) : (s.withHeader f t).tCl = s.tCl := rfl
@[simp] theorem State.withHeader_tLl (f : Bool) (t : BitVec 2) (s : State) : (s.withHeader f t).tLl = s.tLl := rfl
@[simp] theorem State.withHeader_tD (f : Bool) (t : BitVec 2) (s : State) : (s.withHeader f t).tD = s.tD := rfl
@[simp] theorem State.withHeader_tLlFixed (f : Bool) (t : BitVec 2) (s : State) : (s.withHeader f t).tLlFixed = s.tLlFixed := rfl
@[simp] theorem State.withHeader_tDFixed (f : Bool) (t : BitVec 2) (s : State) : (s.withHeader f t).tDFixed = s.tDFixed := rfl
@[simp] theorem State.withHeader_cmf (f : Bool) (t : BitVec 2) (s : State) : (s.withHeader f t).cmf = s.cmf := rfl
@[simp] theorem State.withHeader_flg (f : Bool) (t : BitVec 2) (s : State) : (s.withHeader f t).flg = s.flg := rfl
@[simp] theorem State.withHeader_btype (f : Bool) (t : BitVec 2) (s : State) : (s.withHeader f t).btype = t := rfl
@[simp] theorem State.withHeader_len (f : Bool) (t : BitVec 2) (s : State) : (s.withHeader f t).len = s.len := rfl
@[simp] theorem State.withHeader_nlen (f : Bool) (t : BitVec 2) (s : State) : (s.withHeader f t).nlen = s.nlen := rfl
@[simp] theorem State.withHeader_hlit (f : Bool) (t : BitVec 2) (s : State) : (s.withHeader f t).hlit = s.hlit := rfl
@[simp] theorem State.withHeader_hdist (f : Bool) (t : BitVec 2) (s : State) : (s.withHeader f t).hdist = s.hdist := rfl
@[simp] theorem State.withHeader_hclen (f : Bool) (t : BitVec 2) (s : State) : (s.withHeader f t).hclen = s.hclen := rfl
@[simp] theorem State.withHeader_lidx (f : Bool) (t : BitVec 2) (s : State) : (s.withHeader f t).lidx = s.lidx := rfl
@[simp] theorem State.withHeader_rep (f : Bool) (t : BitVec 2) (s : State) : (s.withHeader f t).rep = s.rep := rfl
@[simp] theorem State.withHeader_sym (f : Bool) (t : BitVec 2) (s : State) : (s.withHeader f t).sym = s.sym := rfl
@[simp] theorem State.withHeader_dsym (f : Bool) (t : BitVec 2) (s : State) : (s.withHeader f t).dsym = s.dsym := rfl
@[simp] theorem State.withHeader_mlen (f : Bool) (t : BitVec 2) (s : State) : (s.withHeader f t).mlen = s.mlen := rfl
@[simp] theorem State.withHeader_mdist (f : Bool) (t : BitVec 2) (s : State) : (s.withHeader f t).mdist = s.mdist := rfl
@[simp] theorem State.withHeader_dynPhase (f : Bool) (t : BitVec 2) (s : State) : (s.withHeader f t).dynPhase = s.dynPhase := rfl
@[simp] theorem State.withHeader_clIdx (f : Bool) (t : BitVec 2) (s : State) : (s.withHeader f t).clIdx = s.clIdx := rfl
@[simp] theorem State.withHeader_inp (f : Bool) (t : BitVec 2) (s : State) : (s.withHeader f t).inp = s.inp := rfl
@[simp] theorem State.withHeader_out (f : Bool) (t : BitVec 2) (s : State) : (s.withHeader f t).out = s.out := rfl
@[simp] theorem State.withHeader_pins (f : Bool) (t : BitVec 2) (s : State) : (s.withHeader f t).pins = s.pins := rfl
@[simp] theorem State.withHeader_draw (f : Bool) (t : BitVec 2) (s : State) : (s.withHeader f t).draw = s.draw := rfl

/-! ### `State.setLens` -/

@[simp] theorem State.setLens_acc (i : Nat) (v : BitVec 4) (s : State) : (s.setLens i v).acc = s.acc := rfl
@[simp] theorem State.setLens_bitcnt (i : Nat) (v : BitVec 4) (s : State) : (s.setLens i v).bitcnt = s.bitcnt := rfl
@[simp] theorem State.setLens_inOff (i : Nat) (v : BitVec 4) (s : State) : (s.setLens i v).inOff = s.inOff := rfl
@[simp] theorem State.setLens_outPos (i : Nat) (v : BitVec 4) (s : State) : (s.setLens i v).outPos = s.outPos := rfl
@[simp] theorem State.setLens_fsm (i : Nat) (v : BitVec 4) (s : State) : (s.setLens i v).fsm = s.fsm := rfl
@[simp] theorem State.setLens_bfinal (i : Nat) (v : BitVec 4) (s : State) : (s.setLens i v).bfinal = s.bfinal := rfl
@[simp] theorem State.setLens_staticValid (i : Nat) (v : BitVec 4) (s : State) : (s.setLens i v).staticValid = s.staticValid := rfl
@[simp] theorem State.setLens_sel (i : Nat) (v : BitVec 4) (s : State) : (s.setLens i v).sel = s.sel := rfl
@[simp] theorem State.setLens_inLen (i : Nat) (v : BitVec 4) (s : State) : (s.setLens i v).inLen = s.inLen := rfl
@[simp] theorem State.setLens_outCap (i : Nat) (v : BitVec 4) (s : State) : (s.setLens i v).outCap = s.outCap := rfl
@[simp] theorem State.setLens_zlib (i : Nat) (v : BitVec 4) (s : State) : (s.setLens i v).zlib = s.zlib := rfl
@[simp] theorem State.setLens_bytesWritten (i : Nat) (v : BitVec 4) (s : State) : (s.setLens i v).bytesWritten = s.bytesWritten := rfl
@[simp] theorem State.setLens_errCode (i : Nat) (v : BitVec 4) (s : State) : (s.setLens i v).errCode = s.errCode := rfl
@[simp] theorem State.setLens_cllen (i : Nat) (v : BitVec 4) (s : State) : (s.setLens i v).cllen = s.cllen := rfl
@[simp] theorem State.setLens_lens (i : Nat) (v : BitVec 4) (s : State) : (s.setLens i v).lens = s.lens.setIfInBounds i v := rfl
@[simp] theorem State.setLens_tCl (i : Nat) (v : BitVec 4) (s : State) : (s.setLens i v).tCl = s.tCl := rfl
@[simp] theorem State.setLens_tLl (i : Nat) (v : BitVec 4) (s : State) : (s.setLens i v).tLl = s.tLl := rfl
@[simp] theorem State.setLens_tD (i : Nat) (v : BitVec 4) (s : State) : (s.setLens i v).tD = s.tD := rfl
@[simp] theorem State.setLens_tLlFixed (i : Nat) (v : BitVec 4) (s : State) : (s.setLens i v).tLlFixed = s.tLlFixed := rfl
@[simp] theorem State.setLens_tDFixed (i : Nat) (v : BitVec 4) (s : State) : (s.setLens i v).tDFixed = s.tDFixed := rfl
@[simp] theorem State.setLens_cmf (i : Nat) (v : BitVec 4) (s : State) : (s.setLens i v).cmf = s.cmf := rfl
@[simp] theorem State.setLens_flg (i : Nat) (v : BitVec 4) (s : State) : (s.setLens i v).flg = s.flg := rfl
@[simp] theorem State.setLens_btype (i : Nat) (v : BitVec 4) (s : State) : (s.setLens i v).btype = s.btype := rfl
@[simp] theorem State.setLens_len (i : Nat) (v : BitVec 4) (s : State) : (s.setLens i v).len = s.len := rfl
@[simp] theorem State.setLens_nlen (i : Nat) (v : BitVec 4) (s : State) : (s.setLens i v).nlen = s.nlen := rfl
@[simp] theorem State.setLens_hlit (i : Nat) (v : BitVec 4) (s : State) : (s.setLens i v).hlit = s.hlit := rfl
@[simp] theorem State.setLens_hdist (i : Nat) (v : BitVec 4) (s : State) : (s.setLens i v).hdist = s.hdist := rfl
@[simp] theorem State.setLens_hclen (i : Nat) (v : BitVec 4) (s : State) : (s.setLens i v).hclen = s.hclen := rfl
@[simp] theorem State.setLens_lidx (i : Nat) (v : BitVec 4) (s : State) : (s.setLens i v).lidx = s.lidx := rfl
@[simp] theorem State.setLens_rep (i : Nat) (v : BitVec 4) (s : State) : (s.setLens i v).rep = s.rep := rfl
@[simp] theorem State.setLens_sym (i : Nat) (v : BitVec 4) (s : State) : (s.setLens i v).sym = s.sym := rfl
@[simp] theorem State.setLens_dsym (i : Nat) (v : BitVec 4) (s : State) : (s.setLens i v).dsym = s.dsym := rfl
@[simp] theorem State.setLens_mlen (i : Nat) (v : BitVec 4) (s : State) : (s.setLens i v).mlen = s.mlen := rfl
@[simp] theorem State.setLens_mdist (i : Nat) (v : BitVec 4) (s : State) : (s.setLens i v).mdist = s.mdist := rfl
@[simp] theorem State.setLens_dynPhase (i : Nat) (v : BitVec 4) (s : State) : (s.setLens i v).dynPhase = s.dynPhase := rfl
@[simp] theorem State.setLens_clIdx (i : Nat) (v : BitVec 4) (s : State) : (s.setLens i v).clIdx = s.clIdx := rfl
@[simp] theorem State.setLens_inp (i : Nat) (v : BitVec 4) (s : State) : (s.setLens i v).inp = s.inp := rfl
@[simp] theorem State.setLens_out (i : Nat) (v : BitVec 4) (s : State) : (s.setLens i v).out = s.out := rfl
@[simp] theorem State.setLens_pins (i : Nat) (v : BitVec 4) (s : State) : (s.setLens i v).pins = s.pins := rfl
@[simp] theorem State.setLens_draw (i : Nat) (v : BitVec 4) (s : State) : (s.setLens i v).draw = s.draw := rfl

/-! ### `State.freeScratch` -/

@[simp] theorem State.freeScratch_acc (s : State) : (s.freeScratch).acc = s.acc := rfl
@[simp] theorem State.freeScratch_bitcnt (s : State) : (s.freeScratch).bitcnt = s.bitcnt := rfl
@[simp] theorem State.freeScratch_inOff (s : State) : (s.freeScratch).inOff = s.inOff := rfl
@[simp] theorem State.freeScratch_outPos (s : State) : (s.freeScratch).outPos = s.outPos := rfl
@[simp] theorem State.freeScratch_fsm (s : State) : (s.freeScratch).fsm = s.fsm := rfl
@[simp] theorem State.freeScratch_bfinal (s : State) : (s.freeScratch).bfinal = s.bfinal := rfl
@[simp] theorem State.freeScratch_staticValid (s : State) : (s.freeScratch).staticValid = s.staticValid := rfl
@[simp] theorem State.freeScratch_sel (s : State) : (s.freeScratch).sel = s.sel := rfl
@[simp] theorem State.freeScratch_inLen (s : State) : (s.freeScratch).inLen = s.inLen := rfl
@[simp] theorem State.freeScratch_outCap (s : State) : (s.freeScratch).outCap = s.outCap := rfl
@[simp] theorem State.freeScratch_zlib (s : State) : (s.freeScratch).zlib = s.zlib := rfl
@[simp] theorem State.freeScratch_bytesWritten (s : State) : (s.freeScratch).bytesWritten = s.bytesWritten := rfl
@[simp] theorem State.freeScratch_errCode (s : State) : (s.freeScratch).errCode = s.errCode := rfl
@[simp] theorem State.freeScratch_inp (s : State) : (s.freeScratch).inp = s.inp := rfl
@[simp] theorem State.freeScratch_out (s : State) : (s.freeScratch).out = s.out := rfl
@[simp] theorem State.freeScratch_pins (s : State) : (s.freeScratch).pins = s.pins := rfl
@[simp] theorem State.freeScratch_draw (s : State) : (s.freeScratch).draw = s.draw + 1 := rfl

/-! ### `State.freeOut` -/

@[simp] theorem State.freeOut_acc (s : State) : (s.freeOut).acc = s.acc := rfl
@[simp] theorem State.freeOut_bitcnt (s : State) : (s.freeOut).bitcnt = s.bitcnt := rfl
@[simp] theorem State.freeOut_inOff (s : State) : (s.freeOut).inOff = s.inOff := rfl
@[simp] theorem State.freeOut_outPos (s : State) : (s.freeOut).outPos = s.outPos := rfl
@[simp] theorem State.freeOut_fsm (s : State) : (s.freeOut).fsm = s.fsm := rfl
@[simp] theorem State.freeOut_bfinal (s : State) : (s.freeOut).bfinal = s.bfinal := rfl
@[simp] theorem State.freeOut_staticValid (s : State) : (s.freeOut).staticValid = s.staticValid := rfl
@[simp] theorem State.freeOut_sel (s : State) : (s.freeOut).sel = s.sel := rfl
@[simp] theorem State.freeOut_inLen (s : State) : (s.freeOut).inLen = s.inLen := rfl
@[simp] theorem State.freeOut_outCap (s : State) : (s.freeOut).outCap = s.outCap := rfl
@[simp] theorem State.freeOut_zlib (s : State) : (s.freeOut).zlib = s.zlib := rfl
@[simp] theorem State.freeOut_bytesWritten (s : State) : (s.freeOut).bytesWritten = s.bytesWritten := rfl
@[simp] theorem State.freeOut_errCode (s : State) : (s.freeOut).errCode = s.errCode := rfl
@[simp] theorem State.freeOut_cllen (s : State) : (s.freeOut).cllen = s.cllen := rfl
@[simp] theorem State.freeOut_lens (s : State) : (s.freeOut).lens = s.lens := rfl
@[simp] theorem State.freeOut_tCl (s : State) : (s.freeOut).tCl = s.tCl := rfl
@[simp] theorem State.freeOut_tLl (s : State) : (s.freeOut).tLl = s.tLl := rfl
@[simp] theorem State.freeOut_tD (s : State) : (s.freeOut).tD = s.tD := rfl
@[simp] theorem State.freeOut_tLlFixed (s : State) : (s.freeOut).tLlFixed = s.tLlFixed := rfl
@[simp] theorem State.freeOut_tDFixed (s : State) : (s.freeOut).tDFixed = s.tDFixed := rfl
@[simp] theorem State.freeOut_cmf (s : State) : (s.freeOut).cmf = s.cmf := rfl
@[simp] theorem State.freeOut_flg (s : State) : (s.freeOut).flg = s.flg := rfl
@[simp] theorem State.freeOut_btype (s : State) : (s.freeOut).btype = s.btype := rfl
@[simp] theorem State.freeOut_len (s : State) : (s.freeOut).len = s.len := rfl
@[simp] theorem State.freeOut_nlen (s : State) : (s.freeOut).nlen = s.nlen := rfl
@[simp] theorem State.freeOut_hlit (s : State) : (s.freeOut).hlit = s.hlit := rfl
@[simp] theorem State.freeOut_hdist (s : State) : (s.freeOut).hdist = s.hdist := rfl
@[simp] theorem State.freeOut_hclen (s : State) : (s.freeOut).hclen = s.hclen := rfl
@[simp] theorem State.freeOut_lidx (s : State) : (s.freeOut).lidx = s.lidx := rfl
@[simp] theorem State.freeOut_rep (s : State) : (s.freeOut).rep = s.rep := rfl
@[simp] theorem State.freeOut_sym (s : State) : (s.freeOut).sym = s.sym := rfl
@[simp] theorem State.freeOut_dsym (s : State) : (s.freeOut).dsym = s.dsym := rfl
@[simp] theorem State.freeOut_mlen (s : State) : (s.freeOut).mlen = s.mlen := rfl
@[simp] theorem State.freeOut_mdist (s : State) : (s.freeOut).mdist = s.mdist := rfl
@[simp] theorem State.freeOut_dynPhase (s : State) : (s.freeOut).dynPhase = s.dynPhase := rfl
@[simp] theorem State.freeOut_clIdx (s : State) : (s.freeOut).clIdx = s.clIdx := rfl
@[simp] theorem State.freeOut_inp (s : State) : (s.freeOut).inp = s.inp := rfl
@[simp] theorem State.freeOut_out (s : State) : (s.freeOut).out = Memory.overwriteBelow s.outCap (Config.freeByte s.draw) s.out := rfl
@[simp] theorem State.freeOut_pins (s : State) : (s.freeOut).pins = s.pins := rfl
@[simp] theorem State.freeOut_draw (s : State) : (s.freeOut).draw = s.draw + 1 := rfl

/-! ### `State.raise` -/

@[simp] theorem State.raise_fsm (k : FaultKind) (s : State) : (s.raise k).fsm = .failed := rfl
@[simp] theorem State.raise_inLen (k : FaultKind) (s : State) : (s.raise k).inLen = s.inLen := rfl
@[simp] theorem State.raise_outCap (k : FaultKind) (s : State) : (s.raise k).outCap = s.outCap := rfl
@[simp] theorem State.raise_zlib (k : FaultKind) (s : State) : (s.raise k).zlib = s.zlib := rfl
@[simp] theorem State.raise_errCode (k : FaultKind) (s : State) : (s.raise k).errCode = k.code := rfl
@[simp] theorem State.raise_inp (k : FaultKind) (s : State) : (s.raise k).inp = s.inp := rfl
@[simp] theorem State.raise_out (k : FaultKind) (s : State) : (s.raise k).out = Memory.overwriteBelow s.outCap (Config.freeByte s.draw) s.out := rfl
@[simp] theorem State.raise_pins (k : FaultKind) (s : State) : (s.raise k).pins = s.pins := rfl
@[simp] theorem State.raise_draw (k : FaultKind) (s : State) : (s.raise k).draw = s.draw + 2 := rfl

/-! ### `State.rst` -/

@[simp] theorem State.rst_acc (s : State) : (s.rst).acc = 0 := rfl
@[simp] theorem State.rst_bitcnt (s : State) : (s.rst).bitcnt = 0 := rfl
@[simp] theorem State.rst_inOff (s : State) : (s.rst).inOff = 0 := rfl
@[simp] theorem State.rst_outPos (s : State) : (s.rst).outPos = 0 := rfl
@[simp] theorem State.rst_fsm (s : State) : (s.rst).fsm = .idle := rfl
@[simp] theorem State.rst_bfinal (s : State) : (s.rst).bfinal = false := rfl
@[simp] theorem State.rst_staticValid (s : State) : (s.rst).staticValid = false := rfl
@[simp] theorem State.rst_sel (s : State) : (s.rst).sel = false := rfl
@[simp] theorem State.rst_inLen (s : State) : (s.rst).inLen = 0 := rfl
@[simp] theorem State.rst_outCap (s : State) : (s.rst).outCap = 0 := rfl
@[simp] theorem State.rst_zlib (s : State) : (s.rst).zlib = false := rfl
@[simp] theorem State.rst_bytesWritten (s : State) : (s.rst).bytesWritten = 0 := rfl
@[simp] theorem State.rst_errCode (s : State) : (s.rst).errCode = 0 := rfl
@[simp] theorem State.rst_inp (s : State) : (s.rst).inp = s.inp := rfl
@[simp] theorem State.rst_out (s : State) : (s.rst).out = if s.busy then s.freeOut.out else s.out := rfl
@[simp] theorem State.rst_pins (s : State) : (s.rst).pins = s.pins := rfl
@[simp] theorem State.rst_draw (s : State) : (s.rst).draw = s.draw + 1 := rfl

/-! ### `State.launched` -/

@[simp] theorem State.launched_acc (s : State) : (s.launched).acc = 0 := rfl
@[simp] theorem State.launched_bitcnt (s : State) : (s.launched).bitcnt = 0 := rfl
@[simp] theorem State.launched_inOff (s : State) : (s.launched).inOff = 0 := rfl
@[simp] theorem State.launched_outPos (s : State) : (s.launched).outPos = 0 := rfl
@[simp] theorem State.launched_fsm (s : State) : (s.launched).fsm = if s.pins.zlib then .zlibHeader else .awaitingBlockHeader := rfl
@[simp] theorem State.launched_bfinal (s : State) : (s.launched).bfinal = false := rfl
@[simp] theorem State.launched_staticValid (s : State) : (s.launched).staticValid = false := rfl
@[simp] theorem State.launched_sel (s : State) : (s.launched).sel = false := rfl
@[simp] theorem State.launched_inLen (s : State) : (s.launched).inLen = s.pins.inLen := rfl
@[simp] theorem State.launched_outCap (s : State) : (s.launched).outCap = s.pins.outCap := rfl
@[simp] theorem State.launched_zlib (s : State) : (s.launched).zlib = s.pins.zlib := rfl
@[simp] theorem State.launched_bytesWritten (s : State) : (s.launched).bytesWritten = 0 := rfl
@[simp] theorem State.launched_errCode (s : State) : (s.launched).errCode = 0 := rfl
@[simp] theorem State.launched_inp (s : State) : (s.launched).inp = s.inp := rfl
@[simp] theorem State.launched_out (s : State) : (s.launched).out = s.out := rfl
@[simp] theorem State.launched_pins (s : State) : (s.launched).pins = s.pins := rfl
@[simp] theorem State.launched_draw (s : State) : (s.launched).draw = s.draw + 1 := rfl

/-! ### `State.finished` -/

@[simp] theorem State.finished_acc (s : State) : (s.finished).acc = s.acc := rfl
@[simp] theorem State.finished_bitcnt (s : State) : (s.finished).bitcnt = s.bitcnt := rfl
@[simp] theorem State.finished_inOff (s : State) : (s.finished).inOff = s.inOff := rfl
@[simp] theorem State.finished_outPos (s : State) : (s.finished).outPos = s.outPos := rfl
@[simp] theorem State.finished_fsm (s : State) : (s.finished).fsm = .done := rfl
@[simp] theorem State.finished_bfinal (s : State) : (s.finished).bfinal = s.bfinal := rfl
@[simp] theorem State.finished_staticValid (s : State) : (s.finished).staticValid = s.staticValid := rfl
@[simp] theorem State.finished_sel (s : State) : (s.finished).sel = s.sel := rfl
@[simp] theorem State.finished_inLen (s : State) : (s.finished).inLen = s.inLen := rfl
@[simp] theorem State.finished_outCap (s : State) : (s.finished).outCap = s.outCap := rfl
@[simp] theorem State.finished_zlib (s : State) : (s.finished).zlib = s.zlib := rfl
@[simp] theorem State.finished_bytesWritten (s : State) : (s.finished).bytesWritten = s.outPos := rfl
@[simp] theorem State.finished_errCode (s : State) : (s.finished).errCode = 0 := rfl
@[simp] theorem State.finished_inp (s : State) : (s.finished).inp = s.inp := rfl
@[simp] theorem State.finished_out (s : State) : (s.finished).out = s.out := rfl
@[simp] theorem State.finished_pins (s : State) : (s.finished).pins = s.pins := rfl
@[simp] theorem State.finished_draw (s : State) : (s.finished).draw = s.draw + 1 := rfl

/-! ### Runs of lengths, and the shape of a free value -/

/-- A run of lengths writes `LENS` and nothing else. -/
theorem State.fillLens_eq (rep i : Nat) (v : BitVec 4) (s : State) :
    s.fillLens rep i v = { s with lens := (s.fillLens rep i v).lens } := by
  induction rep generalizing i s with
  | zero => rfl
  | succ n ih => rw [State.fillLens, ih]; rfl

/-- A free number is below its bound, and that is all that is known of it. -/
theorem State.freeBelow_lt {slot n : Nat} (s : State) (h : 0 < n) : s.freeBelow slot n < n := Nat.mod_lt _ h

end Sys2Proof.Machine
end

