-- ==== Sys2Proof/Laws/Cursor.lean ====
section
/-! SUPPORT. The bit cursor over the stream it reads (R130 to R144): one lemma per operation says all it can do, as a
value of the stream's bits and a move of the position. -/

namespace Sys2Proof

/-! ## Numbers and bits -/

theorem natOfBits_lt (bs : Bits) : natOfBits bs < 2 ^ bs.length := by
  induction bs with
  | nil => decide
  | cons b bs ih =>
    have := b.toNat_lt
    simp only [natOfBits, List.length_cons, Nat.pow_succ]; omega

theorem testBit_natOfBits (bs : Bits) (i : Nat) : (natOfBits bs).testBit i = bs.getD i false := by
  induction bs generalizing i with
  | nil => simp [natOfBits]
  | cons b bs ih =>
    cases i with
    | zero => cases b <;> simp [natOfBits, Nat.testBit_zero, Nat.add_mod]
    | succ i =>
      rw [Nat.testBit_succ, List.getD_cons_succ, ← ih]
      congr 1
      have := b.toNat_lt
      simp only [natOfBits]
      omega

@[simp] theorem length_bitsOfNat (n v : Nat) : (bitsOfNat n v).length = n := by
  induction n generalizing v with
  | zero => rfl
  | succ n ih => simp [bitsOfNat, ih]

theorem natOfBits_bitsOfNat {n v : Nat} (h : v < 2 ^ n) : natOfBits (bitsOfNat n v) = v := by
  induction n generalizing v with
  | zero => simp at h; simp [bitsOfNat, natOfBits, h]
  | succ n ih =>
    rw [bitsOfNat, natOfBits, ih (by rw [Nat.pow_succ] at h; omega)]
    rcases Nat.mod_two_eq_zero_or_one v with h2 | h2 <;> simp [h2] <;> omega

theorem bitsOfNat_natOfBits (bs : Bits) : bitsOfNat bs.length (natOfBits bs) = bs := by
  induction bs with
  | nil => rfl
  | cons b bs ih =>
    rw [List.length_cons, bitsOfNat, natOfBits]
    have hb := b.toNat_lt
    have h2 : (b.toNat + 2 * natOfBits bs) / 2 = natOfBits bs := by omega
    have h1 : decide ((b.toNat + 2 * natOfBits bs) % 2 = 1) = b := by cases b <;> simp
    rw [h1, h2, ih]

end Sys2Proof

namespace Sys2Proof.Machine

/-! ## The stream -/

@[simp] theorem State.length_streamBits (s : State) (p n : Nat) : (s.streamBits p n).length = n := by
  simp [State.streamBits]

theorem State.streamBits_append (s : State) (p n m : Nat) :
    s.streamBits p n ++ s.streamBits (p + n) m = s.streamBits p (n + m) := by
  simp [State.streamBits, List.range_add, Nat.add_assoc]

theorem State.take_streamBits (s : State) {p n m : Nat} (h : n ≤ m) : (s.streamBits p m).take n = s.streamBits p n := by
  obtain ⟨k, rfl⟩ := Nat.exists_eq_add_of_le h
  rw [← s.streamBits_append, List.take_left' (by simp)]

theorem State.drop_streamBits (s : State) {p n m : Nat} (h : n ≤ m) :
    (s.streamBits p m).drop n = s.streamBits (p + n) (m - n) := by
  obtain ⟨k, rfl⟩ := Nat.exists_eq_add_of_le h
  rw [← s.streamBits_append, List.drop_left' (by simp), Nat.add_sub_cancel_left]

theorem State.testBit_streamBits (s : State) (p n i : Nat) :
    (natOfBits (s.streamBits p n)).testBit i = (decide (i < n) && s.streamBit (p + i)) := by
  rw [testBit_natOfBits]
  by_cases h : i < n
  · simp [State.streamBits, h]
  · simp [State.streamBits, h]

/-! ## Good cursors -/

theorem State.CursorInv.pos_add {s : State} (h : s.CursorInv) : s.pos + s.bitcnt = 8 * s.inOff := by
  have := h.behind
  unfold State.pos
  omega

/-- What is left of the stream is what `ACC` holds and the bytes not loaded yet. -/
theorem State.CursorInv.bitsLeft_eq {s : State} (h : s.CursorInv) :
    s.bitsLeft = s.bitcnt + 8 * (s.inLen - s.inOff) := by
  have := h.behind
  have := h.within
  unfold State.bitsLeft State.pos
  omega

/-- The valid bits of `ACC` are the next bits of the stream (R65). -/
theorem State.CursorInv.acc_mod {s : State} (h : s.CursorInv) {n : Nat} (hn : n ≤ s.bitcnt) :
    s.acc.toNat % 2 ^ n = natOfBits (s.streamBits s.pos n) := by
  refine Nat.eq_of_testBit_eq fun i => ?_
  rw [Nat.testBit_mod_two_pow, s.testBit_streamBits]
  by_cases hi : i < n
  · simp only [hi, decide_true, Bool.true_and]
    exact h.acc_bits i (by omega)
  · simp [hi]

theorem State.Moved.refl {s : State} (h : s.CursorInv) : s.Moved s 0 := ⟨rfl, h, rfl⟩

theorem State.Moved.trans {s t u : State} {n m : Nat} (h₁ : s.Moved t n) (h₂ : t.Moved u m) : s.Moved u (n + m) where
  same := by rw [h₂.same, h₁.same]
  cursor := h₂.cursor
  pos := by rw [h₂.pos, h₁.pos, Nat.add_assoc]

theorem State.Moved.inp {s u : State} {n : Nat} (h : s.Moved u n) : u.inp = s.inp := by rw [h.same]

theorem State.Moved.inLen {s u : State} {n : Nat} (h : s.Moved u n) : u.inLen = s.inLen := by rw [h.same]

theorem State.Moved.streamBits {s u : State} {n : Nat} (h : s.Moved u n) (p k : Nat) :
    u.streamBits p k = s.streamBits p k := by
  simp only [State.streamBits, State.streamBit, h.inp]

theorem State.Moved.bitsLeft {s u : State} {n : Nat} (h : s.Moved u n) : u.bitsLeft = s.bitsLeft - n := by
  unfold State.bitsLeft
  rw [h.pos, h.inLen]
  omega

/-- What remains of the stream after a move. -/
theorem State.Moved.remaining {s u : State} {n : Nat} (h : s.Moved u n) (hn : n ≤ s.bitsLeft) :
    u.remaining = s.remaining.drop n := by
  rw [State.remaining, State.remaining, h.streamBits, s.drop_streamBits hn, h.pos, h.bitsLeft]

/-- A loaded byte joins the valid bits; the position stays (R134). -/
theorem State.CursorInv.pushByte {s : State} (h : s.CursorInv) (hb : s.bitcnt ≤ 24) (hi : s.inOff < s.inLen) :
    s.Moved (s.pushByte (Memory.read s.inp s.inOff)) 0 := by
  have hbeh := h.behind
  have hpos : (s.pushByte (Memory.read s.inp s.inOff)).pos = s.pos := by
    simp only [State.pos, State.pushByte_inOff, State.pushByte_bitcnt]; omega
  have hhigh : ∀ i, s.bitcnt ≤ i → s.acc.getLsbD i = false := fun i hle =>
    Nat.testBit_eq_false_of_lt (Nat.lt_of_lt_of_le h.acc_lt (Nat.pow_le_pow_right (by omega) hle))
  refine ⟨rfl, ⟨?_, ?_, ?_, ?_, ?_⟩, hpos⟩
  · simp only [State.pushByte_bitcnt]; omega
  · simp only [State.pushByte_bitcnt, State.pushByte_acc, BitVec.toNat_or]
    refine Nat.or_lt_two_pow (Nat.lt_of_lt_of_le h.acc_lt (Nat.pow_le_pow_right (by omega) (by omega))) ?_
    rw [BitVec.toNat_shiftLeft, BitVec.toNat_setWidth]
    refine Nat.lt_of_le_of_lt (Nat.mod_le _ _) ?_
    rw [Nat.shiftLeft_eq, Nat.add_comm, Nat.pow_add]
    refine Nat.mul_lt_mul_of_pos_right (Nat.lt_of_le_of_lt (Nat.mod_le _ _) (BitVec.isLt _)) (Nat.two_pow_pos _)
  · simp only [State.pushByte_bitcnt, State.pushByte_inOff]; omega
  · simp only [State.pushByte_inOff, State.pushByte_inLen]; omega
  · intro i hlt
    rw [hpos]
    simp only [State.pushByte_bitcnt] at hlt
    rw [State.pushByte_acc, BitVec.getLsbD_or, BitVec.getLsbD_shiftLeft, BitVec.getLsbD_setWidth]
    change _ = s.streamBit (s.pos + i)
    by_cases hib : i < s.bitcnt
    · simp [hib, h.acc_bits i hib]
    · have hp := h.pos_add
      have h1 : (s.pos + i) / 8 = s.inOff := by omega
      have h2 : (s.pos + i) % 8 = i - s.bitcnt := by omega
      simp only [State.streamBit, h1, h2, hhigh i (by omega)]
      simp [hib, show i < 32 by omega, show i - s.bitcnt < 32 by omega]

/-- Dropping valid bits moves the position on (R139). -/
theorem State.CursorInv.dropBits {s : State} (h : s.CursorInv) {n : Nat} (hn : n ≤ s.bitcnt) :
    s.Moved (s.dropBits n) n := by
  have hbeh := h.behind
  have hcnt := h.count
  have hpos : (s.dropBits n).pos = s.pos + n := by
    simp only [State.pos, State.dropBits_inOff, State.dropBits_bitcnt]; omega
  refine ⟨rfl, ⟨?_, ?_, ?_, ?_, ?_⟩, hpos⟩
  · simp only [State.dropBits_bitcnt]; omega
  · simp only [State.dropBits_bitcnt, State.dropBits_acc, BitVec.toNat_ushiftRight, Nat.shiftRight_eq_div_pow]
    refine Nat.div_lt_of_lt_mul ?_
    rw [← Nat.pow_add, Nat.add_sub_cancel' hn]
    exact h.acc_lt
  · simp only [State.dropBits_bitcnt, State.dropBits_inOff]; omega
  · exact h.within
  · intro i hlt
    simp only [State.dropBits_bitcnt] at hlt
    rw [hpos, State.dropBits_acc, BitVec.getLsbD_ushiftRight, h.acc_bits (n + i) (by omega), ← Nat.add_assoc]
    rfl

/-! ## The operations -/

theorem Res.bind_ok {α β : Type} (a : α) (s : State) (f : α → State → Res β) : (Res.ok a s).bind f = f a s := rfl

theorem Res.bind_raised {α β : Type} (k : FaultKind) (s : State) (f : α → State → Res β) :
    (Res.raised k s : Res α).bind f = .raised k s := rfl

/-- A fault leaves nothing of the cursor or of the position in the stream behind (R376). -/
theorem State.Moved.raise {s u : State} {n : Nat} (h : s.Moved u n) (k : FaultKind) : u.raise k = s.raise k := by
  rw [h.same]; rfl

/-- All the refill loop can do (R134): it makes `n` bits valid, or finds the input too short. -/
theorem refill_spec {s : State} (h : s.CursorInv) {fuel n : Nat} (hn : n ≤ s.bitcnt + 8 * fuel)
    (hfit : n ≤ s.bitcnt ∨ s.bitcnt + 8 * ((n - s.bitcnt + 7) / 8) ≤ 32) :
    (n ≤ s.bitsLeft ∧ ∃ u, refill fuel n s = .ok () u ∧ s.Moved u 0 ∧ n ≤ u.bitcnt ∧ (u.bitcnt < n + 8 ∨ u = s)) ∨
      (s.bitsLeft < n ∧ ∃ u, refill fuel n s = .raised .truncatedStream u ∧ s.Moved u 0) := by
  have hl := h.bitsLeft_eq
  have hw := h.within
  induction fuel generalizing s with
  | zero => exact .inl ⟨by omega, s, rfl, .refl h, by omega, .inr rfl⟩
  | succ fuel ih =>
    unfold refill
    by_cases hc : n ≤ s.bitcnt
    · rw [if_pos hc]
      exact .inl ⟨by omega, s, rfl, .refl h, hc, .inr rfl⟩
    · rw [if_neg hc]
      by_cases hi : s.inOff ≥ s.inLen
      · rw [if_pos hi]
        exact .inr ⟨by omega, s, rfl, .refl h⟩
      · rw [if_neg hi, inRead, if_pos (by omega), Res.bind_ok]
        have hm := h.pushByte (by omega) (by omega)
        have ht := ih hm.cursor (by simp only [State.pushByte_bitcnt]; omega)
          (by simp only [State.pushByte_bitcnt]; omega) hm.cursor.bitsLeft_eq hm.cursor.within
        rw [hm.bitsLeft] at ht
        rcases ht with ⟨hle, u, he, hu, hcu, hlt⟩ | ⟨hlt, u, he, hu⟩
        · refine .inl ⟨hle, u, he, hm.trans hu, hcu, .inl ?_⟩
          rcases hlt with hlt | rfl
          · exact hlt
          · simp only [State.pushByte_bitcnt]; omega
        · exact .inr ⟨hlt, u, he, hm.trans hu⟩

theorem State.peekable_of_le {s : State} (h : s.CursorInv) {n : Nat} (hn : n ≤ 25) : s.peekable n = true := by
  have := h.count
  unfold State.peekable Config.accW
  rw [decide_eq_true_eq]
  omega

/-- All `PEEK(n)` can do in its domain (R134, R135): the next `n` bits, nothing consumed, or the fault. -/
theorem peek_spec {s : State} (h : s.CursorInv) {n : Nat} (hp : s.peekable n = true) :
    (n ≤ s.bitsLeft ∧ ∃ u, peek n s = .ok (natOfBits (s.streamBits s.pos n)) u ∧ s.Moved u 0 ∧ n ≤ u.bitcnt ∧
        (u.bitcnt < n + 8 ∨ u = s)) ∨
      (s.bitsLeft < n ∧ ∃ u, peek n s = .raised .truncatedStream u ∧ s.Moved u 0) := by
  have hd := hp
  unfold State.peekable Config.accW at hd
  rw [decide_eq_true_eq] at hd
  unfold peek
  rw [if_pos hp]
  rcases refill_spec h (fuel := 4) (n := n) (by omega) hd.2 with ⟨hl, u, he, hu, hcu, hlt⟩ | ⟨hl, u, he, hu⟩
  · refine .inl ⟨hl, u, ?_, hu, hcu, hlt⟩
    rw [he, Res.bind_ok, hu.cursor.acc_mod hcu, hu.streamBits, hu.pos, Nat.add_zero]
  · exact .inr ⟨hl, u, by rw [he, Res.bind_raised], hu⟩

theorem discard_spec {s : State} (h : s.CursorInv) {n : Nat} (hn : n ≤ s.bitcnt) :
    discard n s = .ok () (s.dropBits n) ∧ s.Moved (s.dropBits n) n :=
  ⟨by rw [discard, if_pos hn], h.dropBits hn⟩

/-- All `TAKE(n)` can do in its domain (R140): the next `n` bits, consumed, or the fault. -/
theorem take_spec {s : State} (h : s.CursorInv) {n : Nat} (hp : s.peekable n = true) :
    (n ≤ s.bitsLeft ∧ ∃ u, take n s = .ok (natOfBits (s.streamBits s.pos n)) u ∧ s.Moved u n) ∨
      (s.bitsLeft < n ∧ ∃ u, take n s = .raised .truncatedStream u ∧ s.Moved u 0) := by
  unfold take
  rcases peek_spec h hp with ⟨hl, u, he, hu, hcu, -⟩ | ⟨hl, u, he, hu⟩
  · obtain ⟨hd, hm⟩ := discard_spec hu.cursor hcu
    refine .inl ⟨hl, u.dropBits n, by rw [he, Res.bind_ok, hd, Res.bind_ok], ?_⟩
    have := hu.trans hm
    rwa [Nat.zero_add] at this
  · exact .inr ⟨hl, u, by rw [he, Res.bind_raised], hu⟩

/-- `ALIGN` drops the rest of the current byte and cannot fault (R143). -/
theorem align_spec {s : State} (h : s.CursorInv) :
    align s = .ok () (s.dropBits (s.bitcnt % 8)) ∧ s.Moved (s.dropBits (s.bitcnt % 8)) (s.bitcnt % 8) :=
  discard_spec h (Nat.mod_le _ _)

/-- After `ALIGN` the position is a whole number of bytes (R143). -/
theorem State.CursorInv.align_pos {s : State} (h : s.CursorInv) : (s.pos + s.bitcnt % 8) % 8 = 0 := by
  have := h.pos_add
  omega

/-- All `DECODE(T)` can do (R173): the symbol whose code comes next, consumed; or nothing, and one of the two
faults, in this order. -/
theorem decodeSym_spec {s : State} (h : s.CursorInv) {t : Table} (ht : Table.Decodable t) :
    (t.m ≤ s.bitsLeft ∧ (t.entry (natOfBits (s.streamBits s.pos t.m))).len ≠ 0 ∧
        ∃ u, decodeSym t s = .ok (t.entry (natOfBits (s.streamBits s.pos t.m))).sym u ∧
          s.Moved u (t.entry (natOfBits (s.streamBits s.pos t.m))).len) ∨
      (s.bitsLeft < t.m ∧ ∃ u, decodeSym t s = .raised .truncatedStream u ∧ s.Moved u 0) ∨
      (t.m ≤ s.bitsLeft ∧ (t.entry (natOfBits (s.streamBits s.pos t.m))).len = 0 ∧
        ∃ u, decodeSym t s = .raised .invalidSymbol u ∧ s.Moved u 0) := by
  unfold decodeSym
  rcases peek_spec h (State.peekable_of_le h (n := t.m) (by have := ht.1; omega)) with
    ⟨hl, u, he, hu, hcu, -⟩ | ⟨hl, u, he, hu⟩
  · by_cases hz : (t.entry (natOfBits (s.streamBits s.pos t.m))).len = 0
    · exact .inr (.inr ⟨hl, hz, u, by rw [he, Res.bind_ok, if_pos hz], hu⟩)
    · obtain ⟨hd, hm⟩ := discard_spec hu.cursor (Nat.le_trans (ht.2 _) hcu)
      refine .inl ⟨hl, hz, _, by rw [he, Res.bind_ok, if_neg hz, hd, Res.bind_ok], ?_⟩
      have := hu.trans hm
      rwa [Nat.zero_add] at this
  · exact .inr (.inl ⟨hl, u, by rw [he, Res.bind_raised], hu⟩)

end Sys2Proof.Machine
end

