-- ==== Sys2Proof/Laws/Huffman.lean ====
section
/-! SUPPORT. Canonical codes and the tables `BUILD` makes of them (R161 to R171): where each code stands among the
16-bit code words, why no code is a prefix of another, and what each entry of a built table holds. -/

namespace Sys2Proof

open Machine (canonicalCode)

/-! ## Reversing bits -/

theorem revBits_lt (n v : Nat) : revBits n v < 2 ^ n := by
  induction n generalizing v with
  | zero => simp [revBits]
  | succ n ih =>
    have h1 := ih (v / 2)
    have h2 : v % 2 * 2 ^ n ≤ 2 ^ n := by
      rcases Nat.mod_two_eq_zero_or_one v with h | h <;> simp [h]
    rw [revBits, Nat.pow_succ]
    omega

/-- The first `a` bits of an index, reversed, are the high part of the whole index reversed. -/
theorem revBits_add (a b v : Nat) : revBits (a + b) v = revBits a (v % 2 ^ a) * 2 ^ b + revBits b (v / 2 ^ a) := by
  induction a generalizing v with
  | zero => simp [revBits]
  | succ a ih =>
    have h1 : v % 2 ^ (a + 1) % 2 = v % 2 := Nat.mod_mod_of_dvd _ ⟨2 ^ a, by rw [Nat.pow_succ, Nat.mul_comm]⟩
    have h2 : v % 2 ^ (a + 1) / 2 = v / 2 % 2 ^ a := by
      rw [Nat.pow_succ, Nat.mul_comm, Nat.mod_mul_right_div_self]
    have h3 : v / 2 ^ (a + 1) = v / 2 / 2 ^ a := by
      rw [Nat.div_div_eq_div_mul, Nat.pow_succ, Nat.mul_comm]
    rw [Nat.add_right_comm, revBits, revBits, ih, h1, h2, h3, Nat.add_mul, Nat.pow_add, ← Nat.mul_assoc, Nat.add_assoc]

theorem revBits_mod (n v : Nat) : revBits n (v % 2 ^ n) = revBits n v := by
  have := revBits_add n 0 v
  simpa [revBits] using this.symm

theorem revBits_succ_high (n v : Nat) : revBits (n + 1) v = revBits n (v % 2 ^ n) * 2 + v / 2 ^ n % 2 := by
  rw [revBits_add n 1 v]
  simp [revBits]

theorem revBits_revBits {n v : Nat} (h : v < 2 ^ n) : revBits n (revBits n v) = v := by
  induction n generalizing v with
  | zero => simp at h; simp [revBits, h]
  | succ n ih =>
    have hlt := revBits_lt n (v / 2)
    have hv : revBits (n + 1) v = v % 2 * 2 ^ n + revBits n (v / 2) := rfl
    rw [revBits_succ_high, hv]
    have hmod : (v % 2 * 2 ^ n + revBits n (v / 2)) % 2 ^ n = revBits n (v / 2) := by
      rw [Nat.add_comm, Nat.add_mul_mod_self_right, Nat.mod_eq_of_lt hlt]
    have hdiv : (v % 2 * 2 ^ n + revBits n (v / 2)) / 2 ^ n = v % 2 := by
      rw [Nat.add_comm, Nat.add_mul_div_right _ _ (Nat.two_pow_pos n), Nat.div_eq_of_lt hlt, Nat.zero_add]
    rw [hmod, hdiv, ih (by rw [Nat.pow_succ] at h; omega)]
    omega

/-! ## Counting -/

theorem countEq_append (l : Nat) (a b : List Nat) : countEq l (a ++ b) = countEq l a + countEq l b := by
  induction a with
  | nil => simp [countEq]
  | cons x a ih =>
    rw [List.cons_append, countEq, countEq, ih]
    split <;> omega

/-- A symbol stands after all earlier ones of its length. -/
theorem countEq_take_lt {l : Nat} {lens : List Nat} {s t : Nat} (hs : s < lens.length) (hl : lens.getD s 0 = l)
    (hst : s < t) : countEq l (lens.take s) < countEq l (lens.take t) := by
  have hsplit : lens.take t = lens.take s ++ (lens.take t).drop s := by
    have := (List.take_append_drop s (lens.take t)).symm
    rwa [List.take_take, Nat.min_eq_left (by omega)] at this
  have hhead : (lens.take t).drop s = l :: (lens.take t).drop (s + 1) := by
    rw [List.drop_eq_getElem_cons (by rw [List.length_take]; omega), List.getElem_take]
    rw [List.getD_eq_getElem _ _ hs] at hl
    rw [hl]
  rw [hsplit, countEq_append, hhead, countEq, if_pos rfl]
  omega

theorem countEq_take_length (l : Nat) (lens : List Nat) : countEq l (lens.take lens.length) = countEq l lens := by
  rw [List.take_length]

/-- The `j`-th symbol of a length exists. -/
theorem exists_symbol {l j : Nat} {lens : List Nat} (h : j < countEq l lens) :
    ∃ s, s < lens.length ∧ lens.getD s 0 = l ∧ countEq l (lens.take s) = j := by
  induction lens generalizing j with
  | nil => simp [countEq] at h
  | cons x rest ih =>
    rw [countEq] at h
    by_cases hx : x = l
    · rw [if_pos hx] at h
      cases j with
      | zero => exact ⟨0, by simp, by simpa using hx, by simp [countEq]⟩
      | succ j =>
        obtain ⟨s, hs, hl, hc⟩ := ih (j := j) (by omega)
        exact ⟨s + 1, by simpa using hs, by simpa using hl, by simp [countEq, hx, hc]⟩
    · rw [if_neg hx] at h
      obtain ⟨s, hs, hl, hc⟩ := ih h
      exact ⟨s + 1, by simpa using hs, by simpa using hl, by simp [countEq, hx, hc]⟩

theorem le_maxLen {lens : List Nat} {l : Nat} (h : l ∈ lens) : l ≤ maxLen lens := by
  induction lens with
  | nil => simp at h
  | cons x rest ih =>
    rw [maxLen]
    rcases List.mem_cons.mp h with rfl | h
    · exact Nat.le_max_left ..
    · exact Nat.le_trans (ih h) (Nat.le_max_right ..)

theorem maxLen_le {lens : List Nat} {n : Nat} (h : ∀ l ∈ lens, l ≤ n) : maxLen lens ≤ n := by
  induction lens with
  | nil => exact Nat.zero_le n
  | cons x rest ih =>
    exact Nat.max_le.mpr ⟨h x (by simp), ih fun l hl => h l (by simp [hl])⟩

/-! ## Where the codes stand among the 16-bit code words -/

theorem kraftUpTo_mono {lens : List Nat} {n m : Nat} (h : n ≤ m) : kraftUpTo lens n ≤ kraftUpTo lens m := by
  induction m with
  | zero => rw [Nat.le_zero.mp h]
  | succ m ih =>
    rcases Nat.eq_or_lt_of_le h with rfl | h
    · exact Nat.le_refl _
    · exact Nat.le_trans (ih (by omega)) (by rw [kraftUpTo]; omega)

/-- The first code of length `n + 1` begins where the shorter codes end. -/
theorem firstCode_eq (lens : List Nat) {n : Nat} (h : n < 16) :
    firstCode lens (n + 1) * 2 ^ (16 - (n + 1)) = kraftUpTo lens n := by
  induction n with
  | zero => simp [firstCode, lenCount, kraftUpTo]
  | succ n ih =>
    rw [firstCode, kraftUpTo, ← ih (by omega), Config.maxBits]
    have : 2 ^ (16 - (n + 1)) = 2 * 2 ^ (16 - (n + 1 + 1)) := by
      rw [← Nat.pow_succ']; congr 1; omega
    rw [this, Nat.mul_assoc, Nat.add_mul]

/-- Symbol `s` has a code. -/
def HasCode (lens : List Nat) (s l : Nat) : Prop := s < lens.length ∧ lens.getD s 0 = l ∧ 1 ≤ l ∧ l ≤ 16

theorem HasCode.count_lt {lens : List Nat} {s l : Nat} (h : HasCode lens s l) :
    countEq l (lens.take s) < lenCount lens l := by
  rw [lenCount, if_neg (by have := h.2.2.1; omega), ← countEq_take_length l lens]
  exact countEq_take_lt h.1 h.2.1 h.1

/-- The code words that begin with the code of `s` lie between the shorter codes and the longer ones. -/
theorem HasCode.bounds {lens : List Nat} {s l : Nat} (h : HasCode lens s l) :
    kraftUpTo lens (l - 1) ≤ canonicalCode lens s * 2 ^ (16 - l) ∧
      canonicalCode lens s * 2 ^ (16 - l) + 2 ^ (16 - l) ≤ kraftUpTo lens l := by
  obtain ⟨n, rfl⟩ : ∃ n, l = n + 1 := ⟨l - 1, by have := h.2.2.1; omega⟩
  have hc := h.count_lt
  have hf := firstCode_eq lens (n := n) (by have := h.2.2.2; omega)
  have hcode : canonicalCode lens s = firstCode lens (n + 1) + countEq (n + 1) (lens.take s) := by
    rw [canonicalCode, h.2.1]
  rw [hcode, Nat.add_sub_cancel, Nat.add_mul, hf, kraftUpTo, Config.maxBits]
  have := Nat.mul_le_mul_right (2 ^ (16 - (n + 1))) (Nat.succ_le_of_lt hc)
  rw [Nat.succ_mul] at this
  omega

/-- When the lengths are not over-subscribed a code fits its length (R165). -/
theorem HasCode.code_lt {lens : List Nat} {s l : Nat} (h : HasCode lens s l) (hk : kraft lens ≤ 2 ^ 16) :
    canonicalCode lens s < 2 ^ l := by
  have hb := h.bounds.2
  have hle : kraftUpTo lens l ≤ 2 ^ 16 := Nat.le_trans (kraftUpTo_mono h.2.2.2) hk
  have hpow : (2 : Nat) ^ 16 = 2 ^ l * 2 ^ (16 - l) := by
    rw [← Nat.pow_add]; congr 1; have := h.2.2.2; omega
  have : (canonicalCode lens s + 1) * 2 ^ (16 - l) ≤ 2 ^ l * 2 ^ (16 - l) := by
    rw [Nat.succ_mul, ← hpow]; omega
  exact Nat.lt_of_succ_le (Nat.le_of_mul_le_mul_right this (Nat.two_pow_pos _))

/-- Two codes never claim the same code word (R164): the words of one all lie before the words of the other. -/
theorem HasCode.before {lens : List Nat} {s t l k : Nat} (hs : HasCode lens s l) (ht : HasCode lens t k)
    (h : l < k ∨ l = k ∧ s < t) :
    canonicalCode lens s * 2 ^ (16 - l) + 2 ^ (16 - l) ≤ canonicalCode lens t * 2 ^ (16 - k) := by
  rcases h with h | ⟨rfl, h⟩
  · exact Nat.le_trans hs.bounds.2 (Nat.le_trans (kraftUpTo_mono (by omega)) ht.bounds.1)
  · rw [← Nat.succ_mul]
    refine Nat.mul_le_mul_right _ ?_
    rw [canonicalCode, canonicalCode, hs.2.1, ht.2.1]
    have := countEq_take_lt hs.1 hs.2.1 h
    omega

/-- The code of `s` is the prefix, in stream order, of table index `i`. -/
def Matches (lens : List Nat) (s l i : Nat) : Prop := revBits l (i % 2 ^ l) = canonicalCode lens s

/-- An index that a code matches is one of that code's words. -/
theorem Matches.word {lens : List Nat} {s l i : Nat} (h : Matches lens s l i) (hl : l ≤ 16) :
    canonicalCode lens s * 2 ^ (16 - l) ≤ revBits 16 i ∧
      revBits 16 i < canonicalCode lens s * 2 ^ (16 - l) + 2 ^ (16 - l) := by
  have := revBits_add l (16 - l) i
  rw [Nat.add_sub_cancel' hl, h] at this
  have hlt := revBits_lt (16 - l) (i / 2 ^ l)
  omega

theorem Matches.of_word {lens : List Nat} {s l i : Nat} (hl : l ≤ 16)
    (h : canonicalCode lens s * 2 ^ (16 - l) ≤ revBits 16 i ∧
      revBits 16 i < canonicalCode lens s * 2 ^ (16 - l) + 2 ^ (16 - l)) : Matches lens s l i := by
  have hr := revBits_add l (16 - l) i
  rw [Nat.add_sub_cancel' hl] at hr
  have hlt := revBits_lt (16 - l) (i / 2 ^ l)
  have h1 : revBits 16 i / 2 ^ (16 - l) = revBits l (i % 2 ^ l) := by
    rw [hr, Nat.add_comm, Nat.add_mul_div_right _ _ (Nat.two_pow_pos _), Nat.div_eq_of_lt hlt, Nat.zero_add]
  have h2 : revBits 16 i / 2 ^ (16 - l) = canonicalCode lens s :=
    Nat.div_eq_of_lt_le h.1 (by rw [Nat.succ_mul]; exact h.2)
  exact h1.symm.trans h2

/-- No index matches two codes (R171). -/
theorem Matches.unique {lens : List Nat} {s t l k i : Nat} (hs : HasCode lens s l) (ht : HasCode lens t k)
    (ms : Matches lens s l i) (mt : Matches lens t k i) : s = t := by
  have ws := ms.word hs.2.2.2
  have wt := mt.word ht.2.2.2
  rcases Nat.lt_trichotomy l k with h | h | h
  · have := hs.before ht (.inl h); omega
  · rcases Nat.lt_trichotomy s t with h' | h' | h'
    · have := hs.before ht (.inr ⟨h, h'⟩); omega
    · exact h'
    · have := ht.before hs (.inr ⟨h.symm, h'⟩); omega
  · have := ht.before hs (.inl h); omega

/-- The words below the Kraft sum are all taken: the words of length `n` or less fill an initial segment. -/
theorem exists_word {lens : List Nat} {n w : Nat} (hn : n ≤ 16) (h : w < kraftUpTo lens n) :
    ∃ s l, HasCode lens s l ∧ l ≤ n ∧ canonicalCode lens s * 2 ^ (16 - l) ≤ w ∧
      w < canonicalCode lens s * 2 ^ (16 - l) + 2 ^ (16 - l) := by
  induction n with
  | zero => simp [kraftUpTo] at h
  | succ n ih =>
    by_cases hw : w < kraftUpTo lens n
    · obtain ⟨s, l, hs, hl, hr⟩ := ih (by omega) hw
      exact ⟨s, l, hs, by omega, hr⟩
    · rw [kraftUpTo, Config.maxBits] at h
      have hlt : (w - kraftUpTo lens n) / 2 ^ (16 - (n + 1)) < lenCount lens (n + 1) := by
        refine Nat.div_lt_of_lt_mul ?_
        rw [Nat.mul_comm]
        omega
      rw [lenCount, if_neg (by omega)] at hlt
      obtain ⟨s, hs, hl, hc⟩ := exists_symbol hlt
      have hf := firstCode_eq lens (n := n) (by omega)
      have hcode : canonicalCode lens s * 2 ^ (16 - (n + 1)) =
          kraftUpTo lens n + (w - kraftUpTo lens n) / 2 ^ (16 - (n + 1)) * 2 ^ (16 - (n + 1)) := by
        rw [canonicalCode, hl, hc, Nat.add_mul, hf]
      have hdm := Nat.div_add_mod (w - kraftUpTo lens n) (2 ^ (16 - (n + 1)))
      rw [Nat.mul_comm] at hdm
      have hmod := Nat.mod_lt (w - kraftUpTo lens n) (Nat.two_pow_pos (16 - (n + 1)))
      exact ⟨s, n + 1, ⟨hs, hl, by omega, hn⟩, Nat.le_refl _, by omega, by omega⟩

/-! ## The list of assigned codes -/

theorem mem_classCodes {l s c : Nat} {lens : List Nat} {x : Code} :
    x ∈ classCodes l s c lens ↔
      x.len = l ∧ ∃ j, j < lens.length ∧ x.sym = s + j ∧ lens.getD j 0 = l ∧ x.code = c + countEq l (lens.take j) := by
  induction lens generalizing s c with
  | nil => simp [classCodes]
  | cons y rest ih =>
    obtain ⟨xs, xl, xc⟩ := x
    have hshift : (∃ j, j < (y :: rest).length ∧ xs = s + j ∧ (y :: rest).getD j 0 = l ∧
          xc = c + countEq l ((y :: rest).take j)) ↔
        (xs = s ∧ y = l ∧ xc = c) ∨ ∃ j, j < rest.length ∧ xs = s + 1 + j ∧ rest.getD j 0 = l ∧
          xc = (if y = l then c + 1 else c) + countEq l (rest.take j) := by
      constructor
      · rintro ⟨j, hj, h1, h2, h3⟩
        cases j with
        | zero => exact .inl ⟨by simpa using h1, by simpa using h2, by simpa [countEq] using h3⟩
        | succ j =>
          refine .inr ⟨j, by simpa using hj, by omega, by simpa using h2, ?_⟩
          rw [h3, List.take_succ_cons, countEq]
          split <;> omega
      · rintro (⟨h1, h2, h3⟩ | ⟨j, hj, h1, h2, h3⟩)
        · exact ⟨0, by simp, by simpa using h1, by simpa using h2, by simpa [countEq] using h3⟩
        · refine ⟨j + 1, by simpa using hj, by omega, by simpa using h2, ?_⟩
          rw [h3, List.take_succ_cons, countEq]
          split <;> omega
    rw [classCodes]
    by_cases hy : y = l
    · rw [if_pos hy, List.mem_cons, ih, hshift, if_pos hy]
      simp only [Code.mk.injEq]
      constructor
      · rintro (⟨rfl, rfl, rfl⟩ | ⟨h, h'⟩)
        · exact ⟨rfl, .inl ⟨rfl, hy, rfl⟩⟩
        · exact ⟨h, .inr h'⟩
      · rintro ⟨h, ⟨h1, -, h3⟩ | h'⟩
        · exact .inl ⟨h1, h, h3⟩
        · exact .inr ⟨h, h'⟩
    · rw [if_neg hy, ih, hshift, if_neg hy]
      constructor
      · rintro ⟨h, h'⟩; exact ⟨h, .inr h'⟩
      · rintro ⟨h, ⟨-, h2, -⟩ | h'⟩
        · exact absurd h2 hy
        · exact ⟨h, h'⟩

/-- The assigned codes are the canonical codes of the symbols that have one (R163). -/
theorem mem_codes {lens : List Nat} {x : Code} :
    x ∈ codes lens ↔ HasCode lens x.sym x.len ∧ x.code = canonicalCode lens x.sym := by
  suffices ∀ n, x ∈ codesUpTo lens n ↔ x.len ≤ n ∧ 1 ≤ x.len ∧ x.sym < lens.length ∧ lens.getD x.sym 0 = x.len ∧
      x.code = canonicalCode lens x.sym by
    rw [codes, this, HasCode, Config.maxBits]
    tauto
  intro n
  induction n with
  | zero =>
    simp only [codesUpTo, List.not_mem_nil, false_iff]
    omega
  | succ n ih =>
    rw [codesUpTo, List.mem_append, ih, mem_classCodes]
    constructor
    · rintro (⟨h1, h2⟩ | ⟨h1, j, hj, hs, hl, hc⟩)
      · exact ⟨by omega, h2⟩
      · obtain rfl : x.sym = j := by omega
        refine ⟨by omega, by omega, hj, by rw [hl, h1], ?_⟩
        rw [hc, canonicalCode, hl]
    · rintro ⟨h1, h2, h3, h4, h5⟩
      by_cases hn : x.len = n + 1
      · refine .inr ⟨hn, x.sym, h3, by omega, by rw [h4, hn], ?_⟩
        rw [h5, canonicalCode, h4, hn]
      · exact .inl ⟨by omega, h2, h3, h4, h5⟩

/-! ## Built tables -/

/-- `BUILD` refuses exactly the over-subscribed sets (R164, R168). -/
theorem build_eq_none {lens : List Nat} : build lens = none ↔ 2 ^ 16 < kraft lens := by
  unfold build Config.maxBits
  by_cases hk : kraft lens > 2 ^ 16
  · rw [if_pos hk]; exact iff_of_true rfl hk
  · rw [if_neg hk]; exact iff_of_false (by simp) hk

theorem kraft_le_of_build {lens : List Nat} {t : Table} (h : build lens = some t) : kraft lens ≤ 2 ^ 16 := by
  by_contra hc
  rw [build_eq_none.mpr (by omega)] at h
  cases h

theorem build_m {lens : List Nat} {t : Table} (h : build lens = some t) : t.m = maxLen lens := by
  unfold build at h
  split at h
  · cases h
  · cases h; rfl

theorem build_entry {lens : List Nat} {t : Table} (h : build lens = some t) (i : Nat) :
    t.entry i = if i < 2 ^ t.m then entryOf (codes lens) i else Entry.unfilled := by
  have hm := build_m h
  unfold build at h
  split at h
  · cases h
  · cases h
    change ((List.range (2 ^ maxLen lens)).map (entryOf (codes lens))).getD i Entry.unfilled =
      if i < 2 ^ maxLen lens then _ else _
    split
    · next hi => simp [List.getD_eq_getElem?_getD, hi]
    · next hi => simp [List.getD_eq_getElem?_getD, hi]

/-- A filled entry is the code whose words hold its index (R169, one direction). -/
theorem entryOf_filled {lens : List Nat} {i : Nat} (h : (entryOf (codes lens) i).len ≠ 0) :
    HasCode lens (entryOf (codes lens) i).sym (entryOf (codes lens) i).len ∧
      Matches lens (entryOf (codes lens) i).sym (entryOf (codes lens) i).len i := by
  unfold entryOf at h ⊢
  split
  · next c hc =>
    have hmem := mem_codes.mp (List.mem_of_find?_eq_some hc)
    have hp := List.find?_some hc
    simp only [beq_iff_eq] at hp
    exact ⟨hmem.1, hp.trans hmem.2⟩
  · next hc => rw [hc] at h; exact absurd rfl h

/-- The code whose words hold an index is its entry (R169, the other direction). -/
theorem entryOf_eq {lens : List Nat} {s l i : Nat} (hs : HasCode lens s l) (hm : Matches lens s l i) :
    entryOf (codes lens) i = ⟨s, l⟩ := by
  have hne : (codes lens).find? (fun c => revBits c.len (i % 2 ^ c.len) == c.code) ≠ none := by
    intro hnone
    have := List.find?_eq_none.mp hnone ⟨s, l, canonicalCode lens s⟩ (mem_codes.mpr ⟨hs, rfl⟩)
    exact this (beq_iff_eq.mpr hm)
  unfold entryOf
  split
  · next c hc =>
    have hmem := mem_codes.mp (List.mem_of_find?_eq_some hc)
    have hp := List.find?_some hc
    simp only [beq_iff_eq] at hp
    have hsym := Matches.unique hmem.1 hs (hp.trans hmem.2) hm
    have hlen : c.len = l := by rw [← hmem.1.2.1, hsym, hs.2.1]
    rw [hsym, hlen]
  · next hc => exact absurd hc hne

/-- What an entry of a built table holds (R169). -/
theorem build_entry_iff {lens : List Nat} {t : Table} (h : build lens = some t) {i s l : Nat} (hi : i < 2 ^ t.m)
    (hl : l ≠ 0) : t.entry i = ⟨s, l⟩ ↔ HasCode lens s l ∧ Matches lens s l i := by
  rw [build_entry h, if_pos hi]
  constructor
  · intro he
    have := entryOf_filled (lens := lens) (i := i) (by rw [he]; exact hl)
    rwa [he] at this
  · exact fun hm => entryOf_eq hm.1 hm.2

/-- Every entry of a built table is a code of its alphabet or unfilled. -/
theorem build_entry_cases {lens : List Nat} {t : Table} (h : build lens = some t) (i : Nat) :
    t.entry i = Entry.unfilled ∨ HasCode lens (t.entry i).sym (t.entry i).len ∧
      Matches lens (t.entry i).sym (t.entry i).len i := by
  rw [build_entry h]
  split
  · by_cases hz : (entryOf (codes lens) i).len = 0
    · left
      unfold entryOf at hz ⊢
      split
      · next c hc =>
        rw [hc] at hz
        have := (mem_codes.mp (List.mem_of_find?_eq_some hc)).1.2.2.1
        change c.len = 0 at hz
        omega
      · rfl
    · exact .inr (entryOf_filled hz)
  · exact .inl rfl

theorem HasCode.le_maxLen {lens : List Nat} {s l : Nat} (h : HasCode lens s l) : l ≤ maxLen lens := by
  refine Sys2Proof.le_maxLen ?_
  rw [← h.2.1, List.getD_eq_getElem _ _ h.1]
  exact List.getElem_mem h.1

/-- A built table never asks `DECODE` to consume more than it looked at (R173). -/
theorem build_decodable {lens : List Nat} {t : Table} (h : build lens = some t) (hl : ∀ l ∈ lens, l ≤ 16) :
    Machine.Table.Decodable t := by
  refine ⟨by rw [build_m h]; exact maxLen_le hl, fun i => ?_⟩
  rcases build_entry_cases h i with he | ⟨hc, -⟩
  · rw [he]; exact Nat.zero_le _
  · rw [build_m h]; exact hc.le_maxLen

/-- A built table has the shape and the field widths of R36. -/
theorem build_fits {lens : List Nat} {t : Table} (h : build lens = some t) (hl : ∀ l ∈ lens, l ≤ 16)
    (hn : lens.length ≤ 288) : Machine.Table.Fits t := by
  have hd := build_decodable h hl
  have hsize : t.ent.length = 2 ^ t.m := by
    unfold build at h
    split at h
    · cases h
    · cases h; simp
  refine ⟨hd.1, hsize, fun e he => ?_⟩
  obtain ⟨i, hi, rfl⟩ := List.mem_iff_getElem.mp he
  have hent : t.entry i = t.ent[i] := by rw [Table.entry, List.getD_eq_getElem _ _ hi]
  rcases build_entry_cases h i with hu | ⟨hc, -⟩
  · rw [← hent, hu]; exact ⟨by decide, by decide⟩
  · rw [← hent]
    have := hc.1
    exact ⟨by omega, hc.2.2.2⟩

/-- A complete set leaves no entry unfilled (R171). -/
theorem build_complete {lens : List Nat} {t : Table} (h : build lens = some t) (hk : kraft lens = 2 ^ 16) {i : Nat}
    (hi : i < 2 ^ t.m) : (t.entry i).len ≠ 0 := by
  obtain ⟨s, l, hs, -, hw⟩ := exists_word (lens := lens) (n := 16) (w := revBits 16 i) (Nat.le_refl _)
    (by rw [show kraftUpTo lens 16 = 2 ^ 16 from hk]; exact revBits_lt 16 i)
  rw [(build_entry_iff h hi (by have := hs.2.2.1; omega)).mpr ⟨hs, Matches.of_word hs.2.2.2 hw⟩]
  have := hs.2.2.1
  change l ≠ 0
  omega

/-! ## The fixed tables (R204, R205) -/

theorem kraft_fixedLLLens : kraft fixedLLLens = 2 ^ 16 := by decide +kernel

theorem kraft_fixedDLens : kraft fixedDLens = 2 ^ 16 := by decide +kernel

theorem build_of_kraft {lens : List Nat} (h : kraft lens ≤ 2 ^ 16) :
    build lens = some ((build lens).getD Table.empty) := by
  cases hb : build lens with
  | none => exact absurd (build_eq_none.mp hb) (by omega)
  | some t => rfl

theorem build_fixedLLLens : build fixedLLLens = some fixedLLTable :=
  build_of_kraft (Nat.le_of_eq kraft_fixedLLLens)

theorem build_fixedDLens : build fixedDLens = some fixedDTable :=
  build_of_kraft (Nat.le_of_eq kraft_fixedDLens)

theorem fixedLLLens_le : ∀ l ∈ fixedLLLens, l ≤ 16 := by decide +kernel

theorem fixedDLens_le : ∀ l ∈ fixedDLens, l ≤ 16 := by decide

theorem fixedLLTable_fits : Machine.Table.Fits fixedLLTable :=
  build_fits build_fixedLLLens fixedLLLens_le (by decide +kernel)

theorem fixedDTable_fits : Machine.Table.Fits fixedDTable :=
  build_fits build_fixedDLens fixedDLens_le (by decide)

theorem fixedLLTable_decodable : Machine.Table.Decodable fixedLLTable :=
  build_decodable build_fixedLLLens fixedLLLens_le

theorem fixedDTable_decodable : Machine.Table.Decodable fixedDTable :=
  build_decodable build_fixedDLens fixedDLens_le

theorem empty_fits : Machine.Table.Fits Table.empty := ⟨by decide, by decide, by decide⟩

end Sys2Proof
end

