-- ==== Sys2Proof/Laws/Stream.lean ====
section
/-! SUPPORT. The cursor's operations against the decoder's: `TAKE` and `DECODE` read from the machine what `takeField`
and `takeSymbol` read from the bits that remain, and they end where those end. -/

namespace Sys2Proof.Machine

theorem State.length_remaining (s : State) : s.remaining.length = s.bitsLeft := by simp [State.remaining]

theorem State.take_remaining {s : State} {n : Nat} (h : n ≤ s.bitsLeft) :
    s.remaining.take n = s.streamBits s.pos n := s.take_streamBits h

theorem takeField_ok {s : State} {n : Nat} (h : n ≤ s.bitsLeft) :
    takeField n s.remaining = .ok (natOfBits (s.streamBits s.pos n), s.remaining.drop n) := by
  rw [takeField, if_neg (by rw [s.length_remaining]; omega), State.take_remaining h]

theorem takeField_short {s : State} {n : Nat} (h : s.bitsLeft < n) : takeField n s.remaining = .error .truncated := by
  rw [takeField, if_pos (by rw [s.length_remaining]; exact h)]

/-- `TAKE(n)` reads the field `takeField` reads. -/
theorem take_takeField {s : State} (h : s.CursorInv) {n : Nat} (hn : n ≤ 25) :
    (∃ v u, take n s = .ok v u ∧ s.Moved u n ∧ v < 2 ^ n ∧ takeField n s.remaining = .ok (v, u.remaining)) ∨
      (∃ u, take n s = .raised .truncatedStream u ∧ s.Moved u 0 ∧ takeField n s.remaining = .error .truncated) := by
  rcases take_spec h (State.peekable_of_le h hn) with ⟨hl, u, he, hu⟩ | ⟨hl, u, he, hu⟩
  · refine .inl ⟨_, u, he, hu, ?_, by rw [takeField_ok hl, hu.remaining hl]⟩
    simpa using natOfBits_lt (s.streamBits s.pos n)
  · exact .inr ⟨u, he, hu, takeField_short hl⟩

/-- `DECODE(T)` reads the symbol `takeSymbol` reads. -/
theorem decodeSym_takeSymbol {s : State} (h : s.CursorInv) {t : Table} (ht : Table.Decodable t) :
    (∃ i u, decodeSym t s = .ok (t.entry i).sym u ∧ s.Moved u (t.entry i).len ∧ (t.entry i).len ≠ 0 ∧
        takeSymbol t s.remaining = .ok ((t.entry i).sym, u.remaining)) ∨
      (∃ u, decodeSym t s = .raised .truncatedStream u ∧ s.Moved u 0 ∧
        takeSymbol t s.remaining = .error .truncated) ∨
      (∃ u, decodeSym t s = .raised .invalidSymbol u ∧ s.Moved u 0 ∧
        takeSymbol t s.remaining = .error .unfilled) := by
  unfold takeSymbol
  rw [s.length_remaining]
  rcases decodeSym_spec h ht with ⟨hl, hz, u, he, hu⟩ | ⟨hl, u, he, hu⟩ | ⟨hl, hz, u, he, hu⟩
  · refine .inl ⟨_, u, he, hu, hz, ?_⟩
    rw [if_neg (by omega), State.take_remaining hl]
    simp only [hz, if_false]
    rw [hu.remaining (Nat.le_trans (ht.2 _) hl)]
  · exact .inr (.inl ⟨u, he, hu, by rw [if_pos hl]⟩)
  · refine .inr (.inr ⟨u, he, hu, ?_⟩)
    rw [if_neg (by omega), State.take_remaining hl]
    simp only [hz, if_true]

/-- Changing a register that is no cursor register changes nothing about the cursor or the stream. -/
theorem State.CursorInv.congr {s u : State} (h : s.CursorInv) (ha : u.acc = s.acc) (hb : u.bitcnt = s.bitcnt)
    (hi : u.inOff = s.inOff) (hl : u.inLen = s.inLen) (hm : u.inp = s.inp) : u.CursorInv := by
  have hp : u.pos = s.pos := by unfold State.pos; rw [hb, hi]
  refine ⟨by rw [hb]; exact h.count, by rw [ha, hb]; exact h.acc_lt, by rw [hb, hi]; exact h.behind,
    by rw [hi, hl]; exact h.within, fun i hlt => ?_⟩
  rw [ha, hp, h.acc_bits i (by omega)]
  unfold State.streamBit
  rw [hm]

theorem State.remaining_congr {s u : State} (hb : u.bitcnt = s.bitcnt) (hi : u.inOff = s.inOff)
    (hl : u.inLen = s.inLen) (hm : u.inp = s.inp) : u.remaining = s.remaining := by
  simp only [State.remaining, State.bitsLeft, State.pos, State.streamBits, State.streamBit, hb, hi, hl, hm]

end Sys2Proof.Machine
end

