-- ==== Sys2Proof/Laws/Fetch.lean ====
section
/-! SUPPORT. Fetching against decoding: in each context the fetch of the machine answers the element the decoder reads
from the bits that remain, at the position behind it, or the fault the decoder's rejection stands for. -/

namespace Sys2Proof.Machine

/-- The fetch `r` from `s` agrees with what the decoder answers: `n` bits on, at the bits the decoder left over. -/
def Fetched (s : State) (r : Res Instr) (d : Except Reject (Instr × Bits)) : Prop :=
  (∃ i u n, r = .ok i u ∧ s.Moved u n ∧ 1 ≤ n ∧ n ≤ s.bitsLeft ∧ d = .ok (i, u.remaining)) ∨
    (∃ u n, r = .raised .truncatedStream u ∧ s.Moved u n ∧ d = .error .truncated) ∨
    (∃ u n, r = .raised .invalidSymbol u ∧ s.Moved u n ∧ d = .error .unfilled)

/-- A first field, then the rest. -/
theorem Fetched.after_field {s : State} (h : s.CursorInv) {n : Nat} (hn : n ≤ 25) {f : Nat → State → Res Instr}
    {g : Nat → Bits → Except Reject (Instr × Bits)}
    (hf : ∀ v u, v < 2 ^ n → u.CursorInv → Fetched u (f v u) (g v u.remaining)) :
    Fetched s ((take n s).bind f)
      (match takeField n s.remaining with
        | .error r => .error r
        | .ok (v, bs) => g v bs) := by
  rcases take_takeField h hn with ⟨v, u, he, hu, hv, hd⟩ | ⟨u, he, hu, hd⟩
  · rw [he, hd]
    have hl := hu.bitsLeft
    have hle : n ≤ s.bitsLeft := by
      by_contra hc
      rw [takeField_short (by omega)] at hd
      cases hd
    rcases hf v u hv hu.cursor with ⟨i, w, m, h1, h2, h3, h4, h5⟩ | ⟨w, m, h1, h2, h3⟩ | ⟨w, m, h1, h2, h3⟩
    · exact .inl ⟨i, w, n + m, h1, hu.trans h2, by omega, by omega, h5⟩
    · exact .inr (.inl ⟨w, n + m, h1, hu.trans h2, h3⟩)
    · exact .inr (.inr ⟨w, n + m, h1, hu.trans h2, h3⟩)
  · rw [he, hd]
    exact .inr (.inl ⟨u, 0, rfl, hu, rfl⟩)

/-- A last field. -/
theorem Fetched.last_field {s : State} (h : s.CursorInv) {n : Nat} (h1 : 1 ≤ n) (hn : n ≤ 25) (mk : Nat → Instr) :
    Fetched s ((take n s).bind fun v u => .ok (mk v) u)
      (match takeField n s.remaining with
        | .error r => .error r
        | .ok (v, bs) => .ok (mk v, bs)) := by
  rcases take_takeField h hn with ⟨v, u, he, hu, -, hd⟩ | ⟨u, he, hu, hd⟩
  · have hle : n ≤ s.bitsLeft := by
      by_contra hc
      rw [takeField_short (by omega)] at hd
      cases hd
    rw [he, hd]
    exact .inl ⟨_, u, n, rfl, hu, h1, hle, rfl⟩
  · rw [he, hd]
    exact .inr (.inl ⟨u, 0, rfl, hu, rfl⟩)

theorem Fetched.two_fields {s : State} (h : s.CursorInv) {n m : Nat} (hn : n ≤ 25) (h1 : 1 ≤ m) (hm : m ≤ 25)
    (mk : Nat → Nat → Instr) :
    Fetched s ((take n s).bind fun a u => (take m u).bind fun b w => .ok (mk a b) w)
      (takeTwoFields n m mk s.remaining) :=
  Fetched.after_field h hn fun a _ _ hu => Fetched.last_field hu h1 hm (mk a)

theorem fetchZhdr_decode {s : State} (h : s.CursorInv) : Fetched s (fetchZhdr s) (decode .zlib s.remaining) :=
  Fetched.two_fields h (by decide) (by decide) (by decide) zhdrInstr

theorem fetchBhdr_decode {s : State} (h : s.CursorInv) : Fetched s (fetchBhdr s) (decode .block s.remaining) :=
  Fetched.two_fields h (by decide) (by decide) (by decide) bhdrInstr

theorem fetchDynhdr_decode {s : State} (h : s.CursorInv) : Fetched s (fetchDynhdr s) (decode .counts s.remaining) :=
  Fetched.after_field h (by decide) fun a _ _ hu =>
    Fetched.two_fields hu (by decide) (by decide) (by decide) (dynhdrInstr a)

theorem fetchCllen3_decode {s : State} (h : s.CursorInv) : Fetched s (fetchCllen3 s) (decode .cllen s.remaining) :=
  Fetched.last_field h (by decide) (by decide) Instr.cllen3

/-- `ALIGN` drops the padding the decoder drops, whatever its bits. -/
theorem fetchStored_decode {s : State} (h : s.CursorInv) :
    Fetched s (fetchStored s) (decode (.stored (s.bitcnt % 8)) s.remaining) := by
  obtain ⟨he, hm⟩ := align_spec h
  have hle : s.bitcnt % 8 ≤ s.bitsLeft := by have := h.bitsLeft_eq; omega
  have hf : Fetched (s.dropBits (s.bitcnt % 8)) _ _ :=
    Fetched.two_fields hm.cursor (n := 16) (m := 16) (by decide) (by decide) (by decide) storedInstr
  have hd : decode (.stored (s.bitcnt % 8)) s.remaining =
      takeTwoFields 16 16 storedInstr (s.dropBits (s.bitcnt % 8)).remaining := by
    simp only [decode, takeField_ok hle, hm.remaining hle]
  have hr : fetchStored s = (take 16 (s.dropBits (s.bitcnt % 8))).bind fun a u =>
      (take 16 u).bind fun b w => .ok (storedInstr a b) w := by
    rw [fetchStored, he, Res.bind_ok]
  have hb := hm.bitsLeft
  rw [hd, hr]
  rcases hf with ⟨i, w, m, h1, h2, h3, h4, h5⟩ | ⟨w, m, h1, h2, h3⟩ | ⟨w, m, h1, h2, h3⟩
  · exact .inl ⟨i, w, s.bitcnt % 8 + m, h1, hm.trans h2, by omega, by omega, h5⟩
  · exact .inr (.inl ⟨w, s.bitcnt % 8 + m, h1, hm.trans h2, h3⟩)
  · exact .inr (.inr ⟨w, s.bitcnt % 8 + m, h1, hm.trans h2, h3⟩)

/-! ## Symbols -/

theorem clExtra_le (sym : Nat) : clExtra sym ≤ 25 := by unfold clExtra; split <;> decide

theorem llExtra_le (sym : Nat) : llExtra sym ≤ 25 := by
  unfold llExtra
  split
  · next h =>
    obtain ⟨i, rfl⟩ : ∃ i, sym = 257 + i := ⟨sym - 257, by omega⟩
    have : ∀ j, j < 29 → lextra j ≤ 25 := by decide
    rw [Nat.add_sub_cancel_left]
    exact this i (by omega)
  · exact Nat.zero_le _

theorem dExtra_le (d : Nat) : dExtra d ≤ 25 := by
  unfold dExtra
  split
  · next h =>
    have : ∀ j, j < 30 → dextra j ≤ 25 := by decide
    exact this d (by omega)
  · exact Nat.zero_le _

/-- All a symbol fetch can do: a symbol of the table, its extra bits and the element they make; or one of the two
faults; or, where the table holds a symbol outside its alphabet, a refusal. `upd` records the symbol in its register. -/
theorem symbol_decode {s : State} (h : s.CursorInv) {t : Table} (ht : Table.Decodable t) {extra : Nat → Nat}
    (hx : ∀ n, extra n ≤ 25) {mk : Nat → Nat → Option Instr} {upd : Nat → State → State}
    (hcur : ∀ n u, (upd n u).acc = u.acc ∧ (upd n u).bitcnt = u.bitcnt ∧ (upd n u).inOff = u.inOff ∧
      (upd n u).inLen = u.inLen ∧ (upd n u).inp = u.inp)
    (hcomm : ∀ n (u : State) a b i,
      upd n { u with acc := a, bitcnt := b, inOff := i } = { upd n u with acc := a, bitcnt := b, inOff := i }) :
    (∃ i j x u n, (decodeSym t s).bind (fun sym u => (take (extra sym) (upd sym u)).bind fun x w =>
          orSymbolDomain (mk sym x) w) = .ok j u ∧
        mk (t.entry i).sym x = some j ∧ x < 2 ^ extra (t.entry i).sym ∧ (t.entry i).len ≠ 0 ∧
        (upd (t.entry i).sym s).Moved u n ∧ 1 ≤ n ∧ n ≤ s.bitsLeft ∧
        takeSymbolInstr t extra mk s.remaining = .ok (j, u.remaining)) ∨
      (∃ i x, (t.entry i).len ≠ 0 ∧ mk (t.entry i).sym x = none) ∨
      (∃ u v n, (decodeSym t s).bind (fun sym u => (take (extra sym) (upd sym u)).bind fun x w =>
          orSymbolDomain (mk sym x) w) = .raised .truncatedStream u ∧
        State.Moved v u n ∧ (v = s ∨ ∃ sym, v = upd sym s) ∧
        takeSymbolInstr t extra mk s.remaining = .error .truncated) ∨
      (∃ u n, (decodeSym t s).bind (fun sym u => (take (extra sym) (upd sym u)).bind fun x w =>
          orSymbolDomain (mk sym x) w) = .raised .invalidSymbol u ∧ s.Moved u n ∧
        takeSymbolInstr t extra mk s.remaining = .error .unfilled) := by
  unfold takeSymbolInstr
  rcases decodeSym_takeSymbol h ht with ⟨i, u, he, hu, hz, hd⟩ | ⟨u, he, hu, hd⟩ | ⟨u, he, hu, hd⟩
  · rw [he, hd]
    simp only [Res.bind_ok]
    have hle : (t.entry i).len ≤ s.bitsLeft := by
      have h1 := hu.pos
      have h2 := hu.cursor.bitsLeft_eq
      have h3 := hu.cursor.pos_add
      have h4 := hu.cursor.within
      have h5 := hu.inLen
      unfold State.bitsLeft
      omega
    obtain ⟨c1, c2, c3, c4, c5⟩ := hcur (t.entry i).sym u
    have hm : (upd (t.entry i).sym s).Moved (upd (t.entry i).sym u) (t.entry i).len := by
      obtain ⟨d1, d2, d3, d4, d5⟩ := hcur (t.entry i).sym s
      refine ⟨?_, hu.cursor.congr c1 c2 c3 c4 c5, ?_⟩
      · rw [c1, c2, c3]
        conv_lhs => rw [hu.same]
        exact hcomm _ _ _ _ _
      · have := hu.pos
        unfold State.pos at this ⊢
        rw [c2, c3, d2, d3]
        exact this
    have hr : (upd (t.entry i).sym u).remaining = u.remaining := State.remaining_congr c2 c3 c4 c5
    have hb : (upd (t.entry i).sym u).bitsLeft = s.bitsLeft - (t.entry i).len := by
      rw [← State.length_remaining, hr, State.length_remaining, hu.bitsLeft]
    rcases take_takeField hm.cursor (hx (t.entry i).sym) with ⟨x, w, hw, hmw, hv, hf⟩ | ⟨w, hw, hmw, hf⟩
    · have hxl : extra (t.entry i).sym ≤ s.bitsLeft - (t.entry i).len := by
        by_contra hc
        rw [takeField_short (by rw [hb]; omega)] at hf
        cases hf
      rw [hr] at hf
      rw [hw, hf]
      simp only [Res.bind_ok]
      cases hmk : mk (t.entry i).sym x with
      | none => exact .inr (.inl ⟨i, x, hz, hmk⟩)
      | some j => exact .inl ⟨i, j, x, w, _, rfl, hmk, hv, hz, hm.trans hmw, by omega, by omega, rfl⟩
    · rw [hr] at hf
      rw [hw, hf]
      exact .inr (.inr (.inl ⟨w, _, _, rfl, hm.trans hmw, .inr ⟨_, rfl⟩, rfl⟩))
  · rw [he, hd]
    exact .inr (.inr (.inl ⟨u, s, 0, rfl, hu, .inl rfl, rfl⟩))
  · rw [he, hd]
    exact .inr (.inr (.inr ⟨u, 0, rfl, hu, rfl⟩))

/-- `symbol_decode` for the distance symbol of a pair (R267). -/
theorem fetchDist_eq (s : State) : fetchDist s = (decodeSym s.td s).bind fun sym u =>
    (take (dExtra sym) { u with dsym := sym }).bind fun x w => orSymbolDomain (dInstr sym x) w := rfl

/-- `symbol_decode` for a literal/length symbol (R261). -/
theorem fetchLl_eq (s : State) : fetchLl s = (decodeSym s.tll s).bind fun sym u =>
    (take (llExtra sym) { u with sym := sym }).bind fun x w => orSymbolDomain (llInstr sym x) w := rfl

/-- `symbol_decode` for a code-length symbol (R236), unless `CL.REP` comes with no previous length. -/
theorem fetchCl_eq {s : State} (hc : s.CursorInv) (ht : Table.Decodable s.tCl) (h : ¬ s.RepeatsNothing) :
    fetchCl s = (decodeSym s.tCl s).bind fun sym u =>
      (take (clExtra sym) { u with sym := sym }).bind fun x w => orSymbolDomain (clInstr sym x) w := by
  unfold fetchCl
  rcases decodeSym_takeSymbol hc ht with ⟨i, u, he, hu, -, hd⟩ | ⟨u, he, -⟩ | ⟨u, he, -⟩
  · rw [he, Res.bind_ok, Res.bind_ok]
    have hl : u.lidx = s.lidx := by rw [hu.same]
    exact if_neg fun hh => h ⟨hl ▸ hh.2, _, hh.1 ▸ hd⟩
  · rw [he]; rfl
  · rw [he]; rfl

/-- `CL.REP` with no previous length faults before its extra bits are read, there or not (R239, R378). -/
theorem fetchCl_repeatsNothing {s : State} (hc : s.CursorInv) (ht : Table.Decodable s.tCl) (h : s.RepeatsNothing) :
    ∃ u n, s.Moved u n ∧ fetchCl s = .raised .invalidCodeLengths { u with sym := 16 } := by
  obtain ⟨hz, rest, hr⟩ := h
  unfold fetchCl
  rcases decodeSym_takeSymbol hc ht with ⟨i, u, he, hu, -, hd⟩ | ⟨u, -, -, hd⟩ | ⟨u, -, -, hd⟩ <;> rw [hr] at hd
  · have h16 : (s.tCl.entry i).sym = 16 := by injection hd with hp; exact (Prod.mk.inj hp).1.symm
    have hl : u.lidx = 0 := by rw [← hz, hu.same]
    refine ⟨u, _, hu, ?_⟩
    rw [he, Res.bind_ok, h16]
    exact if_pos ⟨rfl, hl⟩
  · cases hd
  · cases hd

end Sys2Proof.Machine
end

