-- ==== Sys2Proof/Laws/Memory.lean ====
section
/-! SUPPORT. The laws of byte memories: a read after a write, what a write leaves alone, the canonical form kept by
every operation, and equality of canonical memories. -/

namespace Sys2Proof

theorem Memory.wfFrom_mono {lo lo' : Nat} {m : Memory} (h : Memory.wfFrom lo m = true) (hle : lo' ≤ lo) :
    Memory.wfFrom lo' m = true := by
  cases m with
  | nil => rfl
  | cons c rest =>
    simp only [Memory.wfFrom, Bool.and_eq_true, decide_eq_true_eq] at h ⊢
    exact ⟨⟨by omega, h.1.2⟩, h.2⟩

/-- Below its first possible cell a memory reads as unlisted. -/
theorem Memory.read_of_lt {lo a : Nat} {m : Memory} (h : Memory.wfFrom lo m = true) (ha : a < lo) :
    m.read a = Memory.unlisted := by
  induction m generalizing lo with
  | nil => rfl
  | cons c rest ih =>
    simp only [Memory.wfFrom, Bool.and_eq_true, decide_eq_true_eq] at h
    rw [Memory.read, if_neg (by omega)]
    exact ih h.2 (by omega)

theorem Memory.wfFrom_cons {lo a : Nat} {b : Byte} {m : Memory} (hlo : lo ≤ a) (h : Memory.wfFrom (a + 1) m = true) :
    Memory.wfFrom lo (Memory.cons a b m) = true := by
  unfold Memory.cons
  split
  · exact Memory.wfFrom_mono h (by omega)
  · simp [Memory.wfFrom, *]

theorem Memory.read_cons {a : Nat} {b : Byte} {m : Memory} (h : Memory.wfFrom (a + 1) m = true) (x : Nat) :
    (Memory.cons a b m).read x = if x = a then b else m.read x := by
  unfold Memory.cons
  by_cases hb : b = Memory.unlisted
  · rw [if_pos hb]
    split
    · next hx => rw [hb, hx]; exact Memory.read_of_lt h (by omega)
    · rfl
  · rw [if_neg hb, Memory.read]
    by_cases hx : a = x
    · rw [if_pos hx, if_pos hx.symm]
    · rw [if_neg hx, if_neg (Ne.symm hx)]

/-! ## Writing one byte -/

theorem Memory.wfFrom_write {lo a : Nat} {m : Memory} (h : Memory.wfFrom lo m = true) (ha : lo ≤ a) (b : Byte) :
    Memory.wfFrom lo (m.write a b) = true := by
  induction m generalizing lo with
  | nil => exact Memory.wfFrom_cons ha rfl
  | cons c rest ih =>
    obtain ⟨k, v⟩ := c
    have hw := h
    simp only [Memory.wfFrom, Bool.and_eq_true, decide_eq_true_eq] at h
    unfold Memory.write
    split
    · refine Memory.wfFrom_cons ha ?_
      simp only [Memory.wfFrom, Bool.and_eq_true, decide_eq_true_eq]
      exact ⟨⟨by omega, h.1.2⟩, h.2⟩
    · split
      · next hk => exact Memory.wfFrom_cons ha (hk ▸ h.2)
      · simp only [Memory.wfFrom, Bool.and_eq_true, decide_eq_true_eq]
        exact ⟨h.1, ih h.2 (by omega)⟩

/-- A write keeps the canonical form. -/
theorem Memory.wf_write {m : Memory} (h : m.wf = true) (a : Nat) (b : Byte) : (m.write a b).wf = true :=
  Memory.wfFrom_write h (Nat.zero_le a) b

/-- A read after a write: the byte written at its address, and every other byte as before. -/
theorem Memory.read_write {m : Memory} (h : m.wf = true) (a : Nat) (b : Byte) (x : Nat) :
    (m.write a b).read x = if x = a then b else m.read x := by
  suffices ∀ lo, Memory.wfFrom lo m = true → (m.write a b).read x = if x = a then b else m.read x from this 0 h
  induction m with
  | nil => exact fun _ _ => Memory.read_cons rfl x
  | cons c rest ih =>
    obtain ⟨k, v⟩ := c
    intro lo hw
    have hrest := hw
    simp only [Memory.wfFrom, Bool.and_eq_true, decide_eq_true_eq] at hrest
    unfold Memory.write
    split
    · refine Memory.read_cons ?_ x
      simp only [Memory.wfFrom, Bool.and_eq_true, decide_eq_true_eq]
      exact ⟨⟨by omega, hrest.1.2⟩, hrest.2⟩
    · split
      · next hk =>
        rw [Memory.read_cons (hk ▸ hrest.2)]
        by_cases hx : x = a
        · rw [if_pos hx, if_pos hx]
        · rw [if_neg hx, if_neg hx, Memory.read, if_neg (by omega)]
      · next hk =>
        rw [Memory.read, Memory.read]
        by_cases hx : k = x
        · rw [if_pos hx, if_pos hx, if_neg (by omega)]
        · rw [if_neg hx, if_neg hx]
          exact ih (Memory.wfFrom_mono hrest.2 (Nat.zero_le _)) _ hrest.2

/-! ## Filling a range -/

theorem Memory.wfFrom_fill (f : Nat → Byte) {n k : Nat} {m : Memory} (h : Memory.wfFrom (n + k) m = true) :
    Memory.wfFrom n (Memory.fill f n k m) = true := by
  induction k generalizing n with
  | zero => exact h
  | succ k ih => exact Memory.wfFrom_cons (Nat.le_refl n) (ih (by rwa [Nat.add_assoc, Nat.add_comm 1 k]))

theorem Memory.read_fill (f : Nat → Byte) {n k : Nat} {m : Memory} (h : Memory.wfFrom (n + k) m = true) (x : Nat) :
    (Memory.fill f n k m).read x = if n ≤ x ∧ x < n + k then f x else m.read x := by
  induction k generalizing n with
  | zero => rw [if_neg (by omega)]; rfl
  | succ k ih =>
    have h' : Memory.wfFrom (n + 1 + k) m = true := by rwa [Nat.add_assoc, Nat.add_comm 1 k]
    rw [Memory.fill, Memory.read_cons (Memory.wfFrom_fill f h'), ih h']
    by_cases hx : x = n
    · rw [if_pos hx, if_pos (by omega), hx]
    · rw [if_neg hx]
      by_cases hr : n ≤ x ∧ x < n + (k + 1)
      · rw [if_pos hr, if_pos (by omega)]
      · rw [if_neg hr, if_neg (by omega)]

theorem Memory.wfFrom_filter {lo cap : Nat} {m : Memory} (h : Memory.wfFrom lo m = true) :
    Memory.wfFrom (max lo cap) (m.filter (fun c => decide (cap ≤ c.1))) = true := by
  induction m generalizing lo with
  | nil => rfl
  | cons c rest ih =>
    simp only [Memory.wfFrom, Bool.and_eq_true, decide_eq_true_eq] at h
    have hr := ih h.2
    rw [List.filter_cons]
    split
    · next hc =>
      simp only [decide_eq_true_eq] at hc
      simp only [Memory.wfFrom, Bool.and_eq_true, decide_eq_true_eq]
      exact ⟨⟨by omega, h.1.2⟩, Memory.wfFrom_mono hr (by omega)⟩
    · exact Memory.wfFrom_mono hr (by omega)

theorem Memory.read_filter {cap x : Nat} (m : Memory) (hx : cap ≤ x) :
    Memory.read (m.filter (fun c => decide (cap ≤ c.1))) x = m.read x := by
  induction m with
  | nil => rfl
  | cons c rest ih =>
    rw [List.filter_cons]
    split
    · rw [Memory.read, Memory.read, ih]
    · next hc =>
      simp only [decide_eq_true_eq] at hc
      rw [Memory.read, if_neg (by omega), ih]

theorem Memory.wf_overwriteBelow {m : Memory} (h : m.wf = true) (cap : Nat) (f : Nat → Byte) :
    (Memory.overwriteBelow cap f m).wf = true :=
  Memory.wfFrom_fill f (Memory.wfFrom_mono (Memory.wfFrom_filter (cap := cap) h) (by omega))

/-- Overwriting below `cap`: the given bytes there, every other byte as before. -/
theorem Memory.read_overwriteBelow {m : Memory} (h : m.wf = true) (cap : Nat) (f : Nat → Byte) (x : Nat) :
    (Memory.overwriteBelow cap f m).read x = if x < cap then f x else m.read x := by
  rw [Memory.overwriteBelow, Memory.read_fill f (Memory.wfFrom_mono (Memory.wfFrom_filter (cap := cap) h) (by omega))]
  by_cases hx : x < cap
  · rw [if_pos (by omega), if_pos hx]
  · rw [if_neg (by omega), if_neg hx, Memory.read_filter m (by omega)]

/-! ## A memory made of a list of bytes -/

theorem Memory.wfFrom_ofBytes (n : Nat) (bs : List Byte) : Memory.wfFrom n (Memory.ofBytes n bs) = true := by
  induction bs generalizing n with
  | nil => rfl
  | cons b rest ih => exact Memory.wfFrom_cons (Nat.le_refl n) (ih (n + 1))

theorem Memory.wf_ofBytes (n : Nat) (bs : List Byte) : (Memory.ofBytes n bs).wf = true :=
  Memory.wfFrom_mono (Memory.wfFrom_ofBytes n bs) (Nat.zero_le n)

theorem Memory.read_ofBytes (n : Nat) (bs : List Byte) (i : Nat) :
    (Memory.ofBytes n bs).read (n + i) = bs.getD i Memory.unlisted := by
  induction bs generalizing n i with
  | nil => rfl
  | cons b rest ih =>
    rw [Memory.ofBytes, Memory.read_cons (Memory.wfFrom_ofBytes (n + 1) rest)]
    cases i with
    | zero => simp
    | succ i => rw [if_neg (by omega), Nat.add_comm i 1, ← Nat.add_assoc, ih, Nat.add_comm 1 i]; rfl

/-! ## Equal memories are equal data -/

/-- Two canonical memories that read alike at every address are the same list. -/
theorem Memory.ext {lo : Nat} {m m' : Memory} (h : Memory.wfFrom lo m = true) (h' : Memory.wfFrom lo m' = true)
    (hr : ∀ a, m.read a = m'.read a) : m = m' := by
  induction m generalizing lo m' with
  | nil =>
    cases m' with
    | nil => rfl
    | cons c rest =>
      simp only [Memory.wfFrom, Bool.and_eq_true, decide_eq_true_eq] at h'
      have := hr c.1
      rw [Memory.read, Memory.read, if_pos rfl] at this
      exact absurd this.symm h'.1.2
  | cons c rest ih =>
    obtain ⟨k, v⟩ := c
    simp only [Memory.wfFrom, Bool.and_eq_true, decide_eq_true_eq] at h
    cases m' with
    | nil =>
      have := hr k
      rw [Memory.read, Memory.read, if_pos rfl] at this
      exact absurd this h.1.2
    | cons c' rest' =>
      obtain ⟨k', v'⟩ := c'
      simp only [Memory.wfFrom, Bool.and_eq_true, decide_eq_true_eq] at h'
      have hk : k = k' := by
        rcases Nat.lt_trichotomy k k' with hlt | heq | hlt
        · have := hr k
          rw [Memory.read, if_pos rfl, Memory.read, if_neg (by omega), Memory.read_of_lt h'.2 (by omega)] at this
          exact absurd this h.1.2
        · exact heq
        · have := hr k'
          rw [Memory.read, if_neg (by omega), Memory.read_of_lt h.2 (by omega), Memory.read, if_pos rfl] at this
          exact absurd this.symm h'.1.2
      subst hk
      have hv : v = v' := by simpa [Memory.read] using hr k
      subst hv
      rw [ih h.2 h'.2 fun a => ?_]
      by_cases ha : a = k
      · rw [ha, Memory.read_of_lt h.2 (by omega), Memory.read_of_lt h'.2 (by omega)]
      · simpa [Memory.read, Ne.symm ha] using hr a

end Sys2Proof
end

