-- ==== Sys2Proof/Laws/Output.lean ====
section
/-! SUPPORT. The operations that write `OUT`: one lemma per operation says all it can do, its value in closed form, and
that a fault leaves nothing behind of what was written before it (R376). -/

namespace Sys2Proof.Machine

/-! ## What a fault forgets -/

/-- `raise` forgets the cursor, the position, `OUT` below `OUT_CAP` and every scratch register (R376). -/
theorem State.raise_congr {s u : State} {c : BitVec 32} {b i p : Nat} {o : Memory} (k : FaultKind)
    (hu : u = { s with acc := c, bitcnt := b, inOff := i, outPos := p, out := o })
    (hs : s.out.wf = true) (ho : o.wf = true) (hr : ∀ a, s.outCap ≤ a → o.read a = s.out.read a) :
    u.raise k = s.raise k := by
  have hmem : Memory.overwriteBelow s.outCap (Config.freeByte s.draw) o =
      Memory.overwriteBelow s.outCap (Config.freeByte s.draw) s.out := by
    refine Memory.ext (Memory.wf_overwriteBelow ho _ _) (Memory.wf_overwriteBelow hs _ _) fun a => ?_
    rw [Memory.read_overwriteBelow ho, Memory.read_overwriteBelow hs]
    split
    · rfl
    · exact hr a (by omega)
  have : (u.raise k) = { s.raise k with out := Memory.overwriteBelow s.outCap (Config.freeByte s.draw) o } := by
    rw [hu]; rfl
  rw [this, hmem]
  rfl

/-! ## One byte (R62) -/

theorem emit_room {s : State} (b : Byte) (h : s.outPos < s.outCap) :
    emit b s = .ok () { s with out := s.out.write s.outPos b, outPos := s.outPos + 1 } := by
  rw [emit, if_neg (by omega), outWrite, if_pos h]
  rfl

theorem emit_full {s : State} (b : Byte) (h : s.outCap ≤ s.outPos) : emit b s = .raised .outputBufferExhausted s := by
  rw [emit, if_pos h]

/-! ## The raw copy (R146, R148) -/

/-- `OUT` after `n` bytes of `IN` are copied raw: the bytes of `IN` in order, nothing else changed. -/
theorem rawLoop_ok {s : State} {n : Nat} (hw : s.out.wf = true) (hi : n ≤ s.inLen - s.inOff)
    (ho : n ≤ s.outCap - s.outPos) :
    ∃ o, rawLoop n s = .ok () { s with out := o, inOff := s.inOff + n, outPos := s.outPos + n } ∧ o.wf = true ∧
      ∀ a, o.read a = if s.outPos ≤ a ∧ a < s.outPos + n then Memory.read s.inp (s.inOff + (a - s.outPos))
        else s.out.read a := by
  induction n generalizing s with
  | zero => exact ⟨s.out, rfl, hw, fun a => by rw [if_neg (by omega)]⟩
  | succ n ih =>
    let s' : State := { s with
      out := s.out.write s.outPos (Memory.read s.inp s.inOff), inOff := s.inOff + 1, outPos := s.outPos + 1 }
    obtain ⟨o, he, hwo, hr⟩ := ih (s := s') (Memory.wf_write hw _ _)
      (by change n ≤ s.inLen - (s.inOff + 1); omega) (by change n ≤ s.outCap - (s.outPos + 1); omega)
    refine ⟨o, ?_, hwo, fun a => ?_⟩
    · rw [rawLoop, if_neg (by omega), if_neg (by omega), inRead, if_pos (by omega)]
      simp only [Res.bind, outWrite]
      rw [if_pos (by omega)]
      refine he.trans ?_
      simp only [s', Nat.add_assoc, Nat.add_comm 1 n]
    · rw [hr a]
      change (if s.outPos + 1 ≤ a ∧ a < s.outPos + 1 + n then Memory.read s.inp (s.inOff + 1 + (a - (s.outPos + 1)))
        else (s.out.write s.outPos (Memory.read s.inp s.inOff)).read a) = _
      rw [Memory.read_write hw]
      by_cases h1 : s.outPos + 1 ≤ a ∧ a < s.outPos + 1 + n
      · rw [if_pos h1, if_pos (by omega)]
        congr 1
        omega
      · rw [if_neg h1]
        by_cases h2 : a = s.outPos
        · rw [if_pos h2, if_pos (by omega), h2, Nat.sub_self, Nat.add_zero]
        · rw [if_neg h2, if_neg (by omega)]

/-- The state a raw copy faults in differs from the one it began in only by what a fault forgets. -/
theorem rawLoop_fault {s : State} {n : Nat} (hw : s.out.wf = true) (hin : s.inOff ≤ s.inLen)
    (hout : s.outPos ≤ s.outCap) (h : s.inLen - s.inOff < n ∨ s.outCap - s.outPos < n) :
    ∃ u o i p, rawLoop n s = .raised (if s.inLen - s.inOff ≤ s.outCap - s.outPos then .truncatedStream
        else .outputBufferExhausted) u ∧ u = { s with out := o, inOff := i, outPos := p } ∧ o.wf = true ∧
      ∀ a, s.outCap ≤ a → o.read a = s.out.read a := by
  induction n generalizing s with
  | zero => omega
  | succ n ih =>
    rw [rawLoop]
    by_cases h1 : s.inOff ≥ s.inLen
    · rw [if_pos h1, if_pos (by omega)]
      exact ⟨s, s.out, s.inOff, s.outPos, rfl, rfl, hw, fun _ _ => rfl⟩
    · rw [if_neg h1]
      by_cases h2 : s.outPos ≥ s.outCap
      · rw [if_pos h2, if_neg (by omega)]
        exact ⟨s, s.out, s.inOff, s.outPos, rfl, rfl, hw, fun _ _ => rfl⟩
      · rw [if_neg h2, inRead, if_pos (by omega)]
        simp only [Res.bind, outWrite]
        rw [if_pos (by omega)]
        let s' : State := { s with
          out := s.out.write s.outPos (Memory.read s.inp s.inOff), inOff := s.inOff + 1, outPos := s.outPos + 1 }
        obtain ⟨u, o, i, p, he, hu, hwo, hr⟩ := ih (s := s') (Memory.wf_write hw _ _)
          (by change s.inOff + 1 ≤ s.inLen; omega) (by change s.outPos + 1 ≤ s.outCap; omega)
          (by change s.inLen - (s.inOff + 1) < n ∨ s.outCap - (s.outPos + 1) < n; omega)
        refine ⟨u, o, i, p, ?_, hu, hwo, fun a ha => ?_⟩
        · refine he.trans ?_
          change Res.raised (if s.inLen - (s.inOff + 1) ≤ s.outCap - (s.outPos + 1) then _ else _) u = _
          by_cases hle : s.inLen - s.inOff ≤ s.outCap - s.outPos
          · rw [if_pos hle, if_pos (by omega)]
          · rw [if_neg hle, if_neg (by omega)]
        · rw [hr a ha]
          change (s.out.write s.outPos (Memory.read s.inp s.inOff)).read a = _
          rw [Memory.read_write hw, if_neg (by omega)]

/-! ## The copy (R352 to R358) -/

/-- `COPY` that neither reaches too far back nor runs out of room: the `dist` bytes before the position, cyclically
(R354), and nothing else changed. -/
theorem copyLoop_ok {s : State} {len dist : Nat} (hw : s.out.wf = true) (hd : 1 ≤ dist) (hback : dist ≤ s.outPos)
    (ho : len ≤ s.outCap - s.outPos) :
    ∃ o, copyLoop len dist s = .ok () { s with out := o, outPos := s.outPos + len } ∧ o.wf = true ∧
      ∀ a, o.read a = if s.outPos ≤ a ∧ a < s.outPos + len
        then s.out.read (s.outPos - dist + (a - s.outPos) % dist) else s.out.read a := by
  induction len generalizing s with
  | zero => exact ⟨s.out, rfl, hw, fun a => by rw [if_neg (by omega)]⟩
  | succ n ih =>
    let b := s.out.read (s.outPos - dist)
    let s' : State := { s with out := s.out.write s.outPos b, outPos := s.outPos + 1 }
    obtain ⟨o, he, hwo, hr⟩ := ih (s := s') (Memory.wf_write hw _ _) (by change dist ≤ s.outPos + 1; omega)
      (by change n ≤ s.outCap - (s.outPos + 1); omega)
    refine ⟨o, ?_, hwo, fun a => ?_⟩
    · rw [copyLoop, if_neg (by omega), outRead, if_pos (by omega)]
      simp only [Res.bind, outWrite]
      rw [if_pos (by omega)]
      refine he.trans ?_
      simp only [s', Nat.add_assoc, Nat.add_comm 1 n]
    · rw [hr a]
      change (if s.outPos + 1 ≤ a ∧ a < s.outPos + 1 + n
        then (s.out.write s.outPos b).read (s.outPos + 1 - dist + (a - (s.outPos + 1)) % dist)
        else (s.out.write s.outPos b).read a) = _
      rw [Memory.read_write hw, Memory.read_write hw]
      by_cases h1 : s.outPos + 1 ≤ a ∧ a < s.outPos + 1 + n
      · rw [if_pos h1, if_pos (show s.outPos ≤ a ∧ a < s.outPos + (n + 1) by omega)]
        have hlt := Nat.mod_lt (a - (s.outPos + 1)) hd
        have hsucc : a - s.outPos = a - (s.outPos + 1) + 1 := by omega
        by_cases h2 : (a - (s.outPos + 1)) % dist + 1 = dist
        · have : (a - s.outPos) % dist = 0 := by
            rw [hsucc, Nat.add_mod]
            rcases Nat.eq_or_lt_of_le hd with h3 | h3
            · rw [← h3, Nat.mod_one]
            · rw [Nat.mod_eq_of_lt h3, h2, Nat.mod_self]
          rw [if_pos (by omega), this, Nat.add_zero]
        · rw [if_neg (by omega)]
          have : (a - s.outPos) % dist = (a - (s.outPos + 1)) % dist + 1 := by
            rw [hsucc, Nat.add_mod, Nat.mod_eq_of_lt (show 1 < dist by omega), Nat.mod_eq_of_lt (by omega)]
          rw [this]
          congr 1
          omega
      · rw [if_neg h1]
        by_cases h2 : a = s.outPos
        · rw [if_pos h2, if_pos (by omega), h2, Nat.sub_self, Nat.zero_mod, Nat.add_zero]
        · rw [if_neg h2, if_neg (by omega)]

theorem copyLoop_fault {s : State} {len dist : Nat} (hw : s.out.wf = true) (hd : 1 ≤ dist)
    (hout : s.outPos ≤ s.outCap) (h : s.outCap - s.outPos < len) :
    ∃ u o p, copyLoop len dist s = .raised .outputBufferExhausted u ∧ u = { s with out := o, outPos := p } ∧
      o.wf = true ∧ ∀ a, s.outCap ≤ a → o.read a = s.out.read a := by
  induction len generalizing s with
  | zero => omega
  | succ n ih =>
    rw [copyLoop]
    by_cases h2 : s.outPos ≥ s.outCap
    · rw [if_pos h2]
      exact ⟨s, s.out, s.outPos, rfl, rfl, hw, fun _ _ => rfl⟩
    · rw [if_neg h2, outRead, if_pos (by omega)]
      simp only [Res.bind, outWrite]
      rw [if_pos (by omega)]
      let s' : State := { s with out := s.out.write s.outPos (s.out.read (s.outPos - dist)), outPos := s.outPos + 1 }
      obtain ⟨u, o, p, he, hu, hwo, hr⟩ := ih (s := s') (Memory.wf_write hw _ _)
        (by change s.outPos + 1 ≤ s.outCap; omega) (by change s.outCap - (s.outPos + 1) < n; omega)
      refine ⟨u, o, p, he, hu, hwo, fun a ha => ?_⟩
      rw [hr a ha]
      change (s.out.write s.outPos (s.out.read (s.outPos - dist))).read a = _
      rw [Memory.read_write hw, if_neg (by omega)]

/-! ## The end of a block (R193) -/

theorem endOfBlock_final {s : State} (h : s.bfinal = true) : endOfBlock s = .ok () s.finished := by
  rw [endOfBlock, if_pos h]

theorem endOfBlock_more {s : State} (h : s.bfinal = false) :
    endOfBlock s = .ok () { s with fsm := .awaitingBlockHeader } := by
  rw [endOfBlock, h]; rfl

end Sys2Proof.Machine
end

