-- ==== Sys2Proof/Laws/Elements.lean ====
section
/-! SUPPORT. The operations the meanings share: building a table, runs of lengths, the copy at the end of a match, and
the rows of the length and distance alphabets. -/

namespace Sys2Proof.Machine

/-! ## Building a table (R164, R168) -/

theorem countEq_eq_count (l : Nat) (lens : List Nat) : countEq l lens = lens.count l := by
  induction lens with
  | nil => rfl
  | cons x r ih =>
    rw [countEq, List.count_cons, ih]
    by_cases h : x = l <;> simp [h]

/-- The sum the builder tests is the sum of R164. -/
theorem kraft_eq_kraftSum (lens : List Nat) : kraft lens = kraftSum lens := by
  simp [kraft, kraftSum, Config.maxBits, kraftUpTo, lenCount, countEq_eq_count, List.range_succ, Nat.add_assoc]

theorem buildTable_accepts {lens : List Nat} (h : kraft lens ≤ 2 ^ 16) (s : State) :
    buildTable lens s = .ok ((build lens).getD Table.empty) s := by
  rw [buildTable, build_of_kraft h]
  rfl

theorem buildTable_refuses {lens : List Nat} (h : 2 ^ 16 < kraft lens) (s : State) :
    buildTable lens s = .raised .invalidCodeLengths s := by
  rw [buildTable, build_eq_none.mpr h]

/-! ## Runs of lengths (R238 to R242) -/

theorem State.getD_fillLens (rep i : Nat) (v : BitVec 4) (s : State) {k : Nat} (hk : k < 320) :
    (s.fillLens rep i v).lens.getD k 0 = if i ≤ k ∧ k < i + rep then v else s.lens.getD k 0 := by
  induction rep generalizing i s with
  | zero => rw [if_neg (by omega)]; rfl
  | succ n ih =>
    rw [State.fillLens, ih]
    have hs : (s.setLens i v).lens.getD k 0 = if i = k then v else s.lens.getD k 0 := by
      simp [State.setLens, Vector.getD, hk, Array.getElem_setIfInBounds]
    rw [hs]
    by_cases h : i + 1 ≤ k ∧ k < i + 1 + n
    · rw [if_pos h, if_pos (by omega)]
    · rw [if_neg h]
      by_cases h2 : i = k
      · rw [if_pos h2, if_pos (by omega)]
      · rw [if_neg h2, if_neg (by omega)]

/-- What a run writes does not depend on the register `REP`. -/
theorem State.fillLens_rep (rep i r : Nat) (v : BitVec 4) (s : State) :
    ({ s with rep := r }).fillLens rep i v = { s.fillLens rep i v with rep := r } := by
  induction rep generalizing i s with
  | zero => rfl
  | succ n ih => exact ih (i + 1) (s.setLens i v)

/-- A run that fits (R239 to R241). -/
theorem repeatLength_fits {s : State} {r : Nat} (v : BitVec 4) (h : s.lidx + r ≤ s.hlit + s.hdist) :
    repeatLength v r s =
      afterLengths { s with rep := r, lens := (s.fillLens r s.lidx v).lens, lidx := s.lidx + r } := by
  have hf : ({ s with rep := r }).fillLens r s.lidx v =
      { s with rep := r, lens := (s.fillLens r s.lidx v).lens } := by
    rw [State.fillLens_rep]
    conv_lhs => rw [State.fillLens_eq]
  rw [repeatLength, if_neg (by exact Nat.not_lt.mpr h)]
  dsimp only
  rw [hf]

/-- A run that passes the last length (R242). -/
theorem repeatLength_overflows {s : State} {r : Nat} (v : BitVec 4) (h : s.hlit + s.hdist < s.lidx + r) :
    repeatLength v r s = .raised .invalidCodeLengths { s with rep := r } := by
  rw [repeatLength, if_pos (by exact h)]

/-- Every code-length symbol whose run fits writes its run and goes on. -/
theorem exec_lengthRun {i : Instr} {run : Run} {s : State} (h : s.lengthRun i = some run)
    (hle : s.lidx + run.count ≤ s.hlit + s.hdist) :
    exec i s = (afterLengths { s with
      rep := run.rep, lens := (s.fillLens run.count s.lidx run.value).lens, lidx := s.lidx + run.count }).finish := by
  cases i <;> simp only [State.lengthRun, reduceCtorEq] at h
  case clLen v => cases h; rfl
  case clRep r =>
    split at h
    · cases h
    · next hz =>
      cases h
      simp only [exec, execClRep, if_neg hz]
      rw [repeatLength_fits _ hle]
      rfl
  case clZrep3 r => cases h; exact congrArg Res.finish (repeatLength_fits _ hle)
  case clZrep11 r => cases h; exact congrArg Res.finish (repeatLength_fits _ hle)

/-! ## Matches (R267, R303) -/

theorem matchAt_ok {s : State} {m : Nat} (h1 : 1 ≤ m) (hw : s.out.wf = true) (hd : m ≤ s.outPos)
    (hr : s.outPos + s.mlen ≤ s.outCap) :
    ∃ o, matchAt m s = .next { s with mdist := m, outPos := s.outPos + s.mlen, out := o } ∧ o.wf = true ∧
      ∀ a, o.read a = if s.outPos ≤ a ∧ a < s.outPos + s.mlen
        then s.out.read (s.outPos - m + (a - s.outPos) % m) else s.out.read a := by
  obtain ⟨o, he, hwo, hro⟩ := copyLoop_ok (s := { s with mdist := m }) (len := s.mlen) hw h1 hd
    (by change s.mlen ≤ s.outCap - s.outPos; omega)
  refine ⟨o, ?_, hwo, hro⟩
  rw [matchAt, copy, if_neg (by exact Nat.not_lt.mpr hd), he]
  rfl

theorem matchAt_tooFar {s : State} {m : Nat} (h : s.outPos < m) : matchAt m s = .next (s.raise .invalidBackReference) := by
  rw [matchAt, copy, if_pos (by exact h)]
  rfl

theorem matchAt_full {s : State} {m : Nat} (h1 : 1 ≤ m) (hw : s.out.wf = true) (hd : m ≤ s.outPos)
    (hp : s.outPos ≤ s.outCap) (hr : s.outCap < s.outPos + s.mlen) :
    matchAt m s = .next (s.raise .outputBufferExhausted) := by
  obtain ⟨u, o, p, he, hu, hwo, hro⟩ := copyLoop_fault (s := { s with mdist := m }) (len := s.mlen) hw h1 hp
    (by change s.outCap - s.outPos < s.mlen; omega)
  have hc := State.raise_congr (s := { s with mdist := m }) (u := u) (c := s.acc) (b := s.bitcnt) (i := s.inOff)
    (p := p) (o := o) .outputBufferExhausted hu hw hwo hro
  rw [matchAt, copy, if_neg (by exact Nat.not_lt.mpr hd), he]
  exact congrArg Host.Outcome.next hc

/-- Every length symbol fetches and runs its distance symbol with its own length. -/
theorem exec_lengthRow {i : Instr} {len : Row} (h : lengthRow i = some len) (s : State) :
    exec i s = matchOf len.value s := by
  cases i <;> simp only [lengthRow, reduceCtorEq, Option.some.injEq] at h <;> subst h <;> rfl

/-- Every distance symbol ends in the copy at its own distance, alone and inside its pair. -/
theorem exec_distanceRow {j : Instr} {dist : Row} (h : distanceRow j = some dist) (s : State) :
    exec j s = matchAt dist.value s ∧ execDistance j s = matchAt dist.value s ∧ 1 ≤ dist.value := by
  cases j <;> simp only [distanceRow, reduceCtorEq, Option.some.injEq] at h <;> subst h <;>
    exact ⟨rfl, rfl, by simp only [Row.value]; omega⟩

/-- The element a distance symbol makes is a row of the alphabet or one of the two reserved symbols. -/
theorem dInstr_cases {d x : Nat} {j : Instr} (h : dInstr d x = some j) :
    (d < 30 ∧ ∃ dist, distanceRow j = some dist ∧ dist.sym = d ∧ dist.x = x) ∨ (d = 30 ∧ j = .dist30) ∨
      (d = 31 ∧ j = .dist31) := by
  unfold dInstr at h
  split at h <;> cases h <;>
    first
      | exact .inl ⟨by decide, _, rfl, rfl, rfl⟩
      | exact .inr (.inl ⟨rfl, rfl⟩)
      | exact .inr (.inr ⟨rfl, rfl⟩)

theorem dInstr_isSome {d : Nat} (x : Nat) (h : d < 32) : ∃ j, dInstr d x = some j := by
  have : ∀ d, d < 32 → (dInstr d x).isSome = true := by
    intro d hd
    interval_cases d <;> rfl
  exact Option.isSome_iff_exists.mp (this d h)

/-- The element a literal/length symbol makes. -/
theorem llInstr_cases {sym x : Nat} {j : Instr} (h : llInstr sym x = some j) :
    (sym < 256 ∧ j = .lit (BitVec.ofNat 8 sym)) ∨ (sym = 256 ∧ j = .eob) ∨
      (257 ≤ sym ∧ sym ≤ 285 ∧ ∃ len, lengthRow j = some len ∧ len.sym = sym ∧ len.x = x) ∨
      (sym = 286 ∧ j = .ll286) ∨ (sym = 287 ∧ j = .ll287) := by
  unfold llInstr at h
  by_cases hs : sym < 256
  · rw [if_pos hs] at h
    cases h
    exact .inl ⟨hs, rfl⟩
  · rw [if_neg hs] at h
    split at h <;> cases h <;>
      first
        | exact .inr (.inl ⟨rfl, rfl⟩)
        | exact .inr (.inr (.inl ⟨by decide, by decide, _, rfl, rfl, rfl⟩))
        | exact .inr (.inr (.inr (.inl ⟨rfl, rfl⟩)))
        | exact .inr (.inr (.inr (.inr ⟨rfl, rfl⟩)))

theorem llInstr_isSome {sym : Nat} (x : Nat) (h : sym < 288) : ∃ j, llInstr sym x = some j := by
  by_cases hs : sym < 256
  · exact ⟨_, if_pos hs⟩
  · have : ∀ k, k < 32 → (llInstr (256 + k) x).isSome = true := by
      intro k hk
      interval_cases k <;> rfl
    have h2 := this (sym - 256) (by omega)
    rw [show 256 + (sym - 256) = sym by omega] at h2
    exact Option.isSome_iff_exists.mp h2

/-- The element a code-length symbol makes. -/
theorem clInstr_cases {sym x : Nat} {j : Instr} (h : clInstr sym x = some j) :
    (sym < 16 ∧ j = .clLen sym) ∨ (sym = 16 ∧ j = .clRep (3 + x)) ∨ (sym = 17 ∧ j = .clZrep3 (3 + x)) ∨
      (sym = 18 ∧ j = .clZrep11 (11 + x)) := by
  unfold clInstr at h
  by_cases hs : sym < 16
  · rw [if_pos hs] at h
    cases h
    exact .inl ⟨hs, rfl⟩
  · rw [if_neg hs] at h
    split at h <;> cases h <;>
      first
        | exact .inr (.inl ⟨rfl, rfl⟩)
        | exact .inr (.inr (.inl ⟨rfl, rfl⟩))
        | exact .inr (.inr (.inr ⟨rfl, rfl⟩))

theorem clInstr_isSome {sym : Nat} (x : Nat) (h : sym < 19) : ∃ j, clInstr sym x = some j := by
  by_cases hs : sym < 16
  · exact ⟨_, if_pos hs⟩
  · obtain rfl | rfl | rfl : sym = 16 ∨ sym = 17 ∨ sym = 18 := by omega
    · exact ⟨_, rfl⟩
    · exact ⟨_, rfl⟩
    · exact ⟨_, rfl⟩

end Sys2Proof.Machine
end

