-- ==== Sys2Proof/Laws/PerInstr.lean ====
section
/-! SUPPORT. What holds of every stream element as syntax, one lemma per constructor. -/

namespace Sys2Proof

@[simp] theorem length_codeBits (n c : Nat) : (codeBits n c).length = n := by simp [codeBits]

/-- Every literal/length symbol has a fixed code of 7 to 9 bits (R102). -/
theorem fixedLLBook_some {s : Nat} (h : s ≤ 287) : ∃ c, fixedLLBook s = some c ∧ 7 ≤ c.length ∧ c.length ≤ 9 := by
  unfold fixedLLBook
  split
  · exact ⟨_, rfl, by simp⟩
  · split
    · exact ⟨_, rfl, by simp⟩
    · split
      · exact ⟨_, rfl, by simp⟩
      · exact ⟨_, rfl, by simp⟩

/-- Every distance symbol has a fixed code of 5 bits (R103). -/
theorem fixedDBook_some {d : Nat} (h : d ≤ 31) : ∃ c, fixedDBook d = some c ∧ c.length = 5 :=
  ⟨codeBits 5 d, by rw [fixedDBook, if_pos h], by simp⟩

theorem flatCLBook_some {v : Nat} (h : v ≤ 18) : ∃ c, flatCLBook v = some c ∧ c.length = 5 :=
  ⟨codeBits 5 v, by rw [flatCLBook, if_pos h], by simp⟩

namespace Laws.Encodable

/-- A well-formed element has bits in the books of a static block, at least one of them and at most 32 (R91). -/
def Statement (i : Instr) : Prop :=
  wellFormed i = true → ∃ bits, encode staticBooks i = some bits ∧ 1 ≤ bits.length ∧ bits.length ≤ 32

theorem of_fields {i : Instr} {bits : Bits} (h : encode staticBooks i = some bits) (h1 : 1 ≤ bits.length)
    (h2 : bits.length ≤ 32) : Statement i := fun _ => ⟨bits, h, h1, h2⟩

theorem of_cl {i : Instr} {p : Nat × Nat} (h : encode staticBooks i = encodeSymbol flatCLBook clExtra p)
    (hp : wellFormed i = true → p.1 ≤ 18) : Statement i := by
  intro hw
  obtain ⟨c, hc, hl⟩ := flatCLBook_some (hp hw)
  have hx : clExtra p.1 ≤ 7 := by unfold clExtra; split <;> omega
  refine ⟨_, by rw [h, encodeSymbol, hc, Option.map_some], ?_, ?_⟩ <;>
    rw [List.length_append, length_bitsOfNat] <;> omega

theorem of_ll {i : Instr} {p : Nat × Nat} (h : encode staticBooks i = encodeSymbol fixedLLBook llExtra p)
    (hp : p.1 ≤ 287) (hx : llExtra p.1 ≤ 5) : Statement i := by
  intro _
  obtain ⟨c, hc, h1, h2⟩ := fixedLLBook_some hp
  refine ⟨_, by rw [h, encodeSymbol, hc, Option.map_some], ?_, ?_⟩ <;>
    rw [List.length_append, length_bitsOfNat] <;> omega

theorem of_d {i : Instr} {p : Nat × Nat} (h : encode staticBooks i = encodeSymbol fixedDBook dExtra p)
    (hp : p.1 ≤ 31) (hx : dExtra p.1 ≤ 13) : Statement i := by
  intro _
  obtain ⟨c, hc, h1⟩ := fixedDBook_some hp
  refine ⟨_, by rw [h, encodeSymbol, hc, Option.map_some], ?_, ?_⟩ <;>
    rw [List.length_append, length_bitsOfNat] <;> omega

theorem zhdr (cmf flg : Byte) : Statement (.zhdr cmf flg) := of_fields rfl (by simp [bitsOfByte]) (by simp [bitsOfByte])

theorem bhdrStored (f : Bool) : Statement (.bhdrStored f) := of_fields rfl (by simp) (by simp)

theorem bhdrFixed (f : Bool) : Statement (.bhdrFixed f) := of_fields rfl (by simp) (by simp)

theorem bhdrDyn (f : Bool) : Statement (.bhdrDyn f) := of_fields rfl (by simp) (by simp)

theorem bhdrRsvd (f : Bool) : Statement (.bhdrRsvd f) := of_fields rfl (by simp) (by simp)

theorem stored (len nlen : BitVec 16) : Statement (.stored len nlen) := of_fields rfl (by simp) (by simp)

theorem dynhdr (hlit hdist hclen : Nat) : Statement (.dynhdr hlit hdist hclen) := of_fields rfl (by simp) (by simp)

theorem cllen3 (v : Nat) : Statement (.cllen3 v) := of_fields rfl (by simp) (by simp)

theorem clLen (v : Nat) : Statement (.clLen v) := by
  refine of_cl (p := (v, 0)) rfl fun h => ?_
  have : v < 16 := by simpa [wellFormed] using h
  change v ≤ 18
  omega

theorem clRep (r : Nat) : Statement (.clRep r) := of_cl (p := (16, r - 3)) rfl fun _ => (by decide : 16 ≤ 18)

theorem clZrep3 (r : Nat) : Statement (.clZrep3 r) := of_cl (p := (17, r - 3)) rfl fun _ => (by decide : 17 ≤ 18)

theorem clZrep11 (r : Nat) : Statement (.clZrep11 r) := of_cl (p := (18, r - 11)) rfl fun _ => (by decide : 18 ≤ 18)

theorem lit (b : Byte) : Statement (.lit b) := by
  have hb := b.isLt
  refine of_ll (p := (b.toNat, 0)) rfl (by change b.toNat ≤ 287; omega) ?_
  change llExtra b.toNat ≤ 5
  rw [llExtra, if_neg (by omega)]
  omega

theorem eob : Statement .eob := of_ll (p := (256, 0)) rfl (by decide) (by decide)

theorem len257 (x : Nat) : Statement (.len257 x) := of_ll (p := (257, x)) rfl (by decide : 257 ≤ 287) (by decide : llExtra 257 ≤ 5)

theorem len258 (x : Nat) : Statement (.len258 x) := of_ll (p := (258, x)) rfl (by decide : 258 ≤ 287) (by decide : llExtra 258 ≤ 5)

theorem len259 (x : Nat) : Statement (.len259 x) := of_ll (p := (259, x)) rfl (by decide : 259 ≤ 287) (by decide : llExtra 259 ≤ 5)

theorem len260 (x : Nat) : Statement (.len260 x) := of_ll (p := (260, x)) rfl (by decide : 260 ≤ 287) (by decide : llExtra 260 ≤ 5)

theorem len261 (x : Nat) : Statement (.len261 x) := of_ll (p := (261, x)) rfl (by decide : 261 ≤ 287) (by decide : llExtra 261 ≤ 5)

theorem len262 (x : Nat) : Statement (.len262 x) := of_ll (p := (262, x)) rfl (by decide : 262 ≤ 287) (by decide : llExtra 262 ≤ 5)

theorem len263 (x : Nat) : Statement (.len263 x) := of_ll (p := (263, x)) rfl (by decide : 263 ≤ 287) (by decide : llExtra 263 ≤ 5)

theorem len264 (x : Nat) : Statement (.len264 x) := of_ll (p := (264, x)) rfl (by decide : 264 ≤ 287) (by decide : llExtra 264 ≤ 5)

theorem len265 (x : Nat) : Statement (.len265 x) := of_ll (p := (265, x)) rfl (by decide : 265 ≤ 287) (by decide : llExtra 265 ≤ 5)

theorem len266 (x : Nat) : Statement (.len266 x) := of_ll (p := (266, x)) rfl (by decide : 266 ≤ 287) (by decide : llExtra 266 ≤ 5)

theorem len267 (x : Nat) : Statement (.len267 x) := of_ll (p := (267, x)) rfl (by decide : 267 ≤ 287) (by decide : llExtra 267 ≤ 5)

theorem len268 (x : Nat) : Statement (.len268 x) := of_ll (p := (268, x)) rfl (by decide : 268 ≤ 287) (by decide : llExtra 268 ≤ 5)

theorem len269 (x : Nat) : Statement (.len269 x) := of_ll (p := (269, x)) rfl (by decide : 269 ≤ 287) (by decide : llExtra 269 ≤ 5)

theorem len270 (x : Nat) : Statement (.len270 x) := of_ll (p := (270, x)) rfl (by decide : 270 ≤ 287) (by decide : llExtra 270 ≤ 5)

theorem len271 (x : Nat) : Statement (.len271 x) := of_ll (p := (271, x)) rfl (by decide : 271 ≤ 287) (by decide : llExtra 271 ≤ 5)

theorem len272 (x : Nat) : Statement (.len272 x) := of_ll (p := (272, x)) rfl (by decide : 272 ≤ 287) (by decide : llExtra 272 ≤ 5)

theorem len273 (x : Nat) : Statement (.len273 x) := of_ll (p := (273, x)) rfl (by decide : 273 ≤ 287) (by decide : llExtra 273 ≤ 5)

theorem len274 (x : Nat) : Statement (.len274 x) := of_ll (p := (274, x)) rfl (by decide : 274 ≤ 287) (by decide : llExtra 274 ≤ 5)

theorem len275 (x : Nat) : Statement (.len275 x) := of_ll (p := (275, x)) rfl (by decide : 275 ≤ 287) (by decide : llExtra 275 ≤ 5)

theorem len276 (x : Nat) : Statement (.len276 x) := of_ll (p := (276, x)) rfl (by decide : 276 ≤ 287) (by decide : llExtra 276 ≤ 5)

theorem len277 (x : Nat) : Statement (.len277 x) := of_ll (p := (277, x)) rfl (by decide : 277 ≤ 287) (by decide : llExtra 277 ≤ 5)

theorem len278 (x : Nat) : Statement (.len278 x) := of_ll (p := (278, x)) rfl (by decide : 278 ≤ 287) (by decide : llExtra 278 ≤ 5)

theorem len279 (x : Nat) : Statement (.len279 x) := of_ll (p := (279, x)) rfl (by decide : 279 ≤ 287) (by decide : llExtra 279 ≤ 5)

theorem len280 (x : Nat) : Statement (.len280 x) := of_ll (p := (280, x)) rfl (by decide : 280 ≤ 287) (by decide : llExtra 280 ≤ 5)

theorem len281 (x : Nat) : Statement (.len281 x) := of_ll (p := (281, x)) rfl (by decide : 281 ≤ 287) (by decide : llExtra 281 ≤ 5)

theorem len282 (x : Nat) : Statement (.len282 x) := of_ll (p := (282, x)) rfl (by decide : 282 ≤ 287) (by decide : llExtra 282 ≤ 5)

theorem len283 (x : Nat) : Statement (.len283 x) := of_ll (p := (283, x)) rfl (by decide : 283 ≤ 287) (by decide : llExtra 283 ≤ 5)

theorem len284 (x : Nat) : Statement (.len284 x) := of_ll (p := (284, x)) rfl (by decide : 284 ≤ 287) (by decide : llExtra 284 ≤ 5)

theorem len285 (x : Nat) : Statement (.len285 x) := of_ll (p := (285, x)) rfl (by decide : 285 ≤ 287) (by decide : llExtra 285 ≤ 5)

theorem ll286 : Statement .ll286 := of_ll (p := (286, 0)) rfl (by decide) (by decide)

theorem ll287 : Statement .ll287 := of_ll (p := (287, 0)) rfl (by decide) (by decide)

theorem dist0 (x : Nat) : Statement (.dist0 x) := of_d (p := (0, x)) rfl (by decide : 0 ≤ 31) (by decide : dExtra 0 ≤ 13)

theorem dist1 (x : Nat) : Statement (.dist1 x) := of_d (p := (1, x)) rfl (by decide : 1 ≤ 31) (by decide : dExtra 1 ≤ 13)

theorem dist2 (x : Nat) : Statement (.dist2 x) := of_d (p := (2, x)) rfl (by decide : 2 ≤ 31) (by decide : dExtra 2 ≤ 13)

theorem dist3 (x : Nat) : Statement (.dist3 x) := of_d (p := (3, x)) rfl (by decide : 3 ≤ 31) (by decide : dExtra 3 ≤ 13)

theorem dist4 (x : Nat) : Statement (.dist4 x) := of_d (p := (4, x)) rfl (by decide : 4 ≤ 31) (by decide : dExtra 4 ≤ 13)

theorem dist5 (x : Nat) : Statement (.dist5 x) := of_d (p := (5, x)) rfl (by decide : 5 ≤ 31) (by decide : dExtra 5 ≤ 13)

theorem dist6 (x : Nat) : Statement (.dist6 x) := of_d (p := (6, x)) rfl (by decide : 6 ≤ 31) (by decide : dExtra 6 ≤ 13)

theorem dist7 (x : Nat) : Statement (.dist7 x) := of_d (p := (7, x)) rfl (by decide : 7 ≤ 31) (by decide : dExtra 7 ≤ 13)

theorem dist8 (x : Nat) : Statement (.dist8 x) := of_d (p := (8, x)) rfl (by decide : 8 ≤ 31) (by decide : dExtra 8 ≤ 13)

theorem dist9 (x : Nat) : Statement (.dist9 x) := of_d (p := (9, x)) rfl (by decide : 9 ≤ 31) (by decide : dExtra 9 ≤ 13)

theorem dist10 (x : Nat) : Statement (.dist10 x) := of_d (p := (10, x)) rfl (by decide : 10 ≤ 31) (by decide : dExtra 10 ≤ 13)

theorem dist11 (x : Nat) : Statement (.dist11 x) := of_d (p := (11, x)) rfl (by decide : 11 ≤ 31) (by decide : dExtra 11 ≤ 13)

theorem dist12 (x : Nat) : Statement (.dist12 x) := of_d (p := (12, x)) rfl (by decide : 12 ≤ 31) (by decide : dExtra 12 ≤ 13)

theorem dist13 (x : Nat) : Statement (.dist13 x) := of_d (p := (13, x)) rfl (by decide : 13 ≤ 31) (by decide : dExtra 13 ≤ 13)

theorem dist14 (x : Nat) : Statement (.dist14 x) := of_d (p := (14, x)) rfl (by decide : 14 ≤ 31) (by decide : dExtra 14 ≤ 13)

theorem dist15 (x : Nat) : Statement (.dist15 x) := of_d (p := (15, x)) rfl (by decide : 15 ≤ 31) (by decide : dExtra 15 ≤ 13)

theorem dist16 (x : Nat) : Statement (.dist16 x) := of_d (p := (16, x)) rfl (by decide : 16 ≤ 31) (by decide : dExtra 16 ≤ 13)

theorem dist17 (x : Nat) : Statement (.dist17 x) := of_d (p := (17, x)) rfl (by decide : 17 ≤ 31) (by decide : dExtra 17 ≤ 13)

theorem dist18 (x : Nat) : Statement (.dist18 x) := of_d (p := (18, x)) rfl (by decide : 18 ≤ 31) (by decide : dExtra 18 ≤ 13)

theorem dist19 (x : Nat) : Statement (.dist19 x) := of_d (p := (19, x)) rfl (by decide : 19 ≤ 31) (by decide : dExtra 19 ≤ 13)

theorem dist20 (x : Nat) : Statement (.dist20 x) := of_d (p := (20, x)) rfl (by decide : 20 ≤ 31) (by decide : dExtra 20 ≤ 13)

theorem dist21 (x : Nat) : Statement (.dist21 x) := of_d (p := (21, x)) rfl (by decide : 21 ≤ 31) (by decide : dExtra 21 ≤ 13)

theorem dist22 (x : Nat) : Statement (.dist22 x) := of_d (p := (22, x)) rfl (by decide : 22 ≤ 31) (by decide : dExtra 22 ≤ 13)

theorem dist23 (x : Nat) : Statement (.dist23 x) := of_d (p := (23, x)) rfl (by decide : 23 ≤ 31) (by decide : dExtra 23 ≤ 13)

theorem dist24 (x : Nat) : Statement (.dist24 x) := of_d (p := (24, x)) rfl (by decide : 24 ≤ 31) (by decide : dExtra 24 ≤ 13)

theorem dist25 (x : Nat) : Statement (.dist25 x) := of_d (p := (25, x)) rfl (by decide : 25 ≤ 31) (by decide : dExtra 25 ≤ 13)

theorem dist26 (x : Nat) : Statement (.dist26 x) := of_d (p := (26, x)) rfl (by decide : 26 ≤ 31) (by decide : dExtra 26 ≤ 13)

theorem dist27 (x : Nat) : Statement (.dist27 x) := of_d (p := (27, x)) rfl (by decide : 27 ≤ 31) (by decide : dExtra 27 ≤ 13)

theorem dist28 (x : Nat) : Statement (.dist28 x) := of_d (p := (28, x)) rfl (by decide : 28 ≤ 31) (by decide : dExtra 28 ≤ 13)

theorem dist29 (x : Nat) : Statement (.dist29 x) := of_d (p := (29, x)) rfl (by decide : 29 ≤ 31) (by decide : dExtra 29 ≤ 13)

theorem dist30 : Statement .dist30 := of_d (p := (30, 0)) rfl (by decide) (by decide)

theorem dist31 : Statement .dist31 := of_d (p := (31, 0)) rfl (by decide) (by decide)

end Laws.Encodable

end Sys2Proof
end

