-- ==== Sys2Proof/Tests/Slice0.lean ====
section
/-! SUPPORT. Tests: ill-formed elements refused, words written out from the spec decoded, one step each on small states
with results from the spec's worked examples, and for every statement with hypotheses a state that meets them. -/

namespace Sys2Proof.Tests

open Sys2Proof Sys2Proof.Machine

/-! ## Helpers -/

/-- The bits a list of 0 and 1 writes, in stream order. -/
def bits (w : List Nat) : Bits := w.map (· == 1)

/-- In context `c` the bits `w`, followed by two more, decode to `i` and leave those two. -/
def reads (c : Context) (w : List Nat) (i : Instr) : Bool :=
  match decode c (bits w ++ [true, false]) with
  | .ok (j, rest) => decide (j = i ∧ rest = [true, false])
  | .error _ => false

/-- The machine went on to a state that passes `f`. -/
def reached (o : Host.Outcome State Fault Refusal) (f : State → Bool) : Bool :=
  match o with
  | .next t => f t
  | .fault _ => false
  | .refused _ => false

/-- A block in dispatcher state `f` at the start of `IN`, with room for `cap` bytes. -/
def block (f : Fsm) (bytes : List Byte) (cap : Nat) : State :=
  { State.reset with fsm := f, inp := Memory.ofBytes 0 bytes, inLen := bytes.length, outCap := cap }

/-- The same, `pos` bits into the stream, the byte in progress in `ACC`. -/
def blockAt (f : Fsm) (bytes : List Byte) (pos cap : Nat) : State :=
  { block f bytes cap with
    acc := (bytes.getD (pos / 8) 0).setWidth 32 >>> (pos % 8)
    bitcnt := 8 - pos % 8
    inOff := pos / 8 + 1 }

/-- With the bytes `bs` produced so far. -/
def produced (bs : List Byte) (s : State) : State := { s with out := Memory.ofBytes 0 bs, outPos := bs.length }

/-- In a symbol loop over the fixed tables. -/
def static (s : State) : State := s.withFixedTables

/-! ## Ill-formed elements, one for each check -/

theorem test_ill_formed_counts_refused :
    ([.dynhdr 256 1 4, .dynhdr 289 1 4, .dynhdr 257 0 4, .dynhdr 257 33 4, .dynhdr 257 1 3, .dynhdr 257 1 20] :
      List Instr).all (fun i => !wellFormed i) = true := by decide

theorem test_ill_formed_lengths_refused :
    ([.cllen3 8, .clLen 16, .clRep 2, .clRep 7, .clZrep3 2, .clZrep3 11, .clZrep11 10, .clZrep11 139] :
      List Instr).all (fun i => !wellFormed i) = true := by decide

/-- The first extra-bits value that does not fit each length symbol (R268). -/
theorem test_ill_formed_length_extra_bits_refused :
    ([.len257 1, .len258 1, .len259 1, .len260 1, .len261 1, .len262 1, .len263 1, .len264 1, .len265 2,
      .len266 2, .len267 2, .len268 2, .len269 4, .len270 4, .len271 4, .len272 4, .len273 8, .len274 8,
      .len275 8, .len276 8, .len277 16, .len278 16, .len279 16, .len280 16, .len281 32, .len282 32, .len283 32,
      .len284 32, .len285 1] :
      List Instr).all (fun i => !wellFormed i) = true := by decide

/-- The first extra-bits value that does not fit each distance symbol (R302). -/
theorem test_ill_formed_distance_extra_bits_refused :
    ([.dist0 1, .dist1 1, .dist2 1, .dist3 1, .dist4 2, .dist5 2, .dist6 4, .dist7 4, .dist8 8, .dist9 8,
      .dist10 16, .dist11 16, .dist12 32, .dist13 32, .dist14 64, .dist15 64, .dist16 128, .dist17 128,
      .dist18 256, .dist19 256, .dist20 512, .dist21 512, .dist22 1024, .dist23 1024, .dist24 2048,
      .dist25 2048, .dist26 4096, .dist27 4096, .dist28 8192, .dist29 8192] :
      List Instr).all (fun i => !wellFormed i) = true := by decide

/-! ## Decoding words written out from the spec -/

/-- R92, R93, R95, R96: the header formats. -/
theorem test_decode_headers :
    reads .zlib [0, 0, 0, 1, 1, 1, 1, 0, 0, 0, 1, 1, 1, 0, 0, 1] (.zhdr 0x78 0x9C) &&
      reads .block [1, 0, 0] (.bhdrStored true) && reads .block [0, 1, 0] (.bhdrFixed false) &&
      reads .block [0, 0, 1] (.bhdrDyn false) && reads .block [1, 1, 1] (.bhdrRsvd true) &&
      reads (.stored 2) [1, 0, 1, 0, 1, 0, 0, 0, 0, 0, 0, 0, 0, 0, 0, 0, 0, 0, 0, 1, 0, 1, 1, 1, 1, 1, 1, 1, 1, 1, 1, 1, 1, 1]
        (.stored 0x0005 0xFFFA) &&
      reads .counts [0, 0, 0, 0, 0, 0, 0, 0, 0, 0, 0, 1, 1, 1] (.dynhdr 257 1 18) &&
      reads .counts [1, 1, 1, 1, 1, 1, 0, 0, 0, 0, 0, 0, 0, 0] (.dynhdr 288 2 4) &&
      reads .cllen [1, 0, 0] (.cllen3 1) && reads .cllen [0, 1, 1] (.cllen3 6) = true := by decide

/-- The code-length code of the worked example R246: symbols 18, 0 and 1 with lengths 1, 2 and 2. -/
def exampleCLLens : List Nat := [2, 2, 0, 0, 0, 0, 0, 0, 0, 0, 0, 0, 0, 0, 0, 0, 0, 0, 1]

/-- `T_CL` of R246. -/
theorem test_build_example_code_length_code :
    build exampleCLLens = some ⟨2, [⟨18, 1⟩, ⟨0, 2⟩, ⟨18, 1⟩, ⟨1, 2⟩]⟩ := by decide +kernel

/-- R246 for `CL.ZREP11` and `CL.LEN`; R239 and R240 for the extra bits of `CL.REP` and `CL.ZREP3`, behind the 5-bit
codes of `flatCLTable`. -/
theorem test_decode_code_length_symbols :
    reads (.clsym ⟨2, [⟨18, 1⟩, ⟨0, 2⟩, ⟨18, 1⟩, ⟨1, 2⟩]⟩) [0, 0, 1, 1, 0, 1, 0, 1] (.clZrep11 97) &&
      reads (.clsym ⟨2, [⟨18, 1⟩, ⟨0, 2⟩, ⟨18, 1⟩, ⟨1, 2⟩]⟩) [0, 1, 1, 1, 1, 1, 1, 1] (.clZrep11 138) &&
      reads (.clsym ⟨2, [⟨18, 1⟩, ⟨0, 2⟩, ⟨18, 1⟩, ⟨1, 2⟩]⟩) [1, 1] (.clLen 1) &&
      reads (.clsym flatCLTable) [1, 0, 0, 0, 0, 1, 1] (.clRep 6) &&
      reads (.clsym flatCLTable) [1, 0, 0, 0, 1, 1, 0, 1] (.clZrep3 8) = true := by decide +kernel

/-- The fixed codes R102, R265, R266 and R270 to R300 print, with the extra bits `1 0 …` (value 1, R269). -/
theorem test_decode_literals_and_lengths :
    ([([1, 0, 0, 1, 0, 0, 0, 1], .lit 0x61),
      ([0, 0, 1, 1, 0, 0, 0, 0], .lit 0),
      ([1, 0, 1, 1, 1, 1, 1, 1], .lit 143),
      ([1, 1, 0, 0, 1, 0, 0, 0, 0], .lit 144),
      ([1, 1, 1, 1, 1, 1, 1, 1, 1], .lit 255),
      ([0, 0, 0, 0, 0, 0, 0], .eob),
      ([0, 0, 0, 0, 0, 0, 1], .len257 0),
      ([0, 0, 0, 0, 0, 1, 0], .len258 0),
      ([0, 0, 0, 0, 0, 1, 1], .len259 0),
      ([0, 0, 0, 0, 1, 0, 0], .len260 0),
      ([0, 0, 0, 0, 1, 0, 1], .len261 0),
      ([0, 0, 0, 0, 1, 1, 0], .len262 0),
      ([0, 0, 0, 0, 1, 1, 1], .len263 0),
      ([0, 0, 0, 1, 0, 0, 0], .len264 0),
      ([0, 0, 0, 1, 0, 0, 1, 1], .len265 1),
      ([0, 0, 0, 1, 0, 1, 0, 1], .len266 1),
      ([0, 0, 0, 1, 0, 1, 1, 1], .len267 1),
      ([0, 0, 0, 1, 1, 0, 0, 1], .len268 1),
      ([0, 0, 0, 1, 1, 0, 1, 1, 0], .len269 1),
      ([0, 0, 0, 1, 1, 1, 0, 1, 0], .len270 1),
      ([0, 0, 0, 1, 1, 1, 1, 1, 0], .len271 1),
      ([0, 0, 1, 0, 0, 0, 0, 1, 0], .len272 1),
      ([0, 0, 1, 0, 0, 0, 1, 1, 0, 0], .len273 1),
      ([0, 0, 1, 0, 0, 1, 0, 1, 0, 0], .len274 1),
      ([0, 0, 1, 0, 0, 1, 1, 1, 0, 0], .len275 1),
      ([0, 0, 1, 0, 1, 0, 0, 1, 0, 0], .len276 1),
      ([0, 0, 1, 0, 1, 0, 1, 1, 0, 0, 0], .len277 1),
      ([0, 0, 1, 0, 1, 1, 0, 1, 0, 0, 0], .len278 1),
      ([0, 0, 1, 0, 1, 1, 1, 1, 0, 0, 0], .len279 1),
      ([1, 1, 0, 0, 0, 0, 0, 0, 1, 0, 0, 0], .len280 1),
      ([1, 1, 0, 0, 0, 0, 0, 1, 1, 0, 0, 0, 0], .len281 1),
      ([1, 1, 0, 0, 0, 0, 1, 0, 1, 0, 0, 0, 0], .len282 1),
      ([1, 1, 0, 0, 0, 0, 1, 1, 1, 0, 0, 0, 0], .len283 1),
      ([1, 1, 0, 0, 0, 1, 0, 0, 1, 0, 0, 0, 0], .len284 1),
      ([1, 1, 0, 0, 0, 1, 0, 1], .len285 0),
      ([1, 1, 0, 0, 0, 1, 1, 0], .ll286),
      ([1, 1, 0, 0, 0, 1, 1, 1], .ll287)] : List (List Nat × Instr)).all (fun p => reads (.llsym fixedLLTable) p.1 p.2) = true := by
  decide +kernel

/-- The fixed codes R303 to R334 print, with the extra bits `1 0 …` (value 1). -/
theorem test_decode_distances :
    ([([0, 0, 0, 0, 0], .dist0 0),
      ([0, 0, 0, 0, 1], .dist1 0),
      ([0, 0, 0, 1, 0], .dist2 0),
      ([0, 0, 0, 1, 1], .dist3 0),
      ([0, 0, 1, 0, 0, 1], .dist4 1),
      ([0, 0, 1, 0, 1, 1], .dist5 1),
      ([0, 0, 1, 1, 0, 1, 0], .dist6 1),
      ([0, 0, 1, 1, 1, 1, 0], .dist7 1),
      ([0, 1, 0, 0, 0, 1, 0, 0], .dist8 1),
      ([0, 1, 0, 0, 1, 1, 0, 0], .dist9 1),
      ([0, 1, 0, 1, 0, 1, 0, 0, 0], .dist10 1),
      ([0, 1, 0, 1, 1, 1, 0, 0, 0], .dist11 1),
      ([0, 1, 1, 0, 0, 1, 0, 0, 0, 0], .dist12 1),
      ([0, 1, 1, 0, 1, 1, 0, 0, 0, 0], .dist13 1),
      ([0, 1, 1, 1, 0, 1, 0, 0, 0, 0, 0], .dist14 1),
      ([0, 1, 1, 1, 1, 1, 0, 0, 0, 0, 0], .dist15 1),
      ([1, 0, 0, 0, 0, 1, 0, 0, 0, 0, 0, 0], .dist16 1),
      ([1, 0, 0, 0, 1, 1, 0, 0, 0, 0, 0, 0], .dist17 1),
      ([1, 0, 0, 1, 0, 1, 0, 0, 0, 0, 0, 0, 0], .dist18 1),
      ([1, 0, 0, 1, 1, 1, 0, 0, 0, 0, 0, 0, 0], .dist19 1),
      ([1, 0, 1, 0, 0, 1, 0, 0, 0, 0, 0, 0, 0, 0], .dist20 1),
      ([1, 0, 1, 0, 1, 1, 0, 0, 0, 0, 0, 0, 0, 0], .dist21 1),
      ([1, 0, 1, 1, 0, 1, 0, 0, 0, 0, 0, 0, 0, 0, 0], .dist22 1),
      ([1, 0, 1, 1, 1, 1, 0, 0, 0, 0, 0, 0, 0, 0, 0], .dist23 1),
      ([1, 1, 0, 0, 0, 1, 0, 0, 0, 0, 0, 0, 0, 0, 0, 0], .dist24 1),
      ([1, 1, 0, 0, 1, 1, 0, 0, 0, 0, 0, 0, 0, 0, 0, 0], .dist25 1),
      ([1, 1, 0, 1, 0, 1, 0, 0, 0, 0, 0, 0, 0, 0, 0, 0, 0], .dist26 1),
      ([1, 1, 0, 1, 1, 1, 0, 0, 0, 0, 0, 0, 0, 0, 0, 0, 0], .dist27 1),
      ([1, 1, 1, 0, 0, 1, 0, 0, 0, 0, 0, 0, 0, 0, 0, 0, 0, 0], .dist28 1),
      ([1, 1, 1, 0, 1, 1, 0, 0, 0, 0, 0, 0, 0, 0, 0, 0, 0, 0], .dist29 1),
      ([1, 1, 1, 1, 0], .dist30),
      ([1, 1, 1, 1, 1], .dist31)] : List (List Nat × Instr)).all (fun p => reads (.dsym fixedDTable) p.1 p.2) = true := by
  decide +kernel

/-! ## Huffman tables (R175, R177) -/

theorem test_build_worked_example :
    build [3, 3, 3, 3, 3, 2, 4, 4] = some ⟨4,
      [⟨5, 2⟩, ⟨2, 3⟩, ⟨0, 3⟩, ⟨4, 3⟩, ⟨5, 2⟩, ⟨3, 3⟩, ⟨1, 3⟩, ⟨6, 4⟩] ++
      [⟨5, 2⟩, ⟨2, 3⟩, ⟨0, 3⟩, ⟨4, 3⟩, ⟨5, 2⟩, ⟨3, 3⟩, ⟨1, 3⟩, ⟨7, 4⟩]⟩ := by decide +kernel

theorem test_build_incomplete_and_over_subscribed :
    build [2, 0, 2, 1] = some ⟨2, [⟨3, 1⟩, ⟨0, 2⟩, ⟨3, 1⟩, ⟨2, 2⟩]⟩ ∧
      build [1] = some ⟨1, [⟨0, 1⟩, Entry.unfilled]⟩ ∧ build [0, 0, 0] = some Table.empty ∧ build [1, 1, 1] = none := by
  decide +kernel

/-! ## The cursor (R137, R142) -/

/-- `TAKE(2)`, then `PEEK(9)`, of the worked example. -/
theorem test_cursor_worked_example :
    (match take 2 { block .awaitingBlockHeader [0x4B, 0x4C, 0x4C, 0x04, 0x00] 0 with acc := 0x25, bitcnt := 7, inOff := 1 } with
      | .ok v s => match peek 9 s with
        | .ok w u => decide (v = 1 ∧ s.acc = 0x09 ∧ s.bitcnt = 5 ∧ w = 0x189 ∧ u.acc = 0x989 ∧ u.bitcnt = 13 ∧ u.inOff = 2)
        | _ => false
      | _ => false) = true := by decide

theorem test_take_sixteen :
    (match take 16 (block .storedBlock [0x05, 0x00, 0xFA, 0xFF] 0) with
      | .ok v s => decide (v = 0x0005 ∧ s.bitcnt = 0 ∧ s.inOff = 2)
      | _ => false) = true := by decide

/-! ## One step each -/

/-- R195: after the header `BITCNT = 0`, `IN_OFF = 2`. -/
theorem test_step_zhdr :
    reached (step (block .zlibHeader [0x78, 0x9C] 0))
      (fun t => t.fsm == .awaitingBlockHeader && t.bitcnt == 0 && t.inOff == 2 && t.cmf == 0x78) = true := by decide

/-- R197: the valid and the invalid headers it lists. -/
theorem test_zlib_header_examples :
    ([(0x78, 0x9C), (0x78, 0x01), (0x78, 0x5E), (0x78, 0xDA), (0x08, 0x1D)] : List (Byte × Byte)).all
        (fun p => zValid p.1 p.2) &&
      ([(0x78, 0x9D), (0x08, 0x01), (0x78, 0xBB), (0x78, 0x20), (0x77, 0x09), (0x88, 0x1C), (0, 0)] :
        List (Byte × Byte)).all (fun p => !zValid p.1 p.2) = true := by decide

/-- R393: `78 9D` faults with code 1. -/
theorem test_step_bad_zhdr :
    reached (step (block .zlibHeader [0x78, 0x9D] 0)) (fun t => t.isErr && t.errCode == 1) = true := by decide

/-- R192: first byte `4B`. -/
theorem test_step_bhdr_fixed :
    reached (step (block .awaitingBlockHeader [0x4B] 0))
      (fun t => t.bfinal && t.btype == 1 && t.acc == 0x09 && t.bitcnt == 5 && t.fsm == .symbolLoop && t.staticValid &&
        !t.sel) = true := by decide +kernel

/-- R198, R206. -/
theorem test_step_bhdr_stored_and_dyn :
    reached (step (block .awaitingBlockHeader [0x01] 0)) (fun t => t.bfinal && t.fsm == .storedBlock) &&
      reached (step (block .awaitingBlockHeader [0x04] 0))
        (fun t => !t.bfinal && t.fsm == .dynamicBlockHeader && t.dynPhase == .counts) = true := by decide

/-- R207: `07` and `06`. -/
theorem test_step_bhdr_rsvd :
    reached (step (block .awaitingBlockHeader [0x07] 0)) (fun t => t.isErr && t.errCode == 4) &&
      reached (step (block .awaitingBlockHeader [0x06] 0)) (fun t => t.isErr && t.errCode == 4) = true := by decide

/-- R202: `01 02 00 FD FF 48 69` after its header. -/
theorem test_step_stored :
    reached (step { blockAt .storedBlock [0x01, 0x02, 0x00, 0xFD, 0xFF, 0x48, 0x69] 3 2 with bfinal := true })
      (fun t => t.isDone && t.bytesWritten == 2 && t.out == [(0, 0x48), (1, 0x69)]) = true := by decide

/-- R393: `01 05 00 00 00` is a `LengthMismatch`. -/
theorem test_step_stored_mismatch :
    reached (step (blockAt .storedBlock [0x01, 0x05, 0x00, 0x00, 0x00] 3 9)) (fun t => t.isErr && t.errCode == 3) =
      true := by decide

/-- R246: after `DYNHDR`, `ACC = 0x40`, `BITCNT = 7`, `IN_OFF = 3`. -/
theorem test_step_dynhdr :
    reached (step (blockAt .dynamicBlockHeader [0x05, 0xC0, 0x81, 0x08] 3 4))
      (fun t => t.hlit == 257 && t.hdist == 1 && t.hclen == 18 && t.acc == 0x40 && t.bitcnt == 7 && t.inOff == 3 &&
        t.dynPhase == .cllens) = true := by decide

/-- R393: `FD 00 00`, `HLIT = 288`. -/
theorem test_step_dynhdr_range :
    reached (step (blockAt .dynamicBlockHeader [0xFD, 0x00, 0x00] 3 4)) (fun t => t.isErr && t.errCode == 7) = true := by
  decide

/-- R233: the third entry is symbol 18's. -/
theorem test_cllen3_swizzles :
    reached (exec (.cllen3 1) { block .dynamicBlockHeader [] 0 with dynPhase := .cllens, clIdx := 2, hclen := 18 })
      (fun t => t.cllen.toList == (List.replicate 18 0 ++ [1]) && t.clIdx == 3 && t.dynPhase == .cllens) = true := by
  decide

/-- R234, R246: the eighteenth entry, symbol 1's, completes the example's code-length code. -/
theorem test_last_cllen3_builds :
    reached (exec (.cllen3 2) { block .dynamicBlockHeader [] 0 with
        dynPhase := .cllens, clIdx := 17, hclen := 18,
        cllen := (Vector.replicate 19 0).setIfInBounds 18 1 |>.setIfInBounds 0 2 })
      (fun t => t.tCl == ⟨2, [⟨18, 1⟩, ⟨0, 2⟩, ⟨18, 1⟩, ⟨1, 2⟩]⟩ && t.lidx == 0 && t.dynPhase == .symbols) = true := by
  decide +kernel

/-- In a dynamic header with `LIDX` lengths defined. -/
def lengthsAt (lidx : Nat) (lens : Vector (BitVec 4) 320) : State :=
  { block .dynamicBlockHeader [] 0 with dynPhase := .symbols, hlit := 257, hdist := 1, lidx := lidx, lens := lens }

/-- R238: `LENS[97] = 1`, `LIDX = 98`. -/
theorem test_cl_len :
    reached (exec (.clLen 1) (lengthsAt 97 (Vector.replicate 320 0)))
      (fun t => t.lidx == 98 && t.lens.getD 97 0 == 1 && t.lens.getD 96 0 == 0 && t.lens.getD 98 0 == 0) = true := by
  decide +kernel

/-- R239: `LENS[9] = 8`, `LIDX = 10`, `REP = 6`. -/
theorem test_cl_rep :
    reached (exec (.clRep 6) (lengthsAt 10 ((Vector.replicate 320 0).setIfInBounds 9 8)))
      (fun t => t.lidx == 16 && t.rep == 6 && (t.lens.toList.drop 8).take 9 == [0, 8, 8, 8, 8, 8, 8, 8, 0]) = true := by
  decide +kernel

/-- R239: no previous length. -/
theorem test_cl_rep_first :
    reached (exec (.clRep 3) (lengthsAt 0 (Vector.replicate 320 0))) (fun t => t.isErr && t.errCode == 7) = true := by
  decide

/-- R240: `REP = 8`, also as the first symbol. -/
theorem test_cl_zrep3 :
    reached (exec (.clZrep3 8) (lengthsAt 0 (Vector.replicate 320 5)))
      (fun t => t.lidx == 8 && t.lens.toList.take 9 == [0, 0, 0, 0, 0, 0, 0, 0, 5]) = true := by decide +kernel

/-- R241: `REP = 97`. -/
theorem test_cl_zrep11 :
    reached (exec (.clZrep11 97) (lengthsAt 0 (Vector.replicate 320 5)))
      (fun t => t.lidx == 97 && t.lens.getD 96 1 == 0 && t.lens.getD 97 1 == 5) = true := by decide +kernel

/-- R242: a run one past the end, and R246: one that ends there builds the tables. -/
theorem test_cl_run_end :
    reached (exec (.clZrep3 3) (lengthsAt 256 (Vector.replicate 320 0))) (fun t => t.isErr && t.errCode == 7) &&
      reached (exec (.clLen 0) (lengthsAt 257 (((Vector.replicate 320 0).setIfInBounds 97 1).setIfInBounds 256 1)))
        (fun t => t.fsm == .symbolLoop && t.sel && t.tLl == ⟨1, [⟨97, 1⟩, ⟨256, 1⟩]⟩ && t.tD == Table.empty) = true := by
  decide +kernel

/-- R265: `LIT 0x61`. -/
theorem test_lit :
    reached (exec (.lit 0x61) (produced [0x60] (block .symbolLoop [] 2)))
      (fun t => t.outPos == 2 && t.out == [(0, 0x60), (1, 0x61)]) &&
      reached (exec (.lit 0x61) (produced [0x60] (block .symbolLoop [] 1))) (fun t => t.errCode == 6) = true := by decide

/-- R266, R193. -/
theorem test_eob :
    reached (exec .eob (produced [0x61] (block .symbolLoop [] 2))) (fun t => t.fsm == .awaitingBlockHeader) &&
      reached (exec .eob { produced [0x61] (block .symbolLoop [] 2) with bfinal := true })
        (fun t => t.isDone && t.bytesWritten == 1 && t.errCode == 0) = true := by decide

/-- R361: `LEN_260`, `DIST_2` of `4B 4C 4A 86 20 00` repeats `61 62 63`. -/
theorem test_step_match :
    reached (step (produced [0x61, 0x62, 0x63] (static (blockAt .symbolLoop [0x4B, 0x4C, 0x4A, 0x86, 0x20, 0x00] 27 9))))
      (fun t => t.outPos == 9 && t.mlen == 6 && t.mdist == 3 && t.dsym == 2 && t.sym == 260 &&
        t.out == [(0, 0x61), (1, 0x62), (2, 0x63), (3, 0x61), (4, 0x62), (5, 0x63), (6, 0x61), (7, 0x62), (8, 0x63)]) =
      true := by decide +kernel

/-- R362 (a): `03 02 00`, a match with nothing produced. -/
theorem test_step_match_too_far :
    reached (step (static (blockAt .symbolLoop [0x03, 0x02, 0x00] 3 9))) (fun t => t.isErr && t.errCode == 5) = true := by
  decide +kernel

/-- R268: lengths 3 and 12, and the two codings of length 258. -/
theorem test_match_lengths :
    ([(.len257 0, 3), (.len265 1, 12)] : List (Instr × Nat)).all (fun p =>
      reached (exec p.1 (produced [0x61] (static (block .symbolLoop [0x00, 0x00] 259))))
        (fun t => t.mlen == p.2 && t.outPos == p.2 + 1 && t.out.read p.2 == 0x61)) = true ∧
      lbase 27 + 31 = 258 ∧ lbase 28 = 258 := by decide +kernel

/-- R302: the ends of the ranges of `DIST_4` and `DIST_29`, and `DIST_0`. -/
theorem test_distances :
    reached (exec (.dist4 1) { produced [1, 2, 3, 4, 5, 6] (block .symbolLoop [] 9) with mlen := 3 })
      (fun t => t.mdist == 6 && t.out.read 6 == 1 && t.out.read 8 == 3) &&
      reached (exec (.dist29 8191) { block .symbolLoop [] 40000 with mlen := 3, outPos := 32768 })
        (fun t => t.mdist == 32768 && t.outPos == 32771) &&
      reached (exec (.dist29 8191) { block .symbolLoop [] 40000 with mlen := 3, outPos := 32767 })
        (fun t => t.errCode == 5) = true := by decide +kernel

/-- R299, R300, R333, R334. -/
theorem test_reserved_symbols :
    ([.ll286, .ll287, .dist30, .dist31] : List Instr).all (fun i =>
      reached (exec i (block .symbolLoop [] 9)) (fun t => t.isErr && t.errCode == 8)) = true := by decide

/-- R412, R410: launch, and reset winning over it. -/
theorem test_launch_and_reset :
    reached (step { State.reset with pins := ⟨false, true, true, 7, 9⟩ })
      (fun t => t.fsm == .zlibHeader && t.inLen == 7 && t.outCap == 9 && t.zlib) &&
      reached (step { block .symbolLoop [1] 9 with pins := ⟨true, true, true, 7, 9⟩ })
        (fun t => t.fsm == .idle && t.inLen == 0) = true := by decide

/-- A word of the opcode table is fetched and run as the first instruction after reset (log entry 14). -/
theorem test_table_words_run :
    decodeTableWord 16 257 = some (.len257 0) ∧ decodeTableWord 8 17 = some (.clZrep3 3) ∧
      decodeTableWord 8 4 = some (.bhdrDyn false) ∧
      reached (step (State.reset.withFetchWord 8 4)) (fun t => t.fsm == .dynamicBlockHeader) = true := by decide +kernel

/-! ## Witnesses: states that meet the hypotheses of the statements, clause by clause -/

theorem block_cursor (f : Fsm) (bytes : List Byte) (cap : Nat) : (block f bytes cap).CursorInv :=
  ⟨Nat.zero_le _, (by decide : (0 : BitVec 32).toNat < 2 ^ 0), Nat.zero_le _, Nat.zero_le _, fun _ h => absurd h (Nat.not_lt_zero _)⟩

/-- Bit 7 of a one-byte `IN`: one bit is left, and it is in `ACC`. -/
def lastBit (f : Fsm) : State := blockAt f [0x80] 7 4

theorem lastBit_cursor (f : Fsm) : (lastBit f).CursorInv := by
  refine ⟨?_, ?_, ?_, ?_, fun i h => ?_⟩
  · cases f <;> decide
  · cases f <;> decide
  · cases f <;> decide
  · cases f <;> decide
  · obtain rfl : i = 0 := Nat.lt_one_iff.mp h
    cases f <;> decide

theorem block_fits (f : Fsm) (bytes : List Byte) (h : bytes.length < 2 ^ 32) :
    (block f bytes 4).Fits where
  bitcnt := by change 0 < 64; decide
  inOff := Nat.two_pow_pos 32
  outPos := Nat.two_pow_pos 32
  inLen := h
  outCap := by change 4 < 2 ^ 32; decide
  bytesWritten := Nat.two_pow_pos 32
  hlit := by change 0 < 512; decide
  hdist := by change 0 < 64; decide
  hclen := by change 0 < 32; decide
  lidx := by change 0 < 512; decide
  rep := by change 0 < 256; decide
  sym := by change 0 < 512; decide
  dsym := by change 0 < 32; decide
  mlen := by change 0 < 512; decide
  mdist := by change 0 < 65536; decide
  clIdx := by change 0 < 32; decide
  tCl := empty_fits
  tLl := empty_fits
  tD := empty_fits
  tLlFixed := empty_fits
  tDFixed := empty_fits

/-- A good state of a run that is about to read a block header. -/
theorem headerNext_inv (bytes : List Byte) (h : bytes.length < 2 ^ 32) : (block .awaitingBlockHeader bytes 4).Inv where
  inp_wf := Memory.wf_ofBytes 0 bytes
  out_wf := rfl
  fits := block_fits _ bytes h
  code := rfl
  cursor := fun _ => block_cursor _ _ _
  room := fun _ => Nat.zero_le _
  result := fun hc => nomatch hc
  fixed := fun _ hc => nomatch hc
  header := fun hc => nomatch hc
  tables := fun hc => nomatch hc

/-- In the header of a dynamic block, before its first code-length symbol. -/
def symbolsNext (cllen : Vector (BitVec 3) 19) (t : Table) (s : State) : State :=
  { s with fsm := .dynamicBlockHeader, dynPhase := .symbols, hlit := 257, hdist := 1, hclen := 4, cllen := cllen, tCl := t }

/-- A good state of a dynamic header, whatever accepted set `T_CL` was built from. -/
theorem symbolsNext_inv {cllen : Vector (BitVec 3) 19} {t : Table} {s : State} (hs : s.Fits)
    (hb : build (cllen.toList.map BitVec.toNat) = some t) (hi : s.inp.wf = true) (ho : s.out.wf = true)
    (hc : s.CursorInv) (hr : s.outPos ≤ s.outCap) (he : s.errCode = 0) (hl : s.lidx = 0) (hv : s.staticValid = false) :
    (symbolsNext cllen t s).Inv where
  inp_wf := hi
  out_wf := ho
  fits := { hs with
    hlit := by change 257 < 512; decide
    hdist := by change 1 < 64; decide
    hclen := by change 4 < 32; decide
    tCl := build_fits hb (fun l h => by
      obtain ⟨v, -, rfl⟩ := List.mem_map.mp h
      have := v.isLt
      omega) (by simp) }
  code := he
  cursor := fun _ => ⟨hc.count, hc.acc_lt, hc.behind, hc.within, hc.acc_bits⟩
  room := fun _ => hr
  result := fun hc => nomatch hc
  fixed := fun _ hc => by rw [show (symbolsNext cllen t s).staticValid = false from hv] at hc; cases hc
  header := fun _ => ⟨⟨by change 257 ≤ 257 ∧ 257 ≤ 286; decide, by change 1 ≤ 1 ∧ 1 ≤ 30; decide,
    by change 4 ≤ 4 ∧ 4 ≤ 19; decide⟩, by change s.lidx < 258; omega, hb⟩
  tables := fun hc => nomatch hc

/-- In the symbol loop of a static block. -/
theorem staticNext_inv {ll d : Table} (hll : build fixedLLLens = some ll) (hd : build fixedDLens = some d)
    (fll : Table.Fits ll) (fd : Table.Fits d) (bytes : List Byte) (h : bytes.length < 2 ^ 32) :
    ({ block .symbolLoop bytes 4 with staticValid := true, tLlFixed := ll, tDFixed := d }).Inv where
  inp_wf := Memory.wf_ofBytes 0 bytes
  out_wf := rfl
  fits := { block_fits .symbolLoop bytes h with tLlFixed := fll, tDFixed := fd }
  code := rfl
  cursor := fun _ => (block_cursor .symbolLoop bytes 4).congr rfl rfl rfl rfl rfl
  room := fun _ => Nat.zero_le _
  result := fun hc => nomatch hc
  fixed := fun _ _ => ⟨hll, hd⟩
  header := fun hc => nomatch hc
  tables := fun _ => rfl

/-! ### Encoding and tables -/

theorem witness_DecodeUndoesEncode :
    (wellFormed (.dist29 8191) = true ∧
      encode staticBooks (.dist29 8191) = some (bits [1, 1, 1, 0, 1, 1, 1, 1, 1, 1, 1, 1, 1, 1, 1, 1, 1, 1])) ∧
    wellFormed (.stored 1 0xFFFE) = true ∧
      encode staticBooks (.stored 1 0xFFFE) = some (bitsOfNat 16 1 ++ bitsOfNat 16 0xFFFE) := by decide

theorem witness_CanonicalCodesDecode :
    (∀ l ∈ [2, 0, 2, 1], l ≤ 16) ∧ build [2, 0, 2, 1] = some ⟨2, [⟨3, 1⟩, ⟨0, 2⟩, ⟨3, 1⟩, ⟨2, 2⟩]⟩ ∧
      [2, 0, 2, 1].getD 3 0 = 1 ∧ codeBits 1 (canonicalCode [2, 0, 2, 1] 3) ++ [true] = bits [0, 1] ∧
      takeSymbol ⟨2, [⟨3, 1⟩, ⟨0, 2⟩, ⟨3, 1⟩, ⟨2, 2⟩]⟩ (bits [0, 1]) = .ok (3, [true]) := by
  refine ⟨by decide, by decide +kernel, by decide, by decide +kernel, rfl⟩

theorem witness_OnlyOverSubscribedSetsAreRefused :
    2 ^ 16 < kraftSum [1, 1, 1] ∧ kraftSum [2, 0, 2, 1] = 2 ^ 16 ∧ [2, 0, 2, 1].getD 3 0 ≤ [2, 0, 2, 1].getD 0 0 := by
  decide

/-- Entry 3 of a complete set is the code of symbol 2; entry 1 of an incomplete set is unfilled. -/
theorem witness_BuiltEntriesAreTheCanonicalCodes :
    (build [2, 0, 2, 1] = some ⟨2, [⟨3, 1⟩, ⟨0, 2⟩, ⟨3, 1⟩, ⟨2, 2⟩]⟩ ∧
      3 % 2 ^ 2 = revBits 2 (canonicalCode [2, 0, 2, 1] 2)) ∧
    build [1] = some ⟨1, [⟨0, 1⟩, Entry.unfilled]⟩ ∧ 1 % 2 ^ 1 ≠ revBits 1 (canonicalCode [1] 0) := by decide +kernel

theorem witness_UnfilledEntriesAreCounted :
    build [1] = some ⟨1, [⟨0, 1⟩, Entry.unfilled]⟩ ∧ kraftSum [1] / 2 ^ (16 - 1) = 1 ∧ kraftSum [1, 1] = 2 ^ 16 := by
  decide +kernel

/-! ### The cursor and the copier -/

/-- `PEEK(32)` of four bytes, `PEEK(25)` of three, and `PEEK(0)` at the end of an empty `IN`. -/
theorem witness_PeekLooksAhead :
    (block .symbolLoop [1, 2, 3, 4] 4).CursorInv ∧ (block .symbolLoop [1, 2, 3, 4] 4).peekable 32 = true ∧
      (32 - 0 + 7) / 8 ≤ 4 - 0 ∧ (block .symbolLoop [1, 2, 3] 4).peekable 25 = true ∧
      ¬ (25 ≤ 0 ∨ (25 - 0 + 7) / 8 ≤ 3 - 0) ∧ (lastBit .symbolLoop).CursorInv :=
  ⟨block_cursor _ _ _, by decide, by decide, by decide, by decide, lastBit_cursor _⟩

theorem witness_TakeConsumesTheNextBits :
    (block .storedBlock [5, 0] 4).CursorInv ∧ (block .storedBlock [5, 0] 4).peekable 16 = true ∧
      16 ≤ (block .storedBlock [5, 0] 4).bitsLeft ∧ (block .storedBlock [5] 4).bitsLeft < 16 :=
  ⟨block_cursor _ _ _, by decide, by decide, by decide⟩

theorem witness_DiscardDropsPeekedBits :
    (lastBit .symbolLoop).CursorInv ∧ 1 ≤ (lastBit .symbolLoop).bitcnt ∧ (lastBit .symbolLoop).bitcnt < 2 ∧
      ({ State.reset with bitcnt := 32 }).bitcnt = 32 := ⟨lastBit_cursor _, by decide, by decide, rfl⟩

theorem witness_AlignReachesTheNextByte :
    (lastBit .storedBlock).CursorInv ∧ (lastBit .storedBlock).bitcnt % 8 = 1 ∧
      (block .storedBlock [1] 4).CursorInv ∧ (block .storedBlock [1] 4).bitcnt % 8 = 0 :=
  ⟨lastBit_cursor _, by decide, block_cursor _ _ _, rfl⟩

/-- Four bytes fit exactly; five run out of input and of room at once (`a = b`, so `TruncatedStream`). -/
theorem witness_ReadRawCopiesOrFaults :
    (block .storedBlock [1, 2, 3, 4] 4).CursorInv ∧ (block .storedBlock [1, 2, 3, 4] 4).out.wf = true ∧
      (block .storedBlock [1, 2, 3, 4] 4).outPos ≤ 4 ∧ 4 ≤ 4 - (0 - 0 / 8) ∧ 4 ≤ 4 - 0 ∧
      ¬ (5 ≤ 4 - (0 - 0 / 8) ∧ 5 ≤ 4 - 0) ∧ (lastBit .storedBlock).CursorInv ∧ (lastBit .storedBlock).bitcnt % 8 ≠ 0 :=
  ⟨block_cursor _ _ _, rfl, by decide, by decide, by decide, by decide, lastBit_cursor _, by decide⟩

/-- Two bits of stream and the table of `[2, 0, 2, 1]`: the code of symbol 3; and the incomplete `[1]` meets a 1. -/
theorem witness_DecodeFindsTheOneCode :
    (block .symbolLoop [0] 4).CursorInv ∧ build [2, 0, 2, 1] = some ⟨2, [⟨3, 1⟩, ⟨0, 2⟩, ⟨3, 1⟩, ⟨2, 2⟩]⟩ ∧
      2 ≤ (block .symbolLoop [0] 4).bitsLeft ∧
      (block .symbolLoop [0] 4).streamBits 0 1 = codeBits 1 (canonicalCode [2, 0, 2, 1] 3) ∧
      build [1] = some ⟨1, [⟨0, 1⟩, Entry.unfilled]⟩ ∧
      (block .symbolLoop [1] 4).streamBits 0 1 ≠ codeBits 1 (canonicalCode [1] 0) ∧
      (lastBit .symbolLoop).CursorInv ∧ (lastBit .symbolLoop).bitsLeft < 2 :=
  ⟨block_cursor _ _ _, by decide +kernel, by decide, by decide +kernel, by decide +kernel, by decide +kernel,
    lastBit_cursor _, by decide⟩

/-- `dist = OUT_POS` and a copy that ends exactly at `OUT_CAP`. -/
theorem witness_CopyRepeatsCyclically :
    (produced [1] (block .symbolLoop [] 4)).out.wf = true ∧ 1 ≤ (produced [1] (block .symbolLoop [] 4)).outPos ∧
      (produced [1] (block .symbolLoop [] 4)).outPos + 3 ≤ (produced [1] (block .symbolLoop [] 4)).outCap := by decide

theorem witness_CopyFaultsInOrder :
    (produced [1] (block .symbolLoop [] 4)).out.wf = true ∧ (produced [1] (block .symbolLoop [] 4)).outPos ≤ 4 ∧
      (produced [1] (block .symbolLoop [] 4)).outPos < 2 ∧ 4 < (produced [1] (block .symbolLoop [] 4)).outPos + 4 := by
  decide

/-! ### Headers and stored blocks -/

theorem witness_ZlibHeaderIsTested :
    (256 * (0x78 : Byte).toNat + (0x9C : Byte).toNat) % 31 = 0 ∧ (0x9C : Byte).getLsbD 5 = false ∧
      (0x78 : Byte).toNat % 16 = 8 ∧ (0x78 : Byte).toNat / 16 ≤ 7 ∧
      (256 * (0x78 : Byte).toNat + (0x9D : Byte).toNat) % 31 ≠ 0 := by decide

theorem witness_StaticHeaderSelectsTheFixedTables :
    ({ State.reset with staticValid := true }).staticValid = true ∧ State.reset.staticValid = false := ⟨rfl, rfl⟩

theorem witness_StoredBlockCopiesItsPayload :
    (2 : BitVec 16).toNat + (0xFFFD : BitVec 16).toNat = 65535 ∧ (block .storedBlock [0x48, 0x69] 2).CursorInv ∧
      (block .storedBlock [0x48, 0x69] 2).bitcnt % 8 = 0 ∧ (block .storedBlock [0x48, 0x69] 2).out.wf = true ∧
      2 ≤ (block .storedBlock [0x48, 0x69] 2).inLen - (0 - 0 / 8) ∧ 0 + 2 ≤ (block .storedBlock [0x48, 0x69] 2).outCap :=
  ⟨by decide, block_cursor _ _ _, rfl, rfl, by decide, by decide⟩

/-- A wrong complement; one payload byte of two there (`a < b`); room for one of two (`b < a`). -/
theorem witness_StoredBlockFaultsInOrder :
    (5 : BitVec 16).toNat + (0 : BitVec 16).toNat ≠ 65535 ∧
      (2 : BitVec 16).toNat + (0xFFFD : BitVec 16).toNat = 65535 ∧ (block .storedBlock [0x48] 2).CursorInv ∧
      ¬ (2 ≤ (block .storedBlock [0x48] 2).inLen - 0 ∧ 2 ≤ (block .storedBlock [0x48] 2).outCap - 0) ∧
      (block .storedBlock [0x48, 0x69] 1).CursorInv ∧
      ¬ (2 ≤ (block .storedBlock [0x48, 0x69] 1).inLen - 0 ∧ 2 ≤ (block .storedBlock [0x48, 0x69] 1).outCap - 0) :=
  ⟨by decide, by decide, block_cursor _ _ _, by decide, block_cursor _ _ _, by decide⟩

/-! ### The dynamic header -/

theorem witness_CountsAreRangeChecked : (286 ≤ 286 ∧ 30 ≤ 30) ∧ (286 < 287 ∨ 30 < 30) ∧ (286 < 286 ∨ 30 < 31) := by
  decide

theorem witness_EntriesGoToTheirSwizzledPlace :
    ({ State.reset with hclen := 19, clIdx := 17 }).clIdx + 1 < 19 ∧
      ({ State.reset with hclen := 19, clIdx := 17 }).clIdx < 19 := by decide

/-- The nineteenth entry of nineteen, and an over-subscribed set of four symbols of length 1 (R234). -/
theorem witness_LastEntryBuildsTCl :
    (({ State.reset with hclen := 19, clIdx := 18 }).hclen ≤ 18 + 1 ∧ kraftSum (List.replicate 19 0) ≤ 2 ^ 16) ∧
      2 ^ 16 < kraftSum [1, 1, 1, 1] := by decide

theorem witness_CodeLengthSymbolsWriteTheirRun :
    ((lengthsAt 97 (Vector.replicate 320 0)).lengthRun (.clLen 15) = some ⟨15, 1, 0⟩ ∧ 97 + 1 < 257 + 1) ∧
      ((lengthsAt 1 (Vector.replicate 320 7)).lengthRun (.clRep 6) = some ⟨7, 6, 6⟩ ∧ 1 + 6 < 257 + 1) ∧
      ((lengthsAt 0 (Vector.replicate 320 7)).lengthRun (.clZrep3 10) = some ⟨0, 10, 10⟩ ∧ 0 + 10 < 257 + 1) ∧
      (lengthsAt 0 (Vector.replicate 320 7)).lengthRun (.clZrep11 138) = some ⟨0, 138, 138⟩ ∧ 0 + 138 < 257 + 1 := by
  decide +kernel

/-- The last length of all, alone and as the end of a run; its lengths accepted (all 0) and over-subscribed (all 1). -/
theorem witness_LastLengthBuildsTheTables :
    ((lengthsAt 257 (Vector.replicate 320 0)).lengthRun (.clLen 0) = some ⟨0, 1, 0⟩ ∧ 257 + 1 = 257 + 1) ∧
      ((lengthsAt 252 (Vector.replicate 320 1)).lengthRun (.clRep 6) = some ⟨1, 6, 6⟩ ∧ 252 + 6 = 257 + 1) ∧
      ((lengthsAt 248 (Vector.replicate 320 0)).lengthRun (.clZrep3 10) = some ⟨0, 10, 10⟩ ∧ 248 + 10 = 257 + 1) ∧
      ((lengthsAt 120 (Vector.replicate 320 0)).lengthRun (.clZrep11 138) = some ⟨0, 138, 138⟩ ∧ 120 + 138 = 257 + 1) ∧
      kraftSum (lensSlice (Vector.replicate 320 0) 0 257) ≤ 2 ^ 16 ∧
      kraftSum (lensSlice (Vector.replicate 320 0) 257 1) ≤ 2 ^ 16 ∧
      2 ^ 16 < kraftSum (lensSlice (Vector.replicate 320 1) 0 257) := by decide +kernel

theorem witness_RunawayRepeatsFault :
    (lengthsAt 0 (Vector.replicate 320 0)).lidx = 0 ∧
      (lengthsAt 256 (Vector.replicate 320 0)).hlit + (lengthsAt 256 (Vector.replicate 320 0)).hdist < 256 + 3 :=
  ⟨rfl, by decide⟩

/-! ### The symbol loop -/

theorem witness_LiteralIsEmitted :
    (produced [1, 2, 3] (block .symbolLoop [] 4)).out.wf = true ∧ (produced [1, 2, 3] (block .symbolLoop [] 4)).outPos < 4 ∧
      (produced [1, 2, 3, 4] (block .symbolLoop [] 4)).outCap ≤ (produced [1, 2, 3, 4] (block .symbolLoop [] 4)).outPos := by
  decide

theorem witness_EndOfBlockReturnsOrFinishes :
    State.reset.bfinal = false ∧ ({ State.reset with bfinal := true }).bfinal = true := ⟨rfl, rfl⟩

/-- One byte produced, room for three more, the distance code `00000` next. -/
def pairNext : State := produced [0x61] (static (block .symbolLoop [0x00] 4))

theorem witness_LengthPairsCopy :
    lengthRow (.len257 0) = some ⟨257, 3, 0, 0⟩ ∧ pairNext.CursorInv ∧ Table.Decodable pairNext.td ∧
      pairNext.out.wf = true ∧ decode (.dsym pairNext.td) pairNext.remaining = .ok (.dist0 0, bits [0, 0, 0]) ∧
      distanceRow (.dist0 0) = some ⟨0, 1, 0, 0⟩ ∧ 1 ≤ pairNext.outPos ∧ pairNext.outPos + 3 ≤ pairNext.outCap :=
  ⟨rfl, (block_cursor .symbolLoop [0x00] 4).congr rfl rfl rfl rfl rfl, fixedDTable_decodable, rfl, by decide +kernel, rfl, by decide, by decide⟩

/-- Nothing left; an empty distance set; the reserved code `11110`; a distance of 2 with one byte produced; a length of 4
with room for 3. -/
theorem witness_LengthPairsFaultInOrder :
    ((static (block .symbolLoop [] 4)).CursorInv ∧
      decode (.dsym fixedDTable) (static (block .symbolLoop [] 4)).remaining = .error .truncated) ∧
    (Table.Decodable Table.empty ∧
      decode (.dsym Table.empty) (block .symbolLoop [0x00] 4).remaining = .error .unfilled) ∧
    decode (.dsym fixedDTable) (static (block .symbolLoop [0x0F] 4)).remaining = .ok (.dist30, bits [0, 0, 0]) ∧
    (decode (.dsym fixedDTable) (static (block .symbolLoop [0x10] 4)).remaining = .ok (.dist1 0, bits [0, 0, 0]) ∧
      distanceRow (.dist1 0) = some ⟨1, 2, 0, 0⟩ ∧ pairNext.outPos < 2) ∧
    lengthRow (.len258 0) = some ⟨258, 4, 0, 0⟩ ∧ pairNext.outCap < pairNext.outPos + 4 := by
  refine ⟨⟨(block_cursor .symbolLoop [] 4).congr rfl rfl rfl rfl rfl, by decide +kernel⟩, ⟨⟨by decide, fun i => ?_⟩, by decide⟩, by decide +kernel,
    by decide +kernel, by decide, by decide⟩
  cases i with
  | zero => decide
  | succ i => exact Nat.zero_le _

theorem witness_DistanceSymbolsCopy :
    distanceRow (.dist0 0) = some ⟨0, 1, 0, 0⟩ ∧ pairNext.out.wf = true ∧ 1 ≤ pairNext.outPos ∧
      ({ pairNext with mlen := 3 }).outPos + 3 ≤ pairNext.outCap ∧ pairNext.outPos < 2 ∧
      ({ pairNext with mlen := 4 }).outCap < pairNext.outPos + 4 := by decide

/-! ### The step -/

theorem witness_StepRunsTheDecodedElement :
    (block .awaitingBlockHeader [0x03, 0x00] 4).Inv ∧ (block .awaitingBlockHeader [0x03, 0x00] 4).Quiet ∧
      (block .awaitingBlockHeader [0x03, 0x00] 4).context = some .block ∧
      decode .block (block .awaitingBlockHeader [0x03, 0x00] 4).remaining =
        .ok (.bhdrFixed true, bits [0, 0, 0, 0, 0, 0, 0, 0, 0, 0, 0, 0, 0]) :=
  ⟨headerNext_inv _ (by decide), ⟨rfl, rfl⟩, rfl, by decide⟩

/-- One bit of `IN` is left, the code of `CL.REP`, and no length is defined yet. -/
def repeatNext : State :=
  symbolsNext (((Vector.replicate 19 0).setIfInBounds 0 1).setIfInBounds 16 1) ⟨1, [⟨0, 1⟩, ⟨16, 1⟩]⟩ (lastBit .idle)

/-- An empty `T_CL`, so that whatever bits come next select an unfilled entry. -/
def emptyNext : State := symbolsNext (Vector.replicate 19 0) Table.empty (block .idle [0x00] 4)

/-- An unfilled entry; a stream that ends (no bytes left); `CL.REP` at the last bit with no previous length. -/
theorem witness_StepFaultsWhereTheDecoderRejects :
    (emptyNext.Inv ∧ emptyNext.Quiet ∧ emptyNext.context = some (.clsym Table.empty) ∧
      decode (.clsym Table.empty) emptyNext.remaining = .error .unfilled) ∧
    ((block .awaitingBlockHeader [] 4).Inv ∧ (block .awaitingBlockHeader [] 4).Quiet ∧
      (block .awaitingBlockHeader [] 4).context = some .block ∧
      decode .block (block .awaitingBlockHeader [] 4).remaining = .error .truncated ∧
      ¬ (Context.block = .clsym (block .awaitingBlockHeader [] 4).tCl ∧
        (block .awaitingBlockHeader [] 4).RepeatsNothing)) ∧
    (repeatNext.Inv ∧ repeatNext.Quiet ∧ repeatNext.context = some (.clsym repeatNext.tCl) ∧
      decode (.clsym repeatNext.tCl) repeatNext.remaining = .error .truncated ∧ repeatNext.RepeatsNothing) := by
  refine ⟨⟨symbolsNext_inv (block_fits _ _ (by decide)) (by decide +kernel) (Memory.wf_ofBytes 0 [0x00]) rfl
      (block_cursor _ _ _) (Nat.zero_le _) rfl rfl rfl, ⟨rfl, rfl⟩, rfl, by decide⟩,
    ⟨headerNext_inv _ (by decide), ⟨rfl, rfl⟩, rfl, by decide, fun h => nomatch h.1⟩,
    ⟨symbolsNext_inv ?_ (by decide +kernel) (Memory.wf_ofBytes 0 [0x80]) rfl (lastBit_cursor .idle) (Nat.zero_le _) rfl
      rfl rfl, ⟨rfl, rfl⟩, rfl, by decide, rfl, [], by decide⟩⟩
  exact { block_fits .idle [0x80] (by decide) with
    bitcnt := by decide
    inOff := by decide }

/-- R378: `CL.REP` with `LIDX = 0` and its extra bits missing reports `InvalidCodeLengths`. -/
theorem test_cl_rep_first_fault :
    reached (step repeatNext) (fun t => t.fsm == .failed && t.errCode == 7) = true := by decide

theorem witness_TerminalStatesPersist :
    State.reset.Quiet ∧ State.reset.fsm = .idle ∧ (block .done [] 4).Quiet ∧ (block .done [] 4).fsm = .done ∧
      (block .failed [] 4).Quiet ∧ (block .failed [] 4).fsm = .failed :=
  ⟨⟨rfl, rfl⟩, rfl, ⟨rfl, rfl⟩, rfl, ⟨rfl, rfl⟩, rfl⟩

theorem witness_LaunchStartsAFreshRun :
    (∃ s : State, s.pins.rst = false ∧ s.pins.start = true ∧ s.busy = true) ∧
      ∃ s : State, s.pins.rst = false ∧ s.pins.start = true ∧ s.busy = false ∧ s.pins.inLen < 2 ^ Config.aw ∧
        s.pins.outCap < 2 ^ Config.aw :=
  ⟨⟨{ block .symbolLoop [] 4 with pins := ⟨false, true, false, 0, 0⟩ }, by decide⟩,
    { block .failed [] 4 with pins := ⟨false, true, true, 2 ^ 32 - 1, 0⟩ }, by decide⟩

theorem witness_LaunchesThatDoNotFitAreRefused :
    ∃ s : State, s.pins.rst = false ∧ s.pins.start = true ∧ s.busy = false ∧
      (2 ^ Config.aw ≤ s.pins.inLen ∨ 2 ^ Config.aw ≤ s.pins.outCap) :=
  ⟨{ State.reset with pins := ⟨false, true, false, 2 ^ 32, 0⟩ }, by decide⟩

theorem witness_ResetWinsAlways :
    ({ block .symbolLoop [] 4 with pins := ⟨true, true, false, 0, 0⟩ }).pins.rst = true ∧
      (block .symbolLoop [] 4).busy = true ∧ State.reset.busy = false ∧ State.reset.out.wf = true := ⟨rfl, rfl, rfl, rfl⟩

theorem witness_FaultEntryDefinesCodeAndStatus : State.reset.out.wf = true := rfl

/-- Two states that differ in the cursor, the dispatcher, the counts and the byte of `OUT` below `OUT_CAP`. -/
theorem witness_FaultsRecordOnlyTheirCode :
    let s := produced [0x61] (block .symbolLoop [0x80] 4)
    let s' := lastBit .storedBlock
    s.out.wf = true ∧ s'.out.wf = true ∧ s'.inLen = s.inLen ∧ s'.outCap = s.outCap ∧ s'.zlib = s.zlib ∧
      s'.inp = s.inp ∧ s'.pins = s.pins ∧ s'.draw = s.draw ∧ (∀ x, s.outCap ≤ x → s'.out.read x = s.out.read x) ∧
      s.out ≠ s'.out ∧ s.acc ≠ s'.acc ∧ s.fsm ≠ s'.fsm := by
  refine ⟨rfl, rfl, rfl, rfl, rfl, rfl, rfl, rfl, fun x hx => ?_, by decide, by decide, by decide⟩
  have : x ≠ 0 := by
    rintro rfl
    exact absurd hx (by decide)
  exact (if_neg this.symm).symm

/-! ### Whole-machine rules -/

/-- A good state that steps to another, within a run, neither failing nor standing still: it meets the hypotheses of
StepKeepsTheInvariant, GoodStatesStep, InputIsNeverWritten, OutputAboveCapacityIsNeverWritten, OutputGrowsForward,
PositionMovesOn, DispatcherFollowsTheGrammar, LaunchArgumentsAreConstant and EveryRunEnds. -/
theorem witness_good_step :
    (block .awaitingBlockHeader [0x01, 0x00] 4).Inv ∧ (block .awaitingBlockHeader [0x01, 0x00] 4).LaunchPremise ∧
      (block .awaitingBlockHeader [0x01, 0x00] 4).Quiet ∧ (block .awaitingBlockHeader [0x01, 0x00] 4).busy = true ∧
      ∃ t, step (block .awaitingBlockHeader [0x01, 0x00] 4) = .next t ∧ t.fsm = .storedBlock ∧
        (block .awaitingBlockHeader [0x01, 0x00] 4).fsm ≠ .staticBlock :=
  ⟨headerNext_inv _ (by decide), ⟨Nat.two_pow_pos 32, Nat.two_pow_pos 32⟩, ⟨rfl, rfl⟩, rfl, _, rfl, rfl,
    fun h => nomatch h⟩

/-- A static block's loop is a good state too. -/
theorem witness_good_symbol_loop :
    ∃ s : State, s.Inv ∧ s.Quiet ∧ s.busy = true ∧ s.fsm = .symbolLoop ∧ s.sel = false :=
  ⟨_, staticNext_inv build_fixedLLLens build_fixedDLens fixedLLTable_fits fixedDTable_fits [0x00] (by decide), ⟨rfl, rfl⟩, rfl, rfl, rfl⟩

/-- The other clauses of DispatcherFollowsTheGrammar: reset, launch, and the end of a final and of another block. -/
theorem witness_DispatcherFollowsTheGrammar :
    (∃ t, step { block .symbolLoop [] 4 with pins := ⟨true, false, false, 0, 0⟩ } = .next t ∧ t.fsm = .idle) ∧
      (∃ t, step { State.reset with pins := ⟨false, true, true, 0, 0⟩ } = .next t ∧ t.fsm = .zlibHeader) ∧
      (∃ t, exec .eob { block .symbolLoop [] 4 with bfinal := true } = .next t ∧ t.fsm = .done) ∧
      ∃ t, exec .eob (block .symbolLoop [] 4) = .next t ∧ t.fsm = .awaitingBlockHeader :=
  ⟨⟨_, rfl, rfl⟩, ⟨_, rfl, rfl⟩, ⟨_, rfl, rfl⟩, ⟨_, rfl, rfl⟩⟩

/-- Two launches that begin alike from blocks with different histories. -/
theorem witness_RunsDependOnTheLaunchAlone :
    ∃ s s' t t' : State, s.pins.rst = false ∧ s.pins.start = true ∧ s.busy = false ∧ s'.busy = false ∧
      s'.pins = s.pins ∧ s'.inp = s.inp ∧ s.out.wf = true ∧ s'.out.wf = true ∧ s ≠ s' ∧ step s = .next t ∧
      step s' = .next t' ∧ Steps 0 { t with pins := { t.pins with start := false } }
        { t with pins := { t.pins with start := false } } :=
  ⟨{ block .idle [0x03, 0x00] 0 with pins := ⟨false, true, false, 2, 4⟩ },
    { block .done [0x03, 0x00] 0 with pins := ⟨false, true, false, 2, 4⟩, draw := 1, out := [(0, 7)] }, _, _, rfl, rfl,
    rfl, rfl, rfl, rfl, rfl, rfl, by decide, rfl, rfl, .zero _⟩

theorem witness_EqualMemoriesAreEqualData : Memory.wf [(0, 0x61), (3, 0x62)] = true := rfl

end Sys2Proof.Tests
end

section
/-! Launch: which steps are launches, and which launches the model refuses (R9, R412, R413). -/

namespace Sys2Proof.Machine

/-- `start`, unless `rst` goes with it or the block is busy, makes the step a launch (R412). -/
theorem step_eq_launch {s : State} (hrst : s.pins.rst = false) (hstart : s.pins.start = true)
    (hbusy : s.busy = false) : step s = s.launch := by
  simp [step, hrst, hstart, hbusy]

/-- The premise on the launch arguments is all that launch tests. -/
theorem State.launch_of_not_launchPremise {s : State} (h : ¬ s.LaunchPremise) :
    s.launch = .refused .launchPremise := if_neg h

/-- A launch argument of `2 ^ AW` or more breaks the launch premise. -/
theorem State.not_launchPremise_iff {s : State} :
    ¬ s.LaunchPremise ↔ 2 ^ Config.aw ≤ s.pins.inLen ∨ 2 ^ Config.aw ≤ s.pins.outCap := by
  rw [State.LaunchPremise, not_and_or, Nat.not_lt, Nat.not_lt]

/-- Settles O37: the step is a launch, and its arguments break the premise launch tests. -/
theorem launchesThatDoNotFitAreRefused : Obligations.LaunchesThatDoNotFitAreRefused := by
  intro s hrst hstart hbusy hbig
  have hpremise : ¬ s.LaunchPremise := State.not_launchPremise_iff.mpr hbig
  rw [step_eq_launch hrst hstart hbusy, State.launch_of_not_launchPremise hpremise]

end Sys2Proof.Machine
end

section
/-! What lies ahead: one lemma per operation says that it answers a state further on in the same run, from whatever
state it is called in. The inputs are those of before, the cursor and the output position have not moved back, and
`OUT` is written only in between (R25, R27, R30, R33, R69, R72, R421). -/

namespace Sys2Proof.Machine

/-! ### States further on in a run -/

/-- What no operation of a run writes: `IN`, the launch arguments and the input signals (R30, R33, R421). -/
def State.inputs (s : State) : Memory × Nat × Nat × Bool × Pins := (s.inp, s.inLen, s.outCap, s.zlib, s.pins)

/-- `t` lies ahead of `s` in a run, or is `s`. -/
structure State.Ahead (s t : State) : Prop where
  inputs : t.inputs = s.inputs
  /-- no fault is entered -/
  fsm    : t.fsm = .failed → s.fsm = .failed
  pos    : s.pos ≤ t.pos
  outPos : s.outPos ≤ t.outPos
  out_wf : s.out.wf = true → t.out.wf = true
  frame  : s.out.wf = true → ∀ x, x < s.outPos ∨ t.outPos ≤ x ∨ s.outCap ≤ x → t.out.read x = s.out.read x

theorem State.outCap_of_inputs {s t : State} (h : t.inputs = s.inputs) : t.outCap = s.outCap :=
  congrArg (fun p => p.2.2.1) h

theorem State.inLen_of_inputs {s t : State} (h : t.inputs = s.inputs) : t.inLen = s.inLen :=
  congrArg (fun p => p.2.1) h

theorem State.inp_of_inputs {s t : State} (h : t.inputs = s.inputs) : t.inp = s.inp :=
  congrArg (fun p => p.1) h

theorem State.Ahead.refl (s : State) : s.Ahead s :=
  ⟨rfl, id, Nat.le_refl _, Nat.le_refl _, id, fun _ _ _ => rfl⟩

theorem State.Ahead.trans {s t u : State} (h₁ : s.Ahead t) (h₂ : t.Ahead u) : s.Ahead u where
  inputs := h₂.inputs.trans h₁.inputs
  fsm := fun h => h₁.fsm (h₂.fsm h)
  pos := Nat.le_trans h₁.pos h₂.pos
  outPos := Nat.le_trans h₁.outPos h₂.outPos
  out_wf := fun hw => h₂.out_wf (h₁.out_wf hw)
  frame := fun hw x hx => by
    have hcap := State.outCap_of_inputs h₁.inputs
    have h1 := h₁.outPos
    have h2 := h₂.outPos
    rw [h₂.frame (h₁.out_wf hw) x (by omega), h₁.frame hw x (by omega)]

/-- Moving the cursor on, and changing registers outside the output and the inputs, is going ahead. -/
theorem State.Ahead.of_pos_le {s t : State} (hi : t.inputs = s.inputs) (hf : t.fsm = .failed → s.fsm = .failed)
    (hp : s.pos ≤ t.pos) (ho : t.outPos = s.outPos) (hm : t.out = s.out) : s.Ahead t :=
  ⟨hi, hf, hp, Nat.le_of_eq ho.symm, fun hw => by rwa [hm], fun _ _ _ => by rw [hm]⟩

/-- Registers other than the cursor, the position, the inputs and `OUT` may change, so long as no fault is entered. -/
theorem State.Ahead.of_same {s t : State} (hi : t.inputs = s.inputs) (hf : t.fsm = .failed → s.fsm = .failed)
    (hp : t.pos = s.pos) (ho : t.outPos = s.outPos) (hm : t.out = s.out) : s.Ahead t :=
  .of_pos_le hi hf (Nat.le_of_eq hp.symm) ho hm

/-- Writing the byte at the output position and stepping over it is going ahead. -/
theorem State.Ahead.of_write {s t : State} (b : Byte) (hi : t.inputs = s.inputs) (hf : t.fsm = s.fsm)
    (hp : s.pos ≤ t.pos) (hc : s.outPos < s.outCap) (ho : t.outPos = s.outPos + 1)
    (hm : t.out = s.out.write s.outPos b) : s.Ahead t where
  inputs := hi
  fsm := fun h => hf ▸ h
  pos := hp
  outPos := by omega
  out_wf := fun hw => by rw [hm]; exact Memory.wf_write hw _ _
  frame := fun hw x hx => by rw [hm, Memory.read_write hw, if_neg (by omega)]

/-- The end of the run keeps the cursor, the position and both spaces (R44, R194). -/
theorem State.finished_ahead (s : State) : s.Ahead s.finished :=
  .of_same rfl nofun rfl rfl rfl

/-! ### Answers further on in a run -/

/-- Whatever state the operation answers, as a result or with a fault, lies ahead of `s`. -/
def Res.Ahead {α : Type} (s : State) : Res α → Prop
  | .ok _ u => s.Ahead u
  | .raised _ u => s.Ahead u
  | .fault _ => True
  | .refused _ => True

theorem Res.Ahead.after {α : Type} {s u : State} {x : Res α} (hx : x.Ahead u) (h : s.Ahead u) : x.Ahead s :=
  match x, hx with
  | .ok _ _, hx => h.trans hx
  | .raised _ _, hx => h.trans hx
  | .fault _, _ => trivial
  | .refused _, _ => trivial

theorem Res.Ahead.bind {α β : Type} {s : State} {x : Res α} {f : α → State → Res β} (hx : x.Ahead s)
    (hf : ∀ a u, (f a u).Ahead u) : (x.bind f).Ahead s :=
  match x, hx with
  | .ok a u, hx => (hf a u).after hx
  | .raised _ _, hx => hx
  | .fault _, _ => trivial
  | .refused _, _ => trivial

/-- What a step of a run answers: a state ahead of `s`, or the fault entry from one (R375). -/
def Advances (s : State) : Host.Outcome State Fault Refusal → Prop
  | .next t => s.Ahead t ∨ ∃ k u, s.Ahead u ∧ t = u.raise k
  | .fault _ => True
  | .refused _ => True

theorem Advances.raise (k : FaultKind) (s : State) : Advances s (.next (s.raise k)) := .inr ⟨k, s, .refl s, rfl⟩

theorem Advances.after {s u : State} {o : Host.Outcome State Fault Refusal} (ho : Advances u o) (h : s.Ahead u) :
    Advances s o :=
  match o, ho with
  | .next _, .inl ht => .inl (h.trans ht)
  | .next _, .inr ⟨k, w, hw, ht⟩ => .inr ⟨k, w, h.trans hw, ht⟩
  | .fault _, _ => trivial
  | .refused _, _ => trivial

theorem Res.Ahead.finish {s : State} {x : Res Unit} (hx : x.Ahead s) : Advances s x.finish :=
  match x, hx with
  | .ok _ _, hx => .inl hx
  | .raised k u, hx => .inr ⟨k, u, hx, rfl⟩
  | .fault _, _ => trivial
  | .refused _, _ => trivial

/-! ### The bit cursor -/

theorem inRead_ahead (a : Nat) (s : State) : (inRead a s).Ahead s := by
  unfold inRead
  split
  · exact .refl s
  · trivial

theorem State.pushByte_ahead (b : Byte) (s : State) : s.Ahead (s.pushByte b) :=
  .of_pos_le rfl id (by simp only [State.pos, State.pushByte_inOff, State.pushByte_bitcnt]; omega) rfl rfl

theorem refill_ahead (fuel n : Nat) (s : State) : (refill fuel n s).Ahead s := by
  induction fuel generalizing s with
  | zero => exact .refl s
  | succ fuel ih =>
    unfold refill
    split
    · exact .refl s
    · split
      · exact .refl s
      · exact (inRead_ahead _ s).bind fun b u => (ih _).after (u.pushByte_ahead b)

theorem peek_ahead (n : Nat) (s : State) : (peek n s).Ahead s := by
  unfold peek
  split
  · exact (refill_ahead 4 n s).bind fun _ u => .refl u
  · trivial

theorem discard_ahead (n : Nat) (s : State) : (discard n s).Ahead s := by
  unfold discard
  split
  · exact .of_pos_le rfl id (by simp only [State.pos, State.dropBits_inOff, State.dropBits_bitcnt]; omega) rfl rfl
  · trivial

theorem take_ahead (n : Nat) (s : State) : (take n s).Ahead s :=
  (peek_ahead n s).bind fun _ u => (discard_ahead n u).bind fun _ w => .refl w

theorem align_ahead (s : State) : (align s).Ahead s := discard_ahead _ s

theorem decodeSym_ahead (t : Table) (s : State) : (decodeSym t s).Ahead s := by
  refine (peek_ahead t.m s).bind fun i u => ?_
  split
  · exact .refl u
  · exact (discard_ahead _ u).bind fun _ w => .refl w

/-! ### Writing `OUT` -/

theorem emit_ahead (b : Byte) (s : State) : (emit b s).Ahead s := by
  rcases Nat.lt_or_ge s.outPos s.outCap with h | h
  · rw [emit_room b h]
    exact .of_write b rfl rfl (Nat.le_refl _) h rfl rfl
  · rw [emit_full b h]
    exact .refl s

theorem rawLoop_ahead (n : Nat) (s : State) : (rawLoop n s).Ahead s := by
  induction n generalizing s with
  | zero => exact .refl s
  | succ n ih =>
    unfold rawLoop
    split
    · exact .refl s
    · split
      · exact .refl s
      · next hi ho =>
        rw [inRead, if_pos (by omega), Res.bind_ok, outWrite, if_pos (by omega), Res.bind_ok]
        refine (ih _).after ?_
        exact .of_write _ rfl rfl (by simp only [State.pos]; omega) (by omega) rfl rfl

theorem State.giveBack_ahead (s : State) : s.Ahead s.giveBack :=
  .of_pos_le rfl id (by simp only [State.pos, State.giveBack_inOff, State.giveBack_bitcnt]; omega) rfl rfl

theorem readRaw_ahead (n : Nat) (s : State) : (readRaw n s).Ahead s := by
  unfold readRaw
  split
  · exact (rawLoop_ahead n _).after s.giveBack_ahead
  · trivial

theorem copyLoop_ahead (n dist : Nat) (s : State) : (copyLoop n dist s).Ahead s := by
  induction n generalizing s with
  | zero => exact .refl s
  | succ n ih =>
    unfold copyLoop
    split
    · exact .refl s
    · next ho =>
      rw [outRead, if_pos (by omega), Res.bind_ok, outWrite, if_pos (by omega), Res.bind_ok]
      refine (ih _).after ?_
      exact .of_write _ rfl rfl (Nat.le_refl _) (by omega) rfl rfl

theorem copy_ahead (len dist : Nat) (s : State) : (copy len dist s).Ahead s := by
  unfold copy
  split
  · exact .refl s
  · exact copyLoop_ahead len dist s

/-! ### Tables and the end of a block -/

theorem buildTable_ahead (lens : List Nat) (s : State) : (buildTable lens s).Ahead s := by
  unfold buildTable
  split
  · exact .refl s
  · exact .refl s

theorem endOfBlock_ahead (s : State) : (endOfBlock s).Ahead s := by
  unfold endOfBlock
  split
  · exact s.finished_ahead
  · exact State.Ahead.of_same rfl nofun rfl rfl rfl

theorem afterCllens_ahead (s : State) : (afterCllens s).Ahead s :=
  (buildTable_ahead _ s).bind fun _ _ => State.Ahead.of_same rfl id rfl rfl rfl

theorem buildDynamic_ahead (s : State) : (buildDynamic s).Ahead s :=
  (buildTable_ahead _ s).bind fun _ u => (buildTable_ahead _ u).bind fun _ _ => State.Ahead.of_same rfl nofun rfl rfl rfl

theorem afterLengths_ahead (s : State) : (afterLengths s).Ahead s := by
  unfold afterLengths
  split
  · exact .refl s
  · exact buildDynamic_ahead s

theorem repeatLength_ahead (v : BitVec 4) (rep : Nat) (s : State) : (repeatLength v rep s).Ahead s := by
  rcases Nat.lt_or_ge (s.hlit + s.hdist) (s.lidx + rep) with h | h
  · rw [repeatLength_overflows v h]
    exact State.Ahead.of_same rfl id rfl rfl rfl
  · rw [repeatLength_fits v h]
    exact (afterLengths_ahead _).after (.of_same rfl id rfl rfl rfl)

theorem buildTable_fixedLLLens (s : State) : buildTable fixedLLLens s = .ok fixedLLTable s :=
  buildTable_accepts (Nat.le_of_eq kraft_fixedLLLens) s

theorem buildTable_fixedDLens (s : State) : buildTable fixedDLens s = .ok fixedDTable s :=
  buildTable_accepts (Nat.le_of_eq kraft_fixedDLens) s

/-- The first static block of a run builds the fixed tables (R205). -/
theorem buildFixed_first {s : State} (h : s.staticValid = false) : buildFixed s =
    .ok () { s with tLlFixed := fixedLLTable, tDFixed := fixedDTable, staticValid := true } := by
  rw [buildFixed, if_neg (by simp [h]), buildTable_fixedLLLens, Res.bind_ok, buildTable_fixedDLens, Res.bind_ok]

/-- Later static blocks find them built. -/
theorem buildFixed_again {s : State} (h : s.staticValid = true) : buildFixed s = .ok () s := if_pos h

theorem buildFixed_ahead (s : State) : (buildFixed s).Ahead s := by
  cases h : s.staticValid with
  | true => rw [buildFixed_again h]; exact .refl s
  | false => rw [buildFixed_first h]; exact State.Ahead.of_same rfl id rfl rfl rfl

theorem selectFixed_ahead (s : State) : (selectFixed s).Ahead s :=
  (buildFixed_ahead s).bind fun _ _ => State.Ahead.of_same rfl nofun rfl rfl rfl

/-! ### Fetching -/

theorem orSymbolDomain_ahead (i : Option Instr) (s : State) : (orSymbolDomain i s).Ahead s :=
  match i with
  | some _ => .refl s
  | none => trivial

theorem fetchCl_ahead (s : State) : (fetchCl s).Ahead s := by
  refine (decodeSym_ahead _ s).bind fun sym u => ?_
  have hsym : u.Ahead { u with sym := sym } := .of_same rfl id rfl rfl rfl
  dsimp only
  split
  · exact hsym
  · exact ((take_ahead _ _).bind fun x w => orSymbolDomain_ahead _ w).after hsym

theorem fetchLl_ahead (s : State) : (fetchLl s).Ahead s :=
  (decodeSym_ahead _ s).bind fun sym u =>
    ((take_ahead _ { u with sym := sym }).bind fun _ w => orSymbolDomain_ahead _ w).after (.of_same rfl id rfl rfl rfl)

theorem fetchDist_ahead (s : State) : (fetchDist s).Ahead s :=
  (decodeSym_ahead _ s).bind fun d u =>
    ((take_ahead _ { u with dsym := d }).bind fun _ w => orSymbolDomain_ahead _ w).after (.of_same rfl id rfl rfl rfl)

theorem fetchZhdr_ahead (s : State) : (fetchZhdr s).Ahead s :=
  (take_ahead 8 s).bind fun _ u => (take_ahead 8 u).bind fun _ w => .refl w

theorem fetchBhdr_ahead (s : State) : (fetchBhdr s).Ahead s :=
  (take_ahead 1 s).bind fun _ u => (take_ahead 2 u).bind fun _ w => .refl w

theorem fetchStored_ahead (s : State) : (fetchStored s).Ahead s :=
  (align_ahead s).bind fun _ t => (take_ahead 16 t).bind fun _ u => (take_ahead 16 u).bind fun _ w => .refl w

theorem fetchDynhdr_ahead (s : State) : (fetchDynhdr s).Ahead s :=
  (take_ahead 5 s).bind fun _ t => (take_ahead 5 t).bind fun _ u => (take_ahead 4 u).bind fun _ w => .refl w

theorem fetchCllen3_ahead (s : State) : (fetchCllen3 s).Ahead s := (take_ahead 3 s).bind fun _ u => .refl u

theorem fetch_ahead {s : State} {r : Res Instr} (h : fetch s = some r) : r.Ahead s := by
  unfold fetch at h
  split at h
  · cases h; exact fetchZhdr_ahead s
  · cases h; exact fetchBhdr_ahead s
  · cases h; exact fetchStored_ahead s
  · split at h
    · cases h; exact fetchDynhdr_ahead s
    · cases h; exact fetchCllen3_ahead s
    · cases h; exact fetchCl_ahead s
  · cases h; exact fetchLl_ahead s
  all_goals cases h

/-! ### Executing -/

theorem matchAt_advances (dist : Nat) (s : State) : Advances s (matchAt dist s) :=
  (copy_ahead _ _ { s with mdist := dist }).finish.after (.of_same rfl id rfl rfl rfl)

theorem execDistance_advances (j : Instr) (s : State) : Advances s (execDistance j s) := by
  cases h : distanceRow j with
  | some dist =>
    rw [(exec_distanceRow h s).2.1]
    exact matchAt_advances _ s
  | none =>
    cases j <;> simp only [distanceRow, reduceCtorEq] at h
    case dist30 => exact .raise _ s
    case dist31 => exact .raise _ s
    all_goals trivial

theorem matchOf_advances (len : Nat) (s : State) : Advances s (matchOf len s) := by
  have hf : (fetchDist { s with mlen := len }).Ahead s := (fetchDist_ahead _).after (.of_same rfl id rfl rfl rfl)
  unfold matchOf
  split
  · next j u he => rw [he] at hf; exact (execDistance_advances j u).after hf
  · next k u he => rw [he] at hf; exact .inr ⟨k, u, hf, rfl⟩
  · trivial
  · trivial

theorem storedBody_ahead (len nlen : BitVec 16) (s : State) : (storedBody len nlen s).Ahead s := by
  have hlen : s.Ahead { s with len := len, nlen := nlen } := .of_same rfl id rfl rfl rfl
  unfold storedBody
  dsimp only
  split
  · exact ((readRaw_ahead _ _).bind fun _ u => endOfBlock_ahead u).after hlen
  · exact hlen

/-- Executing any element goes ahead in the run or enters a fault. -/
theorem exec_advances (i : Instr) (s : State) : Advances s (exec i s) := by
  cases hl : lengthRow i with
  | some len => rw [exec_lengthRow hl]; exact matchOf_advances _ s
  | none =>
    cases hd : distanceRow i with
    | some dist => rw [(exec_distanceRow hd s).1]; exact matchAt_advances _ s
    | none =>
      cases i <;> simp only [lengthRow, distanceRow, reduceCtorEq] at hl hd
      case zhdr cmf flg =>
        simp only [exec, execZhdr]
        split
        · exact .inl (.of_same rfl nofun rfl rfl rfl)
        · exact .inr ⟨_, _, .of_same rfl id rfl rfl rfl, rfl⟩
      case bhdrStored f => exact .inl (.of_same rfl nofun rfl rfl rfl)
      case bhdrFixed f => exact (selectFixed_ahead _).finish.after (.of_same rfl nofun rfl rfl rfl)
      case bhdrDyn f => exact .inl (.of_same rfl nofun rfl rfl rfl)
      case bhdrRsvd f => exact .raise _ s
      case stored len nlen => exact (storedBody_ahead len nlen s).finish
      case dynhdr hlit hdist hclen =>
        simp only [exec, execDynhdr]
        split
        · exact .inr ⟨_, _, .of_same rfl id rfl rfl rfl, rfl⟩
        · exact .inl (.of_same rfl id rfl rfl rfl)
      case cllen3 v =>
        simp only [exec, execCllen3]
        split
        · exact .inl (.of_same rfl id rfl rfl rfl)
        · exact (afterCllens_ahead _).finish.after (.of_same rfl id rfl rfl rfl)
      case clLen v => exact (afterLengths_ahead _).finish.after (.of_same rfl id rfl rfl rfl)
      case clRep r =>
        simp only [exec, execClRep]
        split
        · exact .raise _ s
        · exact (repeatLength_ahead _ r s).finish
      case clZrep3 r => exact (repeatLength_ahead 0 r s).finish
      case clZrep11 r => exact (repeatLength_ahead 0 r s).finish
      case lit b => exact (emit_ahead b s).finish
      case eob => exact (endOfBlock_ahead s).finish
      case ll286 => exact .raise _ s
      case ll287 => exact .raise _ s
      case dist30 => exact .raise _ s
      case dist31 => exact .raise _ s

/-- One element goes ahead in the run or enters a fault, from whatever state. -/
theorem element_advances (s : State) : Advances s (element s) := by
  unfold element
  split
  · next i u he => exact (exec_advances i u).after (fetch_ahead he)
  · next k u he => exact .inr ⟨k, u, fetch_ahead he, rfl⟩
  · trivial
  · trivial
  · split
    · exact (selectFixed_ahead s).finish
    · exact .inl (.refl s)

/-- A step that is neither a reset nor a launch runs an element (R410, R412). -/
theorem step_eq_element {s : State} (hrst : s.pins.rst = false) (h : s.pins.start = false ∨ s.busy = true) :
    step s = element s := by
  rcases h with h | h <;> simp [step, hrst, h]

theorem State.raise_inputs (k : FaultKind) (s : State) : (s.raise k).inputs = s.inputs := rfl

/-- Neither the elements nor their faults touch what a run is launched with. -/
theorem Advances.inputs {s t : State} (h : Advances s (.next t)) : t.inputs = s.inputs := by
  rcases h with h | ⟨k, u, h, rfl⟩
  · exact h.inputs
  · rw [State.raise_inputs, h.inputs]

/-- Short of a fault, a step of a run goes ahead. -/
theorem Advances.ahead {s t : State} (h : Advances s (.next t)) (hf : t.fsm ≠ .failed) : s.Ahead t := by
  rcases h with h | ⟨k, u, -, rfl⟩
  · exact h
  · exact absurd rfl hf

/-- Settles O51: nothing an element does touches the inputs of its run. -/
theorem launchArgumentsAreConstant : Obligations.LaunchArgumentsAreConstant := by
  intro s t hrst hrun hstep
  have hadv := element_advances s
  rw [← step_eq_element hrst hrun, hstep] at hadv
  have hin := hadv.inputs
  simp only [State.inputs, Prod.mk.injEq] at hin
  exact hin.2
end Sys2Proof.Machine
end

section
/-! Reset, launch, fault entry and the end of a run: each leads to a good state, since the values they leave free keep
their widths (R43, R44, R375, R376, R410, R412). -/

namespace Sys2Proof.Machine

/-! ### Free values keep their widths -/

theorem State.freeTable_fits (s : State) (base : Nat) : Table.Fits (s.freeTable base) where
  m_le := Nat.le_of_lt_succ (s.freeBelow_lt (by decide))
  size := by simp [State.freeTable]
  entries := fun e he => by
    obtain ⟨i, -, rfl⟩ := List.mem_map.mp he
    exact ⟨s.freeBelow_lt (by decide), Nat.le_of_lt_succ (s.freeBelow_lt (by decide))⟩

/-- Freeing the scratch registers leaves only the widths of the others to be known. -/
theorem State.freeScratch_fits {s : State} (hb : s.bitcnt < 64) (hi : s.inOff < 2 ^ Config.aw)
    (hp : s.outPos < 2 ^ Config.aw) (hl : s.inLen < 2 ^ Config.aw) (hc : s.outCap < 2 ^ Config.aw)
    (hw : s.bytesWritten < 2 ^ Config.aw) : s.freeScratch.Fits where
  bitcnt := hb
  inOff := hi
  outPos := hp
  inLen := hl
  outCap := hc
  bytesWritten := hw
  hlit := s.freeBelow_lt (by decide)
  hdist := s.freeBelow_lt (by decide)
  hclen := s.freeBelow_lt (by decide)
  lidx := s.freeBelow_lt (by decide)
  rep := s.freeBelow_lt (by decide)
  sym := s.freeBelow_lt (by decide)
  dsym := s.freeBelow_lt (by decide)
  mlen := s.freeBelow_lt (by decide)
  mdist := s.freeBelow_lt (by decide)
  clIdx := s.freeBelow_lt (by decide)
  tCl := s.freeTable_fits _
  tLl := s.freeTable_fits _
  tD := s.freeTable_fits _
  tLlFixed := s.freeTable_fits _
  tDFixed := s.freeTable_fits _

/-- A cursor without valid bits is in order as soon as it is within `IN` (R26). -/
theorem State.CursorInv.of_empty {s : State} (hb : s.bitcnt = 0) (ha : s.acc = 0) (hw : s.inOff ≤ s.inLen) :
    s.CursorInv where
  count := by omega
  acc_lt := by rw [ha, hb]; decide
  behind := by omega
  within := hw
  acc_bits := fun i hi => by omega

/-! ### Reset -/

/-- Settles O42: after reset nothing is running, and every register holds a value of its width. -/
theorem resetStateIsGood : Obligations.ResetStateIsGood where
  inp_wf := rfl
  out_wf := rfl
  fits := by
    constructor
    case tCl | tLl | tD | tLlFixed | tDFixed => exact empty_fits
    all_goals decide
  code := rfl
  cursor := fun _ => .of_empty rfl rfl (Nat.le_refl 0)
  room := fun _ => Nat.le_refl 0
  result := nofun
  fixed := nofun
  header := nofun
  tables := nofun

/-- Settles O39: `State.reset` names each of these values. -/
theorem resetStateHoldsTheResetValues : Obligations.ResetStateHoldsTheResetValues := by
  unfold Obligations.ResetStateHoldsTheResetValues
  decide

theorem step_eq_rst {s : State} (hrst : s.pins.rst = true) : step s = .next s.rst := if_pos hrst

/-- Settles O38: the step is `State.rst`, which frees `OUT` below `OUT_CAP` if it abandons a run and no other byte. -/
theorem resetWinsAlways : Obligations.ResetWinsAlways := by
  intro s hrst hout
  refine ⟨s.rst, step_eq_rst hrst, rfl, rfl, rfl, rfl, rfl, rfl, rfl, rfl, rfl, rfl, rfl, rfl, rfl, rfl, rfl,
    fun hidle => ?_, fun x hx => ?_⟩
  · rw [State.rst_out, hidle, if_neg Bool.false_ne_true]
  · rw [State.rst_out]
    split
    · rw [State.freeOut_out, Memory.read_overwriteBelow hout, if_neg (by omega)]
    · rfl

/-- Reset leads to a good state. -/
theorem State.Inv.rst {s : State} (h : s.Inv) : s.rst.Inv where
  inp_wf := h.inp_wf
  out_wf := by
    rw [State.rst_out]
    split
    · exact Memory.wf_overwriteBelow h.out_wf _ _
    · exact h.out_wf
  fits := { State.freeScratch_fits (s := s) h.fits.bitcnt h.fits.inOff h.fits.outPos h.fits.inLen h.fits.outCap
              h.fits.bytesWritten with
    bitcnt := Nat.succ_pos 63
    inOff := Nat.two_pow_pos _
    outPos := Nat.two_pow_pos _
    inLen := Nat.two_pow_pos _
    outCap := Nat.two_pow_pos _
    bytesWritten := Nat.two_pow_pos _ }
  code := rfl
  cursor := fun _ => .of_empty rfl rfl (Nat.le_refl 0)
  room := fun _ => Nat.le_refl 0
  result := nofun
  fixed := nofun
  header := nofun
  tables := nofun

/-! ### Launch -/

theorem State.launched_fsm_cases (s : State) :
    s.launched.fsm = .zlibHeader ∨ s.launched.fsm = .awaitingBlockHeader := by
  rw [State.launched_fsm]
  split
  · exact .inl rfl
  · exact .inr rfl

theorem State.launch_eq_next {s t : State} (h : s.launch = .next t) : s.LaunchPremise ∧ t = s.launched := by
  by_cases hp : s.LaunchPremise
  · have he : s.launch = .next s.launched := if_pos hp
    rw [he] at h
    cases h
    exact ⟨hp, rfl⟩
  · rw [State.launch_of_not_launchPremise hp] at h
    cases h

/-- A launch whose arguments fit leads to a good state, whatever the registers held before. -/
theorem State.Inv.launched {s : State} (h : s.Inv) (hp : s.LaunchPremise) : s.launched.Inv where
  inp_wf := h.inp_wf
  out_wf := h.out_wf
  fits := { State.freeScratch_fits (s := s) h.fits.bitcnt h.fits.inOff h.fits.outPos h.fits.inLen h.fits.outCap
              h.fits.bytesWritten with
    bitcnt := Nat.succ_pos 63
    inOff := Nat.two_pow_pos _
    outPos := Nat.two_pow_pos _
    inLen := hp.1
    outCap := hp.2
    bytesWritten := Nat.two_pow_pos _ }
  code := by rcases s.launched_fsm_cases with hf | hf <;> rw [hf] <;> rfl
  cursor := fun _ => .of_empty rfl rfl (Nat.zero_le _)
  room := fun _ => Nat.zero_le _
  result := fun hf => by rcases s.launched_fsm_cases with hf' | hf' <;> rw [hf'] at hf <;> cases hf
  fixed := nofun
  header := fun hf => by rcases s.launched_fsm_cases with hf' | hf' <;> rw [hf'] at hf <;> cases hf
  tables := fun hf => by rcases s.launched_fsm_cases with hf' | hf' <;> rw [hf'] at hf <;> cases hf

/-! ### Fault entry -/

theorem FaultKind.code_range (k : FaultKind) : 1 ≤ k.code.toNat ∧ k.code.toNat ≤ 8 := by
  cases k <;> decide

/-- A fault leads to a good state: of the state it is raised in, it keeps only the spaces and the launch arguments. -/
theorem State.raise_inv {s : State} (k : FaultKind) (hi : s.inp.wf = true) (ho : s.out.wf = true)
    (hl : s.inLen < 2 ^ Config.aw) (hc : s.outCap < 2 ^ Config.aw) : (s.raise k).Inv where
  inp_wf := hi
  out_wf := Memory.wf_overwriteBelow ho _ _
  fits := { State.freeScratch_fits (s := { s.freeOut with bitcnt := 0, inOff := 0, outPos := 0, bytesWritten := 0 })
              (Nat.succ_pos 63) (Nat.two_pow_pos _) (Nat.two_pow_pos _) hl hc (Nat.two_pow_pos _) with
    bitcnt := s.freeBelow_lt (by decide)
    inOff := s.freeBelow_lt (by decide)
    outPos := s.freeBelow_lt (by decide)
    bytesWritten := s.freeBelow_lt (by decide) }
  code := k.code_range
  cursor := fun hf => absurd rfl hf
  room := fun hf => absurd rfl hf
  result := nofun
  fixed := nofun
  header := nofun
  tables := nofun

/-- A fault raised further on in a run that was good leads to a good state. -/
theorem State.Inv.raise_of_ahead {s u : State} (h : s.Inv) (hu : s.Ahead u) (k : FaultKind) : (u.raise k).Inv :=
  State.raise_inv k (by rw [State.inp_of_inputs hu.inputs]; exact h.inp_wf) (hu.out_wf h.out_wf)
    (by rw [State.inLen_of_inputs hu.inputs]; exact h.fits.inLen)
    (by rw [State.outCap_of_inputs hu.inputs]; exact h.fits.outCap)

end Sys2Proof.Machine
end

section
/-! The end of a block, and the stored block that reaches it (R146, R193, R194, R199, R202, R266). -/

namespace Sys2Proof.Machine

/-- Settles O28: the two branches of the end of a block, and `EOB`'s code in the fixed book. -/
theorem endOfBlockReturnsOrFinishes : Obligations.EndOfBlockReturnsOrFinishes := by
  intro s
  refine ⟨fun hmore => ?_, fun hfinal => ⟨s.finished, ?_, rfl, rfl, rfl, rfl, rfl, rfl, rfl, rfl, rfl, rfl, rfl, rfl,
    rfl, rfl, rfl, rfl, rfl, rfl⟩, by decide⟩
  · exact congrArg Res.finish (endOfBlock_more hmore)
  · exact congrArg Res.finish (endOfBlock_final hfinal)

/-- The complement test compares the sum of the two fields with 65535 (R201). -/
theorem lenMatches_iff (len nlen : BitVec 16) : lenMatches len nlen = true ↔ len.toNat + nlen.toNat = 65535 := by
  have hl := len.isLt
  have hn := nlen.isLt
  rw [lenMatches, beq_iff_eq, ← BitVec.toNat_inj, BitVec.toNat_not]
  omega

/-- `READ_RAW(n)` from a byte boundary, with the input and the room it asks for (R146). -/
theorem readRaw_room {s : State} {n : Nat} (hb : s.bitcnt % 8 = 0) (hw : s.out.wf = true)
    (hi : n ≤ s.inLen - (s.inOff - s.bitcnt / 8)) (ho : n ≤ s.outCap - s.outPos) :
    ∃ o, readRaw n s = .ok () { s with
        acc := 0, bitcnt := 0, inOff := s.inOff - s.bitcnt / 8 + n, outPos := s.outPos + n, out := o } ∧
      o.wf = true ∧
      ∀ x, o.read x = if s.outPos ≤ x ∧ x < s.outPos + n
        then s.inp.read (s.inOff - s.bitcnt / 8 + (x - s.outPos)) else s.out.read x := by
  rw [readRaw, if_pos hb]
  exact rawLoop_ok (s := s.giveBack) hw hi ho

/-- `STORED` with a matching complement is the raw copy of its payload and the end of the block (R202). -/
theorem storedBody_matches {len nlen : BitVec 16} (h : lenMatches len nlen = true) (s : State) :
    storedBody len nlen s = (readRaw len.toNat { s with len := len, nlen := nlen }).bind fun _ s => endOfBlock s :=
  if_pos h

/-- Settles O19: the raw copy has its input and its room, and the end of the block takes the state it leaves. -/
theorem storedBlockCopiesItsPayload : Obligations.StoredBlockCopiesItsPayload := by
  intro len nlen s hsum _ hb hw hi ho
  obtain ⟨o, hcopy, hwo, hread⟩ := readRaw_room (s := { s with len := len, nlen := nlen }) (n := len.toNat) hb hw hi
    (by dsimp only; omega)
  refine ⟨{ s with
    len := len, nlen := nlen, acc := 0, bitcnt := 0, inOff := s.inOff - s.bitcnt / 8 + len.toNat,
    outPos := s.outPos + len.toNat, out := o }, rfl, hwo, hread, ?_⟩
  have hbody := storedBody_matches ((lenMatches_iff len nlen).mpr hsum) s
  rw [hcopy, Res.bind_ok] at hbody
  refine (congrArg Res.finish hbody).trans ?_
  rcases Bool.eq_false_or_eq_true s.bfinal with hf | hf
  · rw [endOfBlock_final (by exact hf), if_pos hf]
    rfl
  · rw [endOfBlock_more (by exact hf), hf]
    rfl

end Sys2Proof.Machine
end

section
/-! Runs of good states: what an operation that ends without a fault keeps of the invariant, fetch first, then the
elements, then the step (R24 to R26, R36, R39, R231, R235). -/

namespace Sys2Proof.Machine

/-! ### Operations that end without a fault -/

theorem Res.bind_eq_ok {α β : Type} {x : Res α} {f : α → State → Res β} {b : β} {t : State}
    (h : x.bind f = .ok b t) : ∃ a u, x = .ok a u ∧ f a u = .ok b t := by
  cases x with
  | ok a u => exact ⟨a, u, rfl, h⟩
  | raised k u => cases h
  | fault r => cases h
  | refused r => cases h

/-- An operation that does not take the block to `Failed` has answered its result. -/
theorem Res.finish_eq_next {x : Res Unit} {t : State} (h : x.finish = .next t) (hf : t.fsm ≠ .failed) :
    x = .ok () t := by
  cases x with
  | ok a u => cases h; rfl
  | raised k u => cases h; exact absurd rfl hf
  | fault r => cases h
  | refused r => cases h

/-- A fault is no ordinary end of an element. -/
theorem State.failed_of_raise_eq_next {k : FaultKind} {s t : State}
    (h : (.next (s.raise k) : Host.Outcome State Fault Refusal) = .next t) : t.fsm = .failed := by
  cases h
  rfl

theorem take_ok {s u : State} (hc : s.CursorInv) {n v : Nat} (hn : n ≤ 25) (h : take n s = .ok v u) :
    s.Moved u n ∧ v < 2 ^ n := by
  rcases take_takeField hc hn with ⟨v', u', he, hm, hv, -⟩ | ⟨u', he, -⟩ <;> rw [he] at h <;> cases h
  exact ⟨hm, hv⟩

theorem decodeSym_ok {s u : State} (hc : s.CursorInv) {t : Table} (ht : Table.Decodable t) {sym : Nat}
    (h : decodeSym t s = .ok sym u) :
    ∃ i, (t.entry i).sym = sym ∧ (t.entry i).len ≠ 0 ∧ s.Moved u (t.entry i).len := by
  rcases decodeSym_takeSymbol hc ht with ⟨i, u', he, hm, hl, -⟩ | ⟨u', he, -⟩ | ⟨u', he, -⟩ <;> rw [he] at h <;> cases h
  exact ⟨i, rfl, hl, hm⟩

theorem orSymbolDomain_ok {o : Option Instr} {s u : State} {i : Instr} (h : orSymbolDomain o s = .ok i u) :
    o = some i ∧ u = s := by
  cases o with
  | some j => cases h; exact ⟨rfl, rfl⟩
  | none => cases h

theorem buildTable_ok {lens : List Nat} {s u : State} {t : Table} (h : buildTable lens s = .ok t u) :
    build lens = some t ∧ u = s := by
  unfold buildTable at h
  split at h
  · cases h
  · next hb => cases h; exact ⟨hb, rfl⟩

/-! ### Built tables -/

/-- `t` is what `BUILD` makes of the code lengths of at most `n` symbols. -/
def Table.BuiltFor (t : Table) (n : Nat) : Prop :=
  ∃ lens, build lens = some t ∧ (∀ l ∈ lens, l ≤ 16) ∧ lens.length ≤ n

theorem Table.BuiltFor.decodable {t : Table} {n : Nat} (h : Table.BuiltFor t n) : Table.Decodable t := by
  obtain ⟨lens, hb, hl, -⟩ := h
  exact build_decodable hb hl

theorem Table.BuiltFor.fits {t : Table} {n : Nat} (h : Table.BuiltFor t n) (hn : n ≤ 288) : Table.Fits t := by
  obtain ⟨lens, hb, hl, hlen⟩ := h
  exact build_fits hb hl (Nat.le_trans hlen hn)

/-- A filled entry names a symbol of its alphabet. -/
theorem Table.BuiltFor.sym_lt {t : Table} {n : Nat} (h : Table.BuiltFor t n) {i : Nat} (hi : (t.entry i).len ≠ 0) :
    (t.entry i).sym < n := by
  obtain ⟨lens, hb, -, hlen⟩ := h
  rcases build_entry_cases hb i with hu | ⟨hc, -⟩
  · rw [hu] at hi
    exact absurd rfl hi
  · exact Nat.lt_of_lt_of_le hc.1 hlen

theorem builtFor_fixedLLLens {t : Table} (h : build fixedLLLens = some t) : Table.BuiltFor t 288 :=
  ⟨fixedLLLens, h, fixedLLLens_le, by decide +kernel⟩

theorem builtFor_fixedDLens {t : Table} (h : build fixedDLens = some t) : Table.BuiltFor t 32 :=
  ⟨fixedDLens, h, fixedDLens_le, by decide⟩

theorem le_of_mem_map_toNat {w : Nat} (hw : w ≤ 4) {vs : List (BitVec w)} {l : Nat} (h : l ∈ vs.map BitVec.toNat) :
    l ≤ 16 := by
  obtain ⟨v, -, rfl⟩ := List.mem_map.mp h
  exact Nat.le_of_lt (Nat.lt_of_lt_of_le v.isLt (Nat.pow_le_pow_right (by decide) hw))

theorem State.builtFor_cllenList {s : State} {t : Table} (h : build s.cllenList = some t) : Table.BuiltFor t 19 :=
  ⟨s.cllenList, h, fun _ hl => le_of_mem_map_toNat (by decide) hl, by simp [State.cllenList]⟩

theorem State.builtFor_llLens {s : State} {t : Table} (h : build s.llLens = some t) : Table.BuiltFor t s.hlit :=
  ⟨s.llLens, h, fun _ hl => le_of_mem_map_toNat (by decide) (List.mem_of_mem_take hl),
    by rw [State.llLens, List.length_take]; exact Nat.min_le_left _ _⟩

theorem State.builtFor_dLens {s : State} {t : Table} (h : build s.dLens = some t) : Table.BuiltFor t s.hdist :=
  ⟨s.dLens, h, fun _ hl => le_of_mem_map_toNat (by decide) (List.mem_of_mem_drop (List.mem_of_mem_take hl)),
    by rw [State.dLens, List.length_take]; exact Nat.min_le_left _ _⟩

/-! ### What holds at every state of a run -/

/-- The part of the invariant that holds at every dispatcher state of a run, whatever comes next. -/
structure State.Running (s : State) : Prop where
  inp_wf  : s.inp.wf = true
  out_wf  : s.out.wf = true
  fits    : s.Fits
  code    : s.errCode = 0
  cursor  : s.CursorInv
  room    : s.outPos ≤ s.outCap
  fixed   : s.staticValid = true → build fixedLLLens = some s.tLlFixed ∧ build fixedDLens = some s.tDFixed

theorem State.ne_failed_of_busy {s : State} (h : s.busy = true) : s.fsm ≠ .failed := by
  intro hf
  rw [State.busy, hf] at h
  cases h

theorem State.ne_done_of_busy {s : State} (h : s.busy = true) : s.fsm ≠ .done := by
  intro hf
  rw [State.busy, hf] at h
  cases h

theorem State.Inv.running {s : State} (h : s.Inv) (hb : s.busy = true) : s.Running where
  inp_wf := h.inp_wf
  out_wf := h.out_wf
  fits := h.fits
  code := by have := h.code; rwa [if_neg (State.ne_failed_of_busy hb)] at this
  cursor := h.cursor (State.ne_failed_of_busy hb)
  room := h.room (State.ne_failed_of_busy hb)
  fixed := h.fixed hb

/-- What a busy state needs besides: the header of a dynamic block, or the tables of the symbol loop, in order. -/
theorem State.Running.inv {s : State} (h : s.Running) (hb : s.busy = true)
    (hh : s.fsm = .dynamicBlockHeader → s.HeaderInv) (ht : s.fsm = .symbolLoop → s.TablesInv) : s.Inv where
  inp_wf := h.inp_wf
  out_wf := h.out_wf
  fits := h.fits
  code := by rw [if_neg (State.ne_failed_of_busy hb)]; exact h.code
  cursor := fun _ => h.cursor
  room := fun _ => h.room
  result := fun hd => absurd hd (State.ne_done_of_busy hb)
  fixed := fun _ => h.fixed
  header := hh
  tables := ht

/-- The end of a run leads to a good state (R44, R194). -/
theorem State.Running.finished_inv {s : State} (h : s.Running) : s.finished.Inv where
  inp_wf := h.inp_wf
  out_wf := h.out_wf
  fits := { State.freeScratch_fits (s := s) h.fits.bitcnt h.fits.inOff h.fits.outPos h.fits.inLen h.fits.outCap
              h.fits.bytesWritten with bytesWritten := h.fits.outPos }
  code := rfl
  cursor := fun _ => h.cursor.congr rfl rfl rfl rfl rfl
  room := fun _ => h.room
  result := fun _ => rfl
  fixed := nofun
  header := nofun
  tables := nofun

theorem State.Moved.exists_eq {s u : State} {n : Nat} (h : s.Moved u n) :
    ∃ a b i, u = { s with acc := a, bitcnt := b, inOff := i } := ⟨_, _, _, h.same⟩

theorem State.Running.moved {s u : State} {n : Nat} (h : s.Running) (hm : s.Moved u n) : u.Running := by
  have hc := hm.cursor
  obtain ⟨a, b, i, rfl⟩ := hm.exists_eq
  exact { h with
    fits := { h.fits with
      bitcnt := Nat.lt_of_le_of_lt hc.count (by decide)
      inOff := Nat.lt_of_le_of_lt hc.within h.fits.inLen }
    cursor := hc }

theorem State.CountsInv.congr {s t : State} (h : s.CountsInv) (hl : t.hlit = s.hlit) (hd : t.hdist = s.hdist)
    (hc : t.hclen = s.hclen) : t.CountsInv :=
  ⟨by rw [hl]; exact h.hlit, by rw [hd]; exact h.hdist, by rw [hc]; exact h.hclen⟩

theorem State.HeaderInv.congr {s t : State} (h : s.HeaderInv) (hp : t.dynPhase = s.dynPhase) (hl : t.hlit = s.hlit)
    (hd : t.hdist = s.hdist) (hc : t.hclen = s.hclen) (hi : t.clIdx = s.clIdx) (hx : t.lidx = s.lidx)
    (hv : t.cllen = s.cllen) (ht : t.tCl = s.tCl) : t.HeaderInv := by
  unfold State.HeaderInv State.cllenList at h ⊢
  rw [hp, hl, hd, hc, hi, hx, hv, ht]
  cases hs : s.dynPhase <;> rw [hs] at h
  case counts => trivial
  case cllens => exact ⟨h.1.congr hl hd hc, h.2⟩
  case symbols => exact ⟨h.1.congr hl hd hc, h.2⟩

theorem State.TablesInv.congr {s t : State} (h : s.TablesInv) (hs : t.sel = s.sel) (hl : t.hlit = s.hlit)
    (hd : t.hdist = s.hdist) (hc : t.hclen = s.hclen) (hv : t.lens = s.lens) (hll : t.tLl = s.tLl) (ht : t.tD = s.tD)
    (hx : t.staticValid = s.staticValid) : t.TablesInv := by
  unfold State.TablesInv State.llLens State.dLens at h ⊢
  rw [hs, hl, hd, hv, hll, ht, hx]
  split at h
  · next hsel => rw [if_pos hsel]; exact ⟨h.1.congr hl hd hc, h.2⟩
  · next hsel => rw [if_neg hsel]; exact h

/-- Moving the cursor keeps the invariant of a run. -/
theorem State.Inv.moved {s u : State} {n : Nat} (h : s.Inv) (hb : s.busy = true) (hm : s.Moved u n) : u.Inv := by
  have hr := (h.running hb).moved hm
  obtain ⟨a, b, i, rfl⟩ := hm.exists_eq
  exact hr.inv hb (fun hf => (h.header hf).congr rfl rfl rfl rfl rfl rfl rfl rfl)
    (fun hf => (h.tables hf).congr rfl rfl rfl rfl rfl rfl rfl rfl)

theorem State.Moved.fsm {s u : State} {n : Nat} (h : s.Moved u n) : u.fsm = s.fsm := by rw [h.same]

theorem State.Moved.dynPhase {s u : State} {n : Nat} (h : s.Moved u n) : u.dynPhase = s.dynPhase := by rw [h.same]

/-- The symbol registers are transient: a run stays good when one of them takes a symbol or a length of its width. -/
theorem State.Inv.with_symbols {s : State} (h : s.Inv) (hb : s.busy = true) {y d m : Nat} (hy : y < 512) (hd : d < 32)
    (hm : m < 512) : ({ s with sym := y, dsym := d, mlen := m }).Inv := by
  have hr := h.running hb
  have hr' : State.Running { s with sym := y, dsym := d, mlen := m } := { hr with
    fits := { hr.fits with sym := hy, dsym := hd, mlen := hm }
    cursor := hr.cursor.congr rfl rfl rfl rfl rfl }
  exact hr'.inv hb (fun hf => (h.header hf).congr rfl rfl rfl rfl rfl rfl rfl rfl)
    (fun hf => (h.tables hf).congr rfl rfl rfl rfl rfl rfl rfl rfl)

theorem State.busy_of_symbolLoop {s : State} (h : s.fsm = .symbolLoop) : s.busy = true := by rw [State.busy, h]

theorem State.busy_of_dynamicBlockHeader {s : State} (h : s.fsm = .dynamicBlockHeader) : s.busy = true := by
  rw [State.busy, h]

/-! ### The tables in force -/

theorem State.Inv.tCl_builtFor {s : State} (h : s.Inv) (hf : s.fsm = .dynamicBlockHeader) (hp : s.dynPhase = .symbols) :
    Table.BuiltFor s.tCl 19 := by
  have hh := h.header hf
  unfold State.HeaderInv at hh
  rw [hp] at hh
  obtain ⟨-, -, hb⟩ := hh
  exact State.builtFor_cllenList hb

theorem Table.BuiltFor.mono {t : Table} {n m : Nat} (h : Table.BuiltFor t n) (hn : n ≤ m) : Table.BuiltFor t m := by
  obtain ⟨lens, hb, hl, hlen⟩ := h
  exact ⟨lens, hb, hl, Nat.le_trans hlen hn⟩

/-- In the symbol loop both active tables are built, for alphabets of their sizes (R263). -/
theorem State.Inv.active_builtFor {s : State} (h : s.Inv) (hf : s.fsm = .symbolLoop) :
    Table.BuiltFor s.tll 288 ∧ Table.BuiltFor s.td 32 := by
  have ht := h.tables hf
  unfold State.TablesInv at ht
  unfold State.tll State.td
  split at ht
  · next hsel =>
    obtain ⟨hc, hll, hd⟩ := ht
    rw [if_pos hsel, if_pos hsel]
    exact ⟨(State.builtFor_llLens hll).mono (Nat.le_trans hc.hlit.2 (by decide)),
      (State.builtFor_dLens hd).mono (Nat.le_trans hc.hdist.2 (by decide))⟩
  · next hsel =>
    obtain ⟨hll, hd⟩ := h.fixed (State.busy_of_symbolLoop hf) ht
    rw [if_neg hsel, if_neg hsel]
    exact ⟨builtFor_fixedLLLens hll, builtFor_fixedDLens hd⟩

/-! ### Fetching in a good state -/

/-- The element the dispatcher state calls for, made of fields of the element's widths (R91 to R100, R104). -/
inductive State.Awaits (s : State) : Instr → Prop where
  | zhdr (hf : s.fsm = .zlibHeader) (cmf flg : Nat) : s.Awaits (zhdrInstr cmf flg)
  | bhdr (hf : s.fsm = .awaitingBlockHeader) (bfinal btype : Nat) : s.Awaits (bhdrInstr bfinal btype)
  | stored (hf : s.fsm = .storedBlock) (len nlen : Nat) : s.Awaits (storedInstr len nlen)
  | dynhdr (hf : s.fsm = .dynamicBlockHeader) (hp : s.dynPhase = .counts) {hlit hdist hclen : Nat} (hl : hlit < 2 ^ 5)
      (hd : hdist < 2 ^ 5) (hc : hclen < 2 ^ 4) : s.Awaits (dynhdrInstr hlit hdist hclen)
  | cllen3 (hf : s.fsm = .dynamicBlockHeader) (hp : s.dynPhase = .cllens) (v : Nat) : s.Awaits (.cllen3 v)
  | codeLength (hf : s.fsm = .dynamicBlockHeader) (hp : s.dynPhase = .symbols) {sym x : Nat} {i : Instr}
      (hi : clInstr sym x = some i) (hx : x < 2 ^ clExtra sym) : s.Awaits i
  | symbol (hf : s.fsm = .symbolLoop) {sym x : Nat} {i : Instr} (hi : llInstr sym x = some i)
      (hx : x < 2 ^ llExtra sym) : s.Awaits i

/-- A fetched symbol: its code and its extra bits are consumed one after the other, and `upd` records the symbol in
between, which leaves the cursor alone. -/
theorem symbol_ok {s w : State} (hc : s.CursorInv) {t : Table} (ht : Table.Decodable t) {extra : Nat → Nat}
    (hx : ∀ n, extra n ≤ 25) {mk : Nat → Nat → Option Instr} {upd : Nat → State → State}
    (hupd : ∀ n u, u.CursorInv → (upd n u).CursorInv ∧ (upd n u).pos = u.pos) {j : Instr}
    (h : (decodeSym t s).bind (fun sym u => (take (extra sym) (upd sym u)).bind fun x w =>
      orSymbolDomain (mk sym x) w) = .ok j w) :
    ∃ i x u n m, (t.entry i).len ≠ 0 ∧ mk (t.entry i).sym x = some j ∧ x < 2 ^ extra (t.entry i).sym ∧
      s.Moved u n ∧ (upd (t.entry i).sym u).Moved w m ∧ s.pos < w.pos := by
  obtain ⟨sym, u, hdec, h⟩ := Res.bind_eq_ok h
  obtain ⟨x, w', htake, h⟩ := Res.bind_eq_ok h
  obtain ⟨hmk, rfl⟩ := orSymbolDomain_ok h
  obtain ⟨i, rfl, hlen, hmu⟩ := decodeSym_ok hc ht hdec
  obtain ⟨hcu, hpu⟩ := hupd (t.entry i).sym u hmu.cursor
  obtain ⟨hmw, hxlt⟩ := take_ok hcu (hx _) htake
  have h1 := hmu.pos
  have h2 := hmw.pos
  exact ⟨i, x, u, _, _, hlen, hmk, hxlt, hmu, hmw, by omega⟩

/-- A literal/length symbol fetched in a good state (R261). -/
theorem fetchLl_ok {s w : State} {j : Instr} (hs : s.Inv) (hf : s.fsm = .symbolLoop) (h : fetchLl s = .ok j w) :
    w.Inv ∧ w.Awaits j ∧ s.pos < w.pos := by
  have hb := State.busy_of_symbolLoop hf
  have ht := (hs.active_builtFor hf).1
  rw [fetchLl_eq] at h
  obtain ⟨i, x, u, n, m, hlen, hmk, hx, hmu, hmw, hpos⟩ := symbol_ok (upd := fun n u => { u with sym := n })
    (hs.running hb).cursor ht.decodable llExtra_le (fun n u hu => ⟨hu.congr rfl rfl rfl rfl rfl, rfl⟩) h
  have hfu : u.fsm = .symbolLoop := hmu.fsm.trans hf
  have hbu := State.busy_of_symbolLoop hfu
  have hu := hs.moved hb hmu
  have hv := hu.with_symbols hbu (Nat.lt_of_lt_of_le (ht.sym_lt hlen) (by decide)) hu.fits.dsym hu.fits.mlen
  exact ⟨hv.moved hbu hmw, .symbol (hmw.fsm.trans hfu) hmk hx, hpos⟩

/-- A code-length symbol fetched in a good state (R236). -/
theorem fetchCl_ok {s w : State} {j : Instr} (hs : s.Inv) (hf : s.fsm = .dynamicBlockHeader)
    (hp : s.dynPhase = .symbols) (h : fetchCl s = .ok j w) : w.Inv ∧ w.Awaits j ∧ s.pos < w.pos := by
  have hb := State.busy_of_dynamicBlockHeader hf
  have hc := (hs.running hb).cursor
  have ht := hs.tCl_builtFor hf hp
  have hrep : ¬ s.RepeatsNothing := fun hr => by
    obtain ⟨u, n, -, he⟩ := fetchCl_repeatsNothing hc ht.decodable hr
    rw [he] at h
    cases h
  rw [fetchCl_eq hc ht.decodable hrep] at h
  obtain ⟨i, x, u, n, m, hlen, hmk, hx, hmu, hmw, hpos⟩ := symbol_ok (upd := fun n u => { u with sym := n })
    hc ht.decodable clExtra_le (fun n u hu => ⟨hu.congr rfl rfl rfl rfl rfl, rfl⟩) h
  have hfu : u.fsm = .dynamicBlockHeader := hmu.fsm.trans hf
  have hbu := State.busy_of_dynamicBlockHeader hfu
  have hu := hs.moved hb hmu
  have hv := hu.with_symbols hbu (Nat.lt_of_lt_of_le (ht.sym_lt hlen) (by decide)) hu.fits.dsym hu.fits.mlen
  exact ⟨hv.moved hbu hmw, .codeLength (hmw.fsm.trans hfu) (hmw.dynPhase.trans (hmu.dynPhase.trans hp)) hmk hx, hpos⟩

/-- A distance symbol fetched in a good state (R301). -/
theorem fetchDist_ok {s w : State} {j : Instr} (hs : s.Inv) (hf : s.fsm = .symbolLoop) (h : fetchDist s = .ok j w) :
    w.Inv ∧ w.fsm = .symbolLoop ∧ ∃ d x, dInstr d x = some j ∧ x < 2 ^ dExtra d := by
  have hb := State.busy_of_symbolLoop hf
  have ht := (hs.active_builtFor hf).2
  rw [fetchDist_eq] at h
  obtain ⟨i, x, u, n, m, hlen, hmk, hx, hmu, hmw, -⟩ := symbol_ok (upd := fun n u => { u with dsym := n })
    (hs.running hb).cursor ht.decodable dExtra_le (fun n u hu => ⟨hu.congr rfl rfl rfl rfl rfl, rfl⟩) h
  have hfu : u.fsm = .symbolLoop := hmu.fsm.trans hf
  have hbu := State.busy_of_symbolLoop hfu
  have hu := hs.moved hb hmu
  have hv := hu.with_symbols hbu hu.fits.sym (ht.sym_lt hlen) hu.fits.mlen
  exact ⟨hv.moved hbu hmw, hmw.fsm.trans hfu, _, x, hmk, hx⟩

/-- Two last fields, fetched one after the other. -/
theorem two_fields_ok {s w : State} (hc : s.CursorInv) {n m : Nat} (hn : n ≤ 25) (hm : m ≤ 25)
    {mk : Nat → Nat → Instr} {j : Instr}
    (h : (take n s).bind (fun a u => (take m u).bind fun b w => .ok (mk a b) w) = .ok j w) :
    ∃ a b, j = mk a b ∧ a < 2 ^ n ∧ b < 2 ^ m ∧ s.Moved w (n + m) := by
  obtain ⟨a, u, ha, h⟩ := Res.bind_eq_ok h
  obtain ⟨b, w', hb, h⟩ := Res.bind_eq_ok h
  cases h
  obtain ⟨hmu, han⟩ := take_ok hc hn ha
  obtain ⟨hmw, hbm⟩ := take_ok hmu.cursor hm hb
  exact ⟨a, b, rfl, han, hbm, hmu.trans hmw⟩

/-- What a fetch in a good state of a run answers: a good state further on in the stream, and the element the
dispatcher state calls for. -/
theorem fetch_ok {s u : State} {i : Instr} (hs : s.Inv) (h : fetch s = some (.ok i u)) :
    u.Inv ∧ u.Awaits i ∧ s.pos < u.pos := by
  unfold fetch at h
  split at h
  case h_1 hf =>
    have hb : s.busy = true := by rw [State.busy, hf]
    obtain ⟨a, b, rfl, -, -, hm⟩ := two_fields_ok (hs.running hb).cursor (by decide) (by decide) (Option.some.inj h)
    exact ⟨hs.moved hb hm, .zhdr (hm.fsm.trans hf) a b, by rw [hm.pos]; omega⟩
  case h_2 hf =>
    have hb : s.busy = true := by rw [State.busy, hf]
    obtain ⟨a, b, rfl, -, -, hm⟩ := two_fields_ok (hs.running hb).cursor (by decide) (by decide) (Option.some.inj h)
    exact ⟨hs.moved hb hm, .bhdr (hm.fsm.trans hf) a b, by rw [hm.pos]; omega⟩
  case h_3 hf =>
    have hb : s.busy = true := by rw [State.busy, hf]
    obtain ⟨_, w, halign, h⟩ := Res.bind_eq_ok (Option.some.inj h)
    obtain ⟨he, hm⟩ := align_spec (hs.running hb).cursor
    rw [he] at halign
    cases halign
    obtain ⟨a, b, rfl, -, -, hm'⟩ := two_fields_ok hm.cursor (by decide) (by decide) h
    have hm := hm.trans hm'
    exact ⟨hs.moved hb hm, .stored (hm.fsm.trans hf) a b, by rw [hm.pos]; omega⟩
  case h_4 hf =>
    have hb := State.busy_of_dynamicBlockHeader hf
    split at h
    case h_1 hp =>
      obtain ⟨a, w, ha, h⟩ := Res.bind_eq_ok (Option.some.inj h)
      obtain ⟨hm, ha⟩ := take_ok (hs.running hb).cursor (by decide) ha
      obtain ⟨b, c, rfl, hb', hc, hm'⟩ := two_fields_ok hm.cursor (by decide) (by decide) h
      have hm := hm.trans hm'
      exact ⟨hs.moved hb hm, .dynhdr (hm.fsm.trans hf) (hm.dynPhase.trans hp) ha hb' hc, by rw [hm.pos]; omega⟩
    case h_2 hp =>
      obtain ⟨v, w, hv, h⟩ := Res.bind_eq_ok (Option.some.inj h)
      obtain ⟨hm, -⟩ := take_ok (hs.running hb).cursor (by decide) hv
      cases h
      exact ⟨hs.moved hb hm, .cllen3 (hm.fsm.trans hf) (hm.dynPhase.trans hp) v, by rw [hm.pos]; omega⟩
    case h_3 hp => exact fetchCl_ok hs hf hp (Option.some.inj h)
  case h_5 hf => exact fetchLl_ok hs hf (Option.some.inj h)
  all_goals cases h

end Sys2Proof.Machine
end

section
/-! The elements in good states, one lemma per element or family, and the step: what does not fault keeps the
invariant, and so does the fault entry. -/

namespace Sys2Proof.Machine

/-! ### Headers and stored blocks -/

/-- The dispatcher state, the flags and the header bytes are no concern of `State.Running`. -/
theorem State.Running.with_flags {s : State} (hs : s.Running) {fsm : Fsm} {bfinal sel : Bool} {cmf flg : Byte}
    {btype : BitVec 2} {len nlen : BitVec 16} {phase : DynPhase} :
    State.Running { s with
      fsm := fsm, bfinal := bfinal, sel := sel, cmf := cmf, flg := flg, btype := btype, len := len, nlen := nlen,
      dynPhase := phase } :=
  { hs with
    fits := { hs.fits with }
    cursor := hs.cursor.congr rfl rfl rfl rfl rfl }

theorem State.Running.with_fixed {s : State} (hs : s.Running) {ll d : Table} (hll : build fixedLLLens = some ll)
    (hd : build fixedDLens = some d) :
    State.Running { s with tLlFixed := ll, tDFixed := d, staticValid := true } :=
  { hs with
    fits := { hs.fits with
      tLlFixed := (builtFor_fixedLLLens hll).fits (Nat.le_refl _)
      tDFixed := (builtFor_fixedDLens hd).fits (by decide) }
    cursor := hs.cursor.congr rfl rfl rfl rfl rfl
    fixed := fun _ => ⟨hll, hd⟩ }

theorem buildFixed_running {s u : State} (hs : s.Running) (h : buildFixed s = .ok () u) :
    u.Running ∧ u.staticValid = true := by
  cases hv : s.staticValid with
  | true =>
    rw [buildFixed_again hv] at h
    cases h
    exact ⟨hs, hv⟩
  | false =>
    rw [buildFixed_first hv] at h
    cases h
    exact ⟨hs.with_fixed build_fixedLLLens build_fixedDLens, rfl⟩

theorem selectFixed_inv {s t : State} (hs : s.Running) (h : selectFixed s = .ok () t) : t.Inv := by
  obtain ⟨_, u, hbuilt, hsel⟩ := Res.bind_eq_ok h
  obtain ⟨hu, hv⟩ := buildFixed_running hs hbuilt
  cases hsel
  exact hu.with_flags.inv rfl nofun fun _ => hv

theorem endOfBlock_inv {s t : State} (hs : s.Running) (h : endOfBlock s = .ok () t) : t.Inv := by
  cases hf : s.bfinal with
  | true =>
    rw [endOfBlock_final hf] at h
    cases h
    exact hs.finished_inv
  | false =>
    rw [endOfBlock_more hf] at h
    cases h
    exact hs.with_flags.inv rfl nofun nofun

/-- A raw copy that does not fault had the input and the room it asked for (R146, R148). -/
theorem readRaw_room_of_ok {s u : State} {n : Nat} (hs : s.Running) (h : readRaw n s = .ok () u) :
    s.bitcnt % 8 = 0 ∧ n ≤ s.inLen - (s.inOff - s.bitcnt / 8) ∧ n ≤ s.outCap - s.outPos := by
  unfold readRaw at h
  split at h
  · next hb =>
    refine ⟨hb, ?_⟩
    by_contra hno
    obtain ⟨u', o, i, p, he, -⟩ := rawLoop_fault (s := s.giveBack) (n := n) hs.out_wf
      (Nat.le_trans (Nat.sub_le _ _) hs.cursor.within) hs.room
      (by simp only [State.giveBack_inLen, State.giveBack_inOff, State.giveBack_outCap, State.giveBack_outPos]; omega)
    rw [he] at h
    cases h
  · cases h

theorem readRaw_running {s u : State} {n : Nat} (hs : s.Running) (h : readRaw n s = .ok () u) : u.Running := by
  obtain ⟨hb, hi, ho⟩ := readRaw_room_of_ok hs h
  obtain ⟨o, he, hwo, -⟩ := readRaw_room hb hs.out_wf hi ho
  rw [he] at h
  cases h
  have hin := hs.cursor.within
  have hout := hs.room
  have hil := hs.fits.inLen
  have hol := hs.fits.outCap
  have hin' : s.inOff - s.bitcnt / 8 + n ≤ s.inLen := by omega
  have hout' : s.outPos + n ≤ s.outCap := by omega
  exact { hs with
    out_wf := hwo
    fits := { hs.fits with
      bitcnt := Nat.succ_pos 63
      inOff := Nat.lt_of_le_of_lt hin' hil
      outPos := Nat.lt_of_le_of_lt hout' hol }
    cursor := .of_empty rfl rfl hin'
    room := hout' }

theorem storedBody_inv {s t : State} {len nlen : BitVec 16} (hs : s.Running) (h : storedBody len nlen s = .ok () t) :
    t.Inv := by
  have hr : State.Running { s with len := len, nlen := nlen } := hs.with_flags
  by_cases hm : lenMatches len nlen = true
  · rw [storedBody_matches hm] at h
    obtain ⟨_, u, hcopy, hend⟩ := Res.bind_eq_ok h
    exact endOfBlock_inv (readRaw_running hr hcopy) hend
  · rw [storedBody, if_neg hm] at h
    cases h

theorem execZhdr_inv {s t : State} {cmf flg : Byte} (hs : s.Running) (h : execZhdr cmf flg s = .next t)
    (hf : t.fsm ≠ .failed) : t.Inv := by
  unfold execZhdr at h
  dsimp only at h
  split at h
  · cases h
    exact hs.with_flags.inv rfl nofun nofun
  · exact absurd (State.failed_of_raise_eq_next h) hf

/-- The header of a block of any type (R192, R198, R203, R206, R207). -/
theorem exec_bhdr_inv {s t : State} {bfinal btype : Nat} (hs : s.Running)
    (h : exec (bhdrInstr bfinal btype) s = .next t) (hf : t.fsm ≠ .failed) : t.Inv := by
  unfold bhdrInstr at h
  split at h
  · cases h
    exact hs.with_flags.inv rfl nofun nofun
  · have hr : State.Running { s with bfinal := bfinal == 1, btype := 1, fsm := .staticBlock } := hs.with_flags
    exact selectFixed_inv hr (Res.finish_eq_next h hf)
  · cases h
    exact hs.with_flags.inv rfl (fun _ => trivial) nofun
  · exact absurd (State.failed_of_raise_eq_next h) hf

/-! ### The header of a dynamic block -/

theorem exec_dynhdr_inv {s t : State} {hlit hdist hclen : Nat} (hs : s.Running) (hfsm : s.fsm = .dynamicBlockHeader)
    (hd : hdist < 2 ^ 5) (hc : hclen < 2 ^ 4) (h : exec (dynhdrInstr hlit hdist hclen) s = .next t)
    (hf : t.fsm ≠ .failed) : t.Inv := by
  simp only [dynhdrInstr, exec, execDynhdr] at h
  split at h
  · exact absurd (State.failed_of_raise_eq_next h) hf
  · next hrange =>
    cases h
    have hr : State.Running { s with
        hlit := hlit + 257, hdist := hdist + 1, hclen := hclen + 4, cllen := Vector.replicate 19 0,
        dynPhase := .cllens, clIdx := 0 } := { hs with
      fits := { hs.fits with
        hlit := by dsimp only; omega
        hdist := by dsimp only; omega
        hclen := by dsimp only; omega
        clIdx := Nat.succ_pos 31 }
      cursor := hs.cursor.congr rfl rfl rfl rfl rfl }
    refine hr.inv (State.busy_of_dynamicBlockHeader hfsm) (fun _ => ⟨⟨?_, ?_, ?_⟩, ?_⟩)
      (fun hl => by rw [show s.fsm = .symbolLoop from hl] at hfsm; cases hfsm)
    all_goals dsimp only; omega

theorem State.Inv.counts_of_cllens {s : State} (h : s.Inv) (hf : s.fsm = .dynamicBlockHeader)
    (hp : s.dynPhase = .cllens) : s.CountsInv ∧ s.clIdx < s.hclen := by
  have hh := h.header hf
  unfold State.HeaderInv at hh
  rwa [hp] at hh

theorem State.Inv.counts_of_symbols {s : State} (h : s.Inv) (hf : s.fsm = .dynamicBlockHeader)
    (hp : s.dynPhase = .symbols) :
    s.CountsInv ∧ s.lidx < s.hlit + s.hdist ∧ build s.cllenList = some s.tCl := by
  have hh := h.header hf
  unfold State.HeaderInv at hh
  rwa [hp] at hh

/-- After the last entry `T_CL` is built, and the code-length symbols come next (R234). -/
theorem afterCllens_inv {s t : State} (hs : s.Running) (hfsm : s.fsm = .dynamicBlockHeader) (hc : s.CountsInv)
    (h : afterCllens s = .ok () t) : t.Inv := by
  obtain ⟨tCl, u, hbt, hok⟩ := Res.bind_eq_ok h
  obtain ⟨hbuild, rfl⟩ := buildTable_ok hbt
  cases hok
  have hr : State.Running { u with tCl := tCl, lidx := 0, dynPhase := .symbols } := { hs with
    fits := { hs.fits with
      tCl := (State.builtFor_cllenList hbuild).fits (by decide)
      lidx := Nat.succ_pos 511 }
    cursor := hs.cursor.congr rfl rfl rfl rfl rfl }
  have hlit := hc.hlit
  exact hr.inv (State.busy_of_dynamicBlockHeader hfsm)
    (fun _ => ⟨hc.congr rfl rfl rfl, by dsimp only; omega, hbuild⟩)
    (fun hl => by rw [show u.fsm = .symbolLoop from hl] at hfsm; cases hfsm)

theorem execCllen3_inv {s t : State} {v : Nat} (hs : s.Inv) (hfsm : s.fsm = .dynamicBlockHeader)
    (hp : s.dynPhase = .cllens) (h : execCllen3 v s = .next t) (hf : t.fsm ≠ .failed) : t.Inv := by
  have hr := hs.running (State.busy_of_dynamicBlockHeader hfsm)
  obtain ⟨hcounts, hidx⟩ := hs.counts_of_cllens hfsm hp
  have hclen := hcounts.hclen
  have hw : State.Running { s with
      cllen := s.cllen.setIfInBounds (clorder s.clIdx) (BitVec.ofNat 3 v), clIdx := s.clIdx + 1 } := { hr with
    fits := { hr.fits with clIdx := by dsimp only; omega }
    cursor := hr.cursor.congr rfl rfl rfl rfl rfl }
  unfold execCllen3 at h
  dsimp only at h
  split at h
  · next hlt =>
    cases h
    refine hw.inv (State.busy_of_dynamicBlockHeader hfsm) (fun _ => ?_)
      (fun hl => by rw [show s.fsm = .symbolLoop from hl] at hfsm; cases hfsm)
    unfold State.HeaderInv
    simp only [hp]
    exact ⟨hcounts.congr rfl rfl rfl, hlt⟩
  · exact afterCllens_inv hw hfsm (hcounts.congr rfl rfl rfl) (Res.finish_eq_next h hf)

/-- A repeat that does not fault stays within the lengths the counts ask for (R242). -/
theorem repeatLength_room_of_ok {s t : State} {v : BitVec 4} {r : Nat} (h : repeatLength v r s = .ok () t) :
    s.lidx + r ≤ s.hlit + s.hdist := by
  by_contra hno
  rw [repeatLength_overflows v (by omega)] at h
  cases h

/-- A code-length symbol that does not fault has a run, which fits (R238 to R242). -/
theorem lengthRun_of_next {s t : State} {sym x : Nat} {i : Instr} (hi : clInstr sym x = some i)
    (hx : x < 2 ^ clExtra sym) (hrep : s.rep < 256) (hlidx : s.lidx < s.hlit + s.hdist) (h : exec i s = .next t)
    (hf : t.fsm ≠ .failed) :
    ∃ run, s.lengthRun i = some run ∧ s.lidx + run.count ≤ s.hlit + s.hdist ∧ run.rep < 256 := by
  rcases clInstr_cases hi with ⟨-, rfl⟩ | ⟨rfl, rfl⟩ | ⟨rfl, rfl⟩ | ⟨rfl, rfl⟩
  · exact ⟨_, rfl, hlidx, hrep⟩
  · have hx : x < 4 := hx
    simp only [exec, execClRep] at h
    split at h
    · exact absurd (State.failed_of_raise_eq_next h) hf
    · next hz =>
      exact ⟨_, if_neg hz, repeatLength_room_of_ok (Res.finish_eq_next h hf), by dsimp only; omega⟩
  · have hx : x < 8 := hx
    exact ⟨_, rfl, repeatLength_room_of_ok (Res.finish_eq_next h hf), by dsimp only; omega⟩
  · have hx : x < 128 := hx
    exact ⟨_, rfl, repeatLength_room_of_ok (Res.finish_eq_next h hf), by dsimp only; omega⟩

/-- After a run of lengths either the next code-length symbol or the symbol loop comes (R236, R244). -/
theorem afterLengths_inv {s t : State} (hs : s.Running) (hfsm : s.fsm = .dynamicBlockHeader)
    (hp : s.dynPhase = .symbols) (hc : s.CountsInv) (hb : build s.cllenList = some s.tCl)
    (h : afterLengths s = .ok () t) : t.Inv := by
  unfold afterLengths at h
  split at h
  · next hlt =>
    cases h
    refine hs.inv (State.busy_of_dynamicBlockHeader hfsm) (fun _ => ?_) fun hl => by rw [hfsm] at hl; cases hl
    unfold State.HeaderInv
    rw [hp]
    exact ⟨hc, hlt, hb⟩
  · obtain ⟨ll, u, hbll, hrest⟩ := Res.bind_eq_ok h
    obtain ⟨hll, rfl⟩ := buildTable_ok hbll
    obtain ⟨d, w, hbd, hdone⟩ := Res.bind_eq_ok hrest
    obtain ⟨hd, rfl⟩ := buildTable_ok hbd
    cases hdone
    have hr : State.Running { w with tLl := ll, tD := d, sel := true, fsm := .symbolLoop } := { hs with
      fits := { hs.fits with
        tLl := (State.builtFor_llLens hll).fits (Nat.le_trans hc.hlit.2 (by decide))
        tD := (State.builtFor_dLens hd).fits (Nat.le_trans hc.hdist.2 (by decide)) }
      cursor := hs.cursor.congr rfl rfl rfl rfl rfl }
    exact hr.inv rfl nofun fun _ => ⟨hc.congr rfl rfl rfl, hll, hd⟩

theorem exec_codeLength_inv {s t : State} {sym x : Nat} {i : Instr} (hs : s.Inv) (hfsm : s.fsm = .dynamicBlockHeader)
    (hp : s.dynPhase = .symbols) (hi : clInstr sym x = some i) (hx : x < 2 ^ clExtra sym) (h : exec i s = .next t)
    (hf : t.fsm ≠ .failed) : t.Inv := by
  have hr := hs.running (State.busy_of_dynamicBlockHeader hfsm)
  obtain ⟨hcounts, hlidx, hbuild⟩ := hs.counts_of_symbols hfsm hp
  obtain ⟨run, hrun, hle, hrep⟩ := lengthRun_of_next hi hx hr.fits.rep hlidx h hf
  rw [exec_lengthRun hrun hle] at h
  have hw : State.Running { s with
      rep := run.rep, lens := (s.fillLens run.count s.lidx run.value).lens, lidx := s.lidx + run.count } := { hr with
    fits := { hr.fits with
      rep := hrep
      lidx := by have := hcounts.hlit; have := hcounts.hdist; dsimp only; omega }
    cursor := hr.cursor.congr rfl rfl rfl rfl rfl }
  exact afterLengths_inv hw hfsm hp (hcounts.congr rfl rfl rfl) hbuild (Res.finish_eq_next h hf)

/-! ### The symbol loop -/

/-- Writing output on the way through the symbol loop, and the registers of a pair, leave its tables in force. -/
theorem State.Inv.with_output {s : State} (h : s.Inv) (hf : s.fsm = .symbolLoop) {o : Memory} {p m : Nat}
    (ho : o.wf = true) (hp : p ≤ s.outCap) (hm : m < 65536) : ({ s with out := o, outPos := p, mdist := m }).Inv := by
  have hb := State.busy_of_symbolLoop hf
  have hr := h.running hb
  have hr' : State.Running { s with out := o, outPos := p, mdist := m } := { hr with
    out_wf := ho
    fits := { hr.fits with outPos := Nat.lt_of_le_of_lt hp hr.fits.outCap, mdist := hm }
    cursor := hr.cursor.congr rfl rfl rfl rfl rfl
    room := hp }
  exact hr'.inv hb (fun hd => by rw [show s.fsm = .dynamicBlockHeader from hd] at hf; cases hf)
    fun _ => (h.tables hf).congr rfl rfl rfl rfl rfl rfl rfl rfl

theorem emit_inv {s t : State} {b : Byte} (hs : s.Inv) (hfsm : s.fsm = .symbolLoop) (h : emit b s = .ok () t) :
    t.Inv := by
  rcases Nat.lt_or_ge s.outPos s.outCap with hroom | hfull
  · rw [emit_room b hroom] at h
    cases h
    exact hs.with_output hfsm (Memory.wf_write hs.out_wf _ _) hroom hs.fits.mdist
  · rw [emit_full b hfull] at h
    cases h

theorem matchAt_inv {s t : State} {m : Nat} (hs : s.Inv) (hfsm : s.fsm = .symbolLoop) (h1 : 1 ≤ m) (hm : m < 65536)
    (h : matchAt m s = .next t) (hf : t.fsm ≠ .failed) : t.Inv := by
  have hr := hs.running (State.busy_of_symbolLoop hfsm)
  rcases Nat.lt_or_ge s.outPos m with hfar | hback
  · rw [matchAt_tooFar hfar] at h
    exact absurd (State.failed_of_raise_eq_next h) hf
  · rcases Nat.lt_or_ge s.outCap (s.outPos + s.mlen) with hfull | hroom
    · rw [matchAt_full h1 hr.out_wf hback hr.room hfull] at h
      exact absurd (State.failed_of_raise_eq_next h) hf
    · obtain ⟨o, he, hwo, -⟩ := matchAt_ok h1 hr.out_wf hback hroom
      rw [he] at h
      cases h
      exact hs.with_output hfsm hwo hroom hm

/-- The rows of R302 stay within 32768. -/
theorem distanceRow_bound {j : Instr} {dist : Row} (h : distanceRow j = some dist) :
    dist.base + 2 ^ dExtra dist.sym ≤ 32769 := by
  cases j <;> simp only [distanceRow, reduceCtorEq, Option.some.injEq] at h <;> subst h <;> dsimp only <;> decide

/-- The rows of R268 stay within 258. -/
theorem lengthRow_bound {i : Instr} {len : Row} (h : lengthRow i = some len) :
    len.base + 2 ^ llExtra len.sym ≤ 259 := by
  cases i <;> simp only [lengthRow, reduceCtorEq, Option.some.injEq] at h <;> subst h <;> dsimp only <;> decide

theorem execDistance_inv {s t : State} {d x : Nat} {j : Instr} (hs : s.Inv) (hfsm : s.fsm = .symbolLoop)
    (hj : dInstr d x = some j) (hx : x < 2 ^ dExtra d) (h : execDistance j s = .next t) (hf : t.fsm ≠ .failed) :
    t.Inv := by
  rcases dInstr_cases hj with ⟨-, dist, hrow, rfl, rfl⟩ | ⟨-, rfl⟩ | ⟨-, rfl⟩
  · obtain ⟨-, he, h1⟩ := exec_distanceRow hrow s
    rw [he] at h
    have hbound := distanceRow_bound hrow
    exact matchAt_inv hs hfsm h1 (by unfold Row.value; omega) h hf
  · exact absurd (State.failed_of_raise_eq_next h) hf
  · exact absurd (State.failed_of_raise_eq_next h) hf

theorem matchOf_inv {s t : State} {len : Nat} (hs : s.Inv) (hfsm : s.fsm = .symbolLoop) (hlen : len < 512)
    (h : matchOf len s = .next t) (hf : t.fsm ≠ .failed) : t.Inv := by
  unfold matchOf at h
  split at h
  · next j w hfetch =>
    have hv := hs.with_symbols (State.busy_of_symbolLoop hfsm) hs.fits.sym hs.fits.dsym hlen
    obtain ⟨hw, hfw, d, x, hj, hx⟩ := fetchDist_ok hv hfsm hfetch
    exact execDistance_inv hw hfw hj hx h hf
  · exact absurd (State.failed_of_raise_eq_next h) hf
  · cases h
  · cases h

theorem exec_symbol_inv {s t : State} {sym x : Nat} {i : Instr} (hs : s.Inv) (hfsm : s.fsm = .symbolLoop)
    (hi : llInstr sym x = some i) (hx : x < 2 ^ llExtra sym) (h : exec i s = .next t) (hf : t.fsm ≠ .failed) :
    t.Inv := by
  rcases llInstr_cases hi with ⟨-, rfl⟩ | ⟨-, rfl⟩ | ⟨-, -, len, hrow, rfl, rfl⟩ | ⟨-, rfl⟩ | ⟨-, rfl⟩
  · exact emit_inv hs hfsm (Res.finish_eq_next h hf)
  · exact endOfBlock_inv (hs.running (State.busy_of_symbolLoop hfsm)) (Res.finish_eq_next h hf)
  · rw [exec_lengthRow hrow] at h
    have hbound := lengthRow_bound hrow
    exact matchOf_inv hs hfsm (by unfold Row.value; omega) h hf
  · exact absurd (State.failed_of_raise_eq_next h) hf
  · exact absurd (State.failed_of_raise_eq_next h) hf

/-! ### The step -/

/-- The element a good state calls for leads to a good state, unless it faults. -/
theorem exec_keeps_inv {s t : State} {i : Instr} (hs : s.Inv) (hi : s.Awaits i) (h : exec i s = .next t)
    (hf : t.fsm ≠ .failed) : t.Inv := by
  cases hi with
  | zhdr hfsm cmf flg => exact execZhdr_inv (hs.running (by rw [State.busy, hfsm])) h hf
  | bhdr hfsm bfinal btype => exact exec_bhdr_inv (hs.running (by rw [State.busy, hfsm])) h hf
  | stored hfsm len nlen => exact storedBody_inv (hs.running (by rw [State.busy, hfsm])) (Res.finish_eq_next h hf)
  | dynhdr hfsm hp hl hd hc =>
    exact exec_dynhdr_inv (hs.running (State.busy_of_dynamicBlockHeader hfsm)) hfsm hd hc h hf
  | cllen3 hfsm hp v => exact execCllen3_inv hs hfsm hp h hf
  | codeLength hfsm hp hj hx => exact exec_codeLength_inv hs hfsm hp hj hx h hf
  | symbol hfsm hj hx => exact exec_symbol_inv hs hfsm hj hx h hf

/-- Outside `StaticBlock` the element of a busy state that does not fault is fetched and executed. -/
theorem element_fetches {s t : State} (hb : s.busy = true) (hstatic : s.fsm ≠ .staticBlock)
    (h : element s = .next t) (hf : t.fsm ≠ .failed) : ∃ i u, fetch s = some (.ok i u) ∧ exec i u = .next t := by
  unfold element at h
  split at h
  · next i u he => exact ⟨i, u, he, h⟩
  · exact absurd (State.failed_of_raise_eq_next h) hf
  · cases h
  · cases h
  · next hnone =>
    unfold fetch at hnone
    unfold State.busy at hb
    cases hfsm : s.fsm <;> simp only [hfsm, reduceCtorEq] at hnone hb
    case staticBlock => exact absurd hfsm hstatic
    case dynamicBlockHeader => cases hp : s.dynPhase <;> simp only [hp, reduceCtorEq] at hnone

/-- `Idle`, `Done` and `Failed` keep their state (R390). -/
theorem element_of_not_busy {s : State} (hb : s.busy = false) : element s = .next s := by
  unfold State.busy at hb
  unfold element fetch
  cases hfsm : s.fsm <;> simp only [hfsm, reduceCtorEq] at hb <;> rfl

theorem element_staticBlock {s : State} (h : s.fsm = .staticBlock) : element s = (selectFixed s).finish := by
  unfold element fetch
  rw [h]
  rfl

theorem element_keeps_inv {s t : State} (hs : s.Inv) (h : element s = .next t) : t.Inv := by
  cases hb : s.busy with
  | false =>
    rw [element_of_not_busy hb] at h
    cases h
    exact hs
  | true =>
    by_cases hf : t.fsm = .failed
    · have hadv := element_advances s
      rw [h] at hadv
      rcases hadv with ht | ⟨k, u, hu, rfl⟩
      · exact absurd (ht.fsm hf) (State.ne_failed_of_busy hb)
      · exact hs.raise_of_ahead hu k
    · by_cases hstatic : s.fsm = .staticBlock
      · rw [element_staticBlock hstatic] at h
        exact selectFixed_inv (hs.running hb) (Res.finish_eq_next h hf)
      · obtain ⟨i, u, hfetch, hexec⟩ := element_fetches hb hstatic h hf
        obtain ⟨hu, hi, -⟩ := fetch_ok hs hfetch
        exact exec_keeps_inv hu hi hexec hf

/-- A step is a reset, a launch or an element (R410, R412). -/
theorem step_cases (s : State) :
    step s = .next s.rst ∨ step s = s.launch ∨ step s = element s := by
  cases hrst : s.pins.rst with
  | true => exact .inl (step_eq_rst hrst)
  | false =>
    cases hstart : s.pins.start with
    | false => exact .inr (.inr (step_eq_element hrst (.inl hstart)))
    | true =>
      cases hbusy : s.busy with
      | false => exact .inr (.inl (step_eq_launch hrst hstart hbusy))
      | true => exact .inr (.inr (step_eq_element hrst (.inr hbusy)))

/-- Settles O43: a step is a reset, a launch or an element, and each of them leads to a good state. -/
theorem stepKeepsTheInvariant : Obligations.StepKeepsTheInvariant := by
  intro s t hs h
  rcases step_cases s with he | he | he <;> rw [he] at h
  · cases h
    exact hs.rst
  · obtain ⟨hp, rfl⟩ := State.launch_eq_next h
    exact hs.launched hp
  · exact element_keeps_inv hs h

/-- Settles O48: a step of a run that does not fault goes ahead, and the state it reaches is good. -/
theorem outputGrowsForward : Obligations.OutputGrowsForward := by
  intro s t hs hrst hbusy hstep hf
  have ht := stepKeepsTheInvariant s t hs hstep
  have hadv := element_advances s
  rw [← step_eq_element hrst (.inr hbusy), hstep] at hadv
  have hahead := hadv.ahead hf
  exact ⟨hahead.outPos, ht.room hf, fun x hx => hahead.frame hs.out_wf x (by omega)⟩

/-- Settles O49: the fetch of an element consumes at least one bit, and executing it does not move the cursor back. -/
theorem positionMovesOn : Obligations.PositionMovesOn := by
  intro s t hs hrst hbusy hstatic hstep hf
  have hcursor := (stepKeepsTheInvariant s t hs hstep).cursor hf
  rw [step_eq_element hrst (.inr hbusy)] at hstep
  obtain ⟨i, u, hfetch, hexec⟩ := element_fetches hbusy hstatic hstep hf
  obtain ⟨-, -, hfetched⟩ := fetch_ok hs hfetch
  have hadv := exec_advances i u
  rw [hexec] at hadv
  have hexecuted := (hadv.ahead hf).pos
  have hpos := hcursor.pos_add
  have hwithin := hcursor.within
  exact ⟨by omega, by omega⟩

end Sys2Proof.Machine
end

section
/-! What a step leaves of `OUT` at and above `OUT_CAP`, and that equal contents are equal data (R60, R62, R68, R69,
R376). -/

namespace Sys2Proof

/-- Writing back the byte an address reads changes no byte, hence nothing. -/
theorem Memory.write_read {m : Memory} (h : m.wf = true) (a : Nat) : m.write a (m.read a) = m :=
  Memory.ext (Memory.wf_write h a _) h fun x => by
    rw [Memory.read_write h]
    split
    · next hx => rw [hx]
    · rfl

namespace Machine

/-- Settles O54: canonical memories are determined by their bytes, and the write changes none. -/
theorem equalMemoriesAreEqualData : Obligations.EqualMemoriesAreEqualData :=
  fun _ _ hm hn h => ⟨Memory.ext hm hn h, Memory.write_read hm⟩

/-- Reset leaves the bytes at and above `OUT_CAP` alone (R410). -/
theorem State.read_rst_of_outCap_le {s : State} (hw : s.out.wf = true) {x : Nat} (hx : s.outCap ≤ x) :
    s.rst.out.read x = s.out.read x := by
  rw [State.rst_out]
  split
  · rw [State.freeOut_out, Memory.read_overwriteBelow hw, if_neg (by omega)]
  · rfl

/-- Entering a fault writes no byte at or above `OUT_CAP` (R376). -/
theorem State.read_raise_of_outCap_le {s : State} (k : FaultKind) (hw : s.out.wf = true) {x : Nat}
    (hx : s.outCap ≤ x) :
    (s.raise k).out.read x = s.out.read x := by
  rw [State.raise_out, Memory.read_overwriteBelow hw, if_neg (by omega)]

/-- An element writes no byte at or above `OUT_CAP`, whether it goes ahead or faults (R69, R376). -/
theorem Advances.read_of_outCap_le {s t : State} (h : Advances s (.next t)) (hw : s.out.wf = true) {x : Nat}
    (hx : s.outCap ≤ x) : t.out.read x = s.out.read x := by
  rcases h with h | ⟨k, u, h, rfl⟩
  · exact h.frame hw x (.inr (.inr hx))
  · have hcap : u.outCap ≤ x := by rwa [State.outCap_of_inputs h.inputs]
    rw [State.read_raise_of_outCap_le k (h.out_wf hw) hcap, h.frame hw x (.inr (.inr hx))]

/-- Settles O47: reset frees `OUT` only below `OUT_CAP`, launch keeps `OUT`, and elements and faults write below that. -/
theorem outputAboveCapacityIsNeverWritten : Obligations.OutputAboveCapacityIsNeverWritten := by
  intro s t hw hstep x hx
  rcases step_cases s with he | he | he <;> rw [he] at hstep
  · cases hstep
    exact State.read_rst_of_outCap_le hw hx
  · obtain ⟨-, rfl⟩ := State.launch_eq_next hstep
    rw [State.launched_out]
  · have hadv := element_advances s
    rw [hstep] at hadv
    exact hadv.read_of_outCap_le hw hx

end Machine
end Sys2Proof
end

section
/-! Every access to a space is tested before it is made (R61, R62, R69): one lemma per operation says that it answers
no address fault, from whatever state it is called in. -/

namespace Sys2Proof.Machine

/-- The operation answers no address fault: every byte it reads or writes exists (R69). -/
def Res.InBounds {α : Type} (x : Res α) : Prop := ∀ r, x ≠ .fault r

/-- The step answers no address fault (R69). -/
def InBounds (o : Host.Outcome State Fault Refusal) : Prop := ∀ r, o ≠ .fault r

theorem Res.InBounds.ok {α : Type} (a : α) (s : State) : (Res.ok a s).InBounds := nofun

theorem Res.InBounds.raised {α : Type} (k : FaultKind) (s : State) : (Res.raised k s : Res α).InBounds := nofun

theorem Res.InBounds.refused {α : Type} (r : Refusal) : (Res.refused r : Res α).InBounds := nofun

theorem Res.InBounds.bind {α β : Type} {x : Res α} {f : α → State → Res β} (hx : x.InBounds)
    (hf : ∀ a s, (f a s).InBounds) : (x.bind f).InBounds :=
  match x, hx with
  | .ok a s, _ => hf a s
  | .raised _ _, _ => nofun
  | .fault r, hx => absurd rfl (hx r)
  | .refused _, _ => nofun

theorem Res.InBounds.finish {x : Res Unit} (hx : x.InBounds) : Machine.InBounds x.finish :=
  match x, hx with
  | .ok _ _, _ => nofun
  | .raised _ _, _ => nofun
  | .fault r, hx => absurd rfl (hx r)
  | .refused _, _ => nofun

theorem InBounds.next (s : State) : InBounds (.next s) := nofun

/-! ### Accesses behind their test -/

theorem inRead_inBounds {a : Nat} {s : State} (h : a < s.inLen) : (inRead a s).InBounds := by
  rw [inRead, if_pos h]
  exact .ok _ s

theorem outWrite_inBounds {a : Nat} {s : State} (h : a < s.outCap) (b : Byte) : (outWrite a b s).InBounds := by
  rw [outWrite, if_pos h]
  exact .ok _ _

/-! ### The bit cursor -/

theorem refill_inBounds (fuel n : Nat) (s : State) : (refill fuel n s).InBounds := by
  induction fuel generalizing s with
  | zero => exact .ok () s
  | succ fuel ih =>
    unfold refill
    split
    · exact .ok () s
    · split
      · exact .raised _ s
      · exact (inRead_inBounds (by omega)).bind fun b u => ih _

theorem peek_inBounds (n : Nat) (s : State) : (peek n s).InBounds := by
  unfold peek
  split
  · exact (refill_inBounds 4 n s).bind fun _ u => .ok _ u
  · exact .refused _

theorem discard_inBounds (n : Nat) (s : State) : (discard n s).InBounds := by
  unfold discard
  split
  · exact .ok () _
  · exact .refused _

theorem take_inBounds (n : Nat) (s : State) : (take n s).InBounds :=
  (peek_inBounds n s).bind fun _ u => (discard_inBounds n u).bind fun _ w => .ok _ w

theorem decodeSym_inBounds (t : Table) (s : State) : (decodeSym t s).InBounds := by
  refine (peek_inBounds t.m s).bind fun i u => ?_
  split
  · exact .raised _ u
  · exact (discard_inBounds _ u).bind fun _ w => .ok _ w

/-! ### Writing `OUT` -/

theorem emit_inBounds (b : Byte) (s : State) : (emit b s).InBounds := by
  unfold emit
  split
  · exact .raised _ s
  · exact (outWrite_inBounds (by omega) b).bind fun _ _ => .ok () _

theorem rawLoop_inBounds (n : Nat) (s : State) : (rawLoop n s).InBounds := by
  induction n generalizing s with
  | zero => exact .ok () s
  | succ n ih =>
    unfold rawLoop
    split
    · exact .raised _ s
    · split
      · exact .raised _ s
      · rw [inRead, if_pos (by omega), Res.bind_ok]
        exact (outWrite_inBounds (by omega) _).bind fun _ _ => ih _

theorem readRaw_inBounds (n : Nat) (s : State) : (readRaw n s).InBounds := by
  unfold readRaw
  split
  · exact rawLoop_inBounds n _
  · exact .refused _

/-- The read of `COPY` lies below the write, so the test of the write covers both (R352, R357). -/
theorem copyLoop_inBounds (n dist : Nat) (s : State) : (copyLoop n dist s).InBounds := by
  induction n generalizing s with
  | zero => exact .ok () s
  | succ n ih =>
    unfold copyLoop
    split
    · exact .raised _ s
    · rw [outRead, if_pos (by omega), Res.bind_ok]
      exact (outWrite_inBounds (by omega) _).bind fun _ _ => ih _

theorem copy_inBounds (len dist : Nat) (s : State) : (copy len dist s).InBounds := by
  unfold copy
  split
  · exact .raised _ s
  · exact copyLoop_inBounds len dist s

/-! ### Tables and the end of a block -/

theorem buildTable_inBounds (lens : List Nat) (s : State) : (buildTable lens s).InBounds := by
  unfold buildTable
  split
  · exact .raised _ s
  · exact .ok _ s

theorem endOfBlock_inBounds (s : State) : (endOfBlock s).InBounds := by
  unfold endOfBlock
  split
  · exact .ok () _
  · exact .ok () _

theorem afterCllens_inBounds (s : State) : (afterCllens s).InBounds :=
  (buildTable_inBounds _ s).bind fun _ _ => .ok () _

theorem afterLengths_inBounds (s : State) : (afterLengths s).InBounds := by
  unfold afterLengths
  split
  · exact .ok () s
  · exact (buildTable_inBounds _ s).bind fun _ u => (buildTable_inBounds _ u).bind fun _ _ => .ok () _

theorem repeatLength_inBounds (v : BitVec 4) (rep : Nat) (s : State) : (repeatLength v rep s).InBounds := by
  rcases Nat.lt_or_ge (s.hlit + s.hdist) (s.lidx + rep) with h | h
  · rw [repeatLength_overflows v h]
    exact .raised _ _
  · rw [repeatLength_fits v h]
    exact afterLengths_inBounds _

theorem selectFixed_inBounds (s : State) : (selectFixed s).InBounds := by
  refine Res.InBounds.bind ?_ fun _ _ => .ok () _
  cases h : s.staticValid with
  | true => rw [buildFixed_again h]; exact .ok () s
  | false => rw [buildFixed_first h]; exact .ok () _

/-! ### Fetching -/

theorem orSymbolDomain_inBounds (i : Option Instr) (s : State) : (orSymbolDomain i s).InBounds :=
  match i with
  | some i => .ok i s
  | none => .refused _

theorem fetchCl_inBounds (s : State) : (fetchCl s).InBounds := by
  refine (decodeSym_inBounds _ s).bind fun sym u => ?_
  dsimp only
  split
  · exact .raised _ _
  · exact (take_inBounds _ _).bind fun _ w => orSymbolDomain_inBounds _ w

theorem fetchDist_inBounds (s : State) : (fetchDist s).InBounds :=
  (decodeSym_inBounds _ s).bind fun _ _ => (take_inBounds _ _).bind fun _ w => orSymbolDomain_inBounds _ w

theorem fetch_inBounds {s : State} {x : Res Instr} (h : fetch s = some x) : x.InBounds := by
  unfold fetch at h
  split at h
  · cases h
    exact (take_inBounds 8 s).bind fun _ u => (take_inBounds 8 u).bind fun _ w => .ok _ w
  · cases h
    exact (take_inBounds 1 s).bind fun _ u => (take_inBounds 2 u).bind fun _ w => .ok _ w
  · cases h
    exact (discard_inBounds _ s).bind fun _ t =>
      (take_inBounds 16 t).bind fun _ u => (take_inBounds 16 u).bind fun _ w => .ok _ w
  · split at h <;> cases h
    · exact (take_inBounds 5 s).bind fun _ t =>
        (take_inBounds 5 t).bind fun _ u => (take_inBounds 4 u).bind fun _ w => .ok _ w
    · exact (take_inBounds 3 s).bind fun _ u => .ok _ u
    · exact fetchCl_inBounds s
  · cases h
    exact (decodeSym_inBounds _ s).bind fun _ _ => (take_inBounds _ _).bind fun _ w => orSymbolDomain_inBounds _ w
  all_goals cases h

/-! ### Executing -/

theorem matchAt_inBounds (dist : Nat) (s : State) : InBounds (matchAt dist s) := (copy_inBounds _ _ _).finish

theorem execDistance_inBounds (j : Instr) (s : State) : InBounds (execDistance j s) := by
  cases h : distanceRow j with
  | some dist =>
    rw [(exec_distanceRow h s).2.1]
    exact matchAt_inBounds _ s
  | none =>
    cases j <;> simp only [distanceRow, reduceCtorEq] at h
    all_goals nofun

theorem matchOf_inBounds (len : Nat) (s : State) : InBounds (matchOf len s) := by
  unfold matchOf
  split
  · next j u _ => exact execDistance_inBounds j u
  · next k u _ => exact .next _
  · next r he => exact absurd he (fetchDist_inBounds _ r)
  · nofun

theorem storedBody_inBounds (len nlen : BitVec 16) (s : State) : (storedBody len nlen s).InBounds := by
  unfold storedBody
  dsimp only
  split
  · exact (readRaw_inBounds _ _).bind fun _ u => endOfBlock_inBounds u
  · exact .raised _ _

/-- No element accesses an address that does not exist, from whatever state it is executed in. -/
theorem exec_inBounds (i : Instr) (s : State) : InBounds (exec i s) := by
  cases hl : lengthRow i with
  | some len => rw [exec_lengthRow hl]; exact matchOf_inBounds _ s
  | none =>
    cases hd : distanceRow i with
    | some dist => rw [(exec_distanceRow hd s).1]; exact matchAt_inBounds _ s
    | none =>
      cases i <;> simp only [lengthRow, distanceRow, reduceCtorEq] at hl hd
      case zhdr cmf flg => simp only [exec, execZhdr]; split <;> exact .next _
      case bhdrFixed f => exact (selectFixed_inBounds _).finish
      case stored len nlen => exact (storedBody_inBounds len nlen s).finish
      case dynhdr hlit hdist hclen => simp only [exec, execDynhdr]; split <;> exact .next _
      case cllen3 v =>
        simp only [exec, execCllen3]
        split
        · exact .next _
        · exact (afterCllens_inBounds _).finish
      case clLen v => exact (afterLengths_inBounds _).finish
      case clRep r =>
        simp only [exec, execClRep]
        split
        · exact .next _
        · exact (repeatLength_inBounds _ r s).finish
      case clZrep3 r => exact (repeatLength_inBounds 0 r s).finish
      case clZrep11 r => exact (repeatLength_inBounds 0 r s).finish
      case lit b => exact (emit_inBounds b s).finish
      case eob => exact (endOfBlock_inBounds s).finish
      all_goals exact .next _

theorem element_inBounds (s : State) : InBounds (element s) := by
  unfold element
  split
  · next i u _ => exact exec_inBounds i u
  · next k u _ => exact .next _
  · next r he => exact absurd rfl (fetch_inBounds he r)
  · nofun
  · split
    · exact (selectFixed_inBounds s).finish
    · exact .next s

theorem State.launch_inBounds (s : State) : InBounds s.launch := by
  unfold State.launch
  split
  · exact .next _
  · nofun

/-- Settles O45: reset and launch access neither space, and no access of an element leaves its buffer. -/
theorem noAccessLeavesItsBuffer : Obligations.NoAccessLeavesItsBuffer := by
  intro s
  rcases step_cases s with he | he | he <;> rw [he]
  · exact InBounds.next _
  · exact s.launch_inBounds
  · exact element_inBounds s

end Sys2Proof.Machine
end

section
/-! Codes against tables: the bits of a canonical code, whatever follows them, select the code's own entry (R163, R166,
R169). -/

namespace Sys2Proof

open Machine (canonicalCode)

theorem natOfBits_append (a b : Bits) : natOfBits (a ++ b) = natOfBits a + 2 ^ a.length * natOfBits b := by
  induction a with
  | nil => simp [natOfBits]
  | cons x a ih => rw [List.cons_append, natOfBits, natOfBits, ih, List.length_cons, Nat.pow_succ']; ring

/-- The first `n` bits of a string are its number's low `n` bits (R65). -/
theorem natOfBits_take (n : Nat) (bs : Bits) : natOfBits (bs.take n) = natOfBits bs % 2 ^ n := by
  refine Nat.eq_of_testBit_eq fun i => ?_
  rw [Nat.testBit_mod_two_pow, testBit_natOfBits, testBit_natOfBits]
  by_cases hi : i < n
  · simp [hi, List.getD_eq_getElem?_getD]
  · simp [hi, List.getD_eq_getElem?_getD]

/-- Turning a bit string round turns its number round (R13). -/
theorem natOfBits_reverse (bs : Bits) : natOfBits bs.reverse = revBits bs.length (natOfBits bs) := by
  induction bs with
  | nil => rfl
  | cons b bs ih =>
    have hb := b.toNat_lt
    have hmod : (b.toNat + 2 * natOfBits bs) % 2 = b.toNat := by omega
    have hdiv : (b.toNat + 2 * natOfBits bs) / 2 = natOfBits bs := by omega
    rw [List.reverse_cons, natOfBits_append, ih, List.length_reverse, List.length_cons, revBits]
    simp only [natOfBits, hmod, hdiv]
    ring

/-- A code's bits stand in the stream most significant first, so they index the table by the reversed code (R166). -/
theorem natOfBits_codeBits {n c : Nat} (h : c < 2 ^ n) : natOfBits (codeBits n c) = revBits n c := by
  rw [codeBits, natOfBits_reverse, length_bitsOfNat, natOfBits_bitsOfNat h]

/-- The look-ahead over a code and what follows it is an index the code matches. -/
theorem Matches.of_codeBits {lens : List Nat} {s l n : Nat} (hc : canonicalCode lens s < 2 ^ l) (hn : l ≤ n)
    (rest : Bits) : Matches lens s l (natOfBits ((codeBits l (canonicalCode lens s) ++ rest).take n)) := by
  have hlow : natOfBits ((codeBits l (canonicalCode lens s) ++ rest).take n) % 2 ^ l =
      natOfBits (codeBits l (canonicalCode lens s)) := by
    rw [← natOfBits_take, List.take_take, Nat.min_eq_left hn, List.take_left' (length_codeBits _ _)]
  rw [Matches, hlow, natOfBits_codeBits hc, revBits_revBits hc]

/-- In a built table the canonical code of a symbol, whatever follows it, decodes to the symbol. -/
theorem takeSymbol_canonicalCode {lens : List Nat} {t : Table} {s l : Nat} (hb : build lens = some t)
    (hs : HasCode lens s l) {rest : Bits} (hlong : t.m ≤ (codeBits l (canonicalCode lens s) ++ rest).length) :
    takeSymbol t (codeBits l (canonicalCode lens s) ++ rest) = .ok (s, rest) := by
  have hl : l ≤ t.m := build_m hb ▸ hs.le_maxLen
  have hl0 : l ≠ 0 := Nat.ne_of_gt hs.2.2.1
  have hidx : natOfBits ((codeBits l (canonicalCode lens s) ++ rest).take t.m) < 2 ^ t.m := by
    simpa only [List.length_take, Nat.min_eq_left hlong] using
      natOfBits_lt ((codeBits l (canonicalCode lens s) ++ rest).take t.m)
  have hentry := (build_entry_iff hb hidx hl0).mpr
    ⟨hs, Matches.of_codeBits (hs.code_lt (kraft_le_of_build hb)) hl rest⟩
  simp only [takeSymbol, if_neg (Nat.not_lt.mpr hlong), hentry, if_neg hl0, List.drop_left' (length_codeBits _ _)]

theorem getD_mem_of_lt {lens : List Nat} {s : Nat} (h : s < lens.length) : lens.getD s 0 ∈ lens := by
  rw [List.getD_eq_getElem _ _ h]
  exact List.getElem_mem h

/-- Settles O3: the symbol has a code, so its code's words select its own entry. -/
theorem canonicalCodesDecode : Obligations.CanonicalCodesDecode := by
  intro lens t sym rest hle hbuild hsym hlen hlong
  exact takeSymbol_canonicalCode hbuild ⟨hsym, rfl, Nat.pos_of_ne_zero hlen, hle _ (getD_mem_of_lt hsym)⟩ hlong

end Sys2Proof
end

section
/-! The encoder against the decoder: fields read back what they hold, the code books hold the canonical codes of the
tables they stand beside, and every element is made of fields or is a symbol of one of the three alphabets (R92 to
R104). -/

namespace Sys2Proof

open Machine (canonicalCode homeContext)

/-! ### Fields -/

theorem takeField_append (a bs : Bits) : takeField a.length (a ++ bs) = .ok (natOfBits a, bs) := by
  rw [takeField, if_neg (by simp), List.take_left' rfl, List.drop_left' rfl]

/-- A field reads back the number it holds (R65). -/
theorem takeField_bitsOfNat {n v : Nat} (h : v < 2 ^ n) (bs : Bits) :
    takeField n (bitsOfNat n v ++ bs) = .ok (v, bs) := by
  simpa only [length_bitsOfNat, natOfBits_bitsOfNat h] using takeField_append (bitsOfNat n v) bs

theorem takeTwoFields_bitsOfNat {n m v w : Nat} (hv : v < 2 ^ n) (hw : w < 2 ^ m) (mk : Nat → Nat → Instr)
    (bs : Bits) : takeTwoFields n m mk (bitsOfNat n v ++ (bitsOfNat m w ++ bs)) = .ok (mk v w, bs) := by
  simp only [takeTwoFields, takeField_bitsOfNat hv, takeField_bitsOfNat hw]

/-- The three block headers and the reserved one (R93). -/
theorem decode_blockHeader (f : Bool) {btype : Nat} (h : btype < 4) (bs : Bits) :
    decode .block (f :: bitsOfNat 2 btype ++ bs) = .ok (bhdrInstr f.toNat btype, bs) := by
  have hf : f :: bitsOfNat 2 btype ++ bs = bitsOfNat 1 f.toNat ++ (bitsOfNat 2 btype ++ bs) := by cases f <;> rfl
  rw [hf]
  exact takeTwoFields_bitsOfNat (n := 1) (m := 2) f.toNat_lt h bhdrInstr bs

theorem decode_zhdr (cmf flg : Byte) (bs : Bits) :
    decode .zlib (bitsOfByte cmf ++ bitsOfByte flg ++ bs) = .ok (.zhdr cmf flg, bs) := by
  rw [List.append_assoc]
  refine (takeTwoFields_bitsOfNat cmf.isLt flg.isLt zhdrInstr bs).trans ?_
  rw [zhdrInstr, BitVec.ofNat_toNat, BitVec.ofNat_toNat, BitVec.setWidth_eq, BitVec.setWidth_eq]

/-- The padding before a stored header is dropped, whatever its bits (R94). -/
theorem decode_stored (pad : Bits) (len nlen : BitVec 16) (bs : Bits) :
    decode (.stored pad.length) (pad ++ (bitsOfNat 16 len.toNat ++ bitsOfNat 16 nlen.toNat ++ bs)) =
      .ok (.stored len nlen, bs) := by
  simp only [decode, takeField_append, List.append_assoc]
  rw [takeTwoFields_bitsOfNat len.isLt nlen.isLt, storedInstr, BitVec.ofNat_toNat, BitVec.ofNat_toNat,
    BitVec.setWidth_eq, BitVec.setWidth_eq]

theorem decode_dynhdr {hlit hdist hclen : Nat} (h : wellFormed (.dynhdr hlit hdist hclen) = true) (bs : Bits) :
    decode .counts (bitsOfNat 5 (hlit - 257) ++ (bitsOfNat 5 (hdist - 1) ++ bitsOfNat 4 (hclen - 4)) ++ bs) =
      .ok (.dynhdr hlit hdist hclen, bs) := by
  obtain ⟨hl, hl', hd, hd', hc, hc'⟩ := of_decide_eq_true h
  simp only [decode, List.append_assoc]
  rw [takeField_bitsOfNat (by omega)]
  refine (takeTwoFields_bitsOfNat (by omega) (by omega) (dynhdrInstr (hlit - 257)) bs).trans ?_
  rw [dynhdrInstr, Nat.sub_add_cancel hl, Nat.sub_add_cancel hd, Nat.sub_add_cancel hc]

theorem decode_cllen3 {v : Nat} (h : wellFormed (.cllen3 v) = true) (bs : Bits) :
    decode .cllen (bitsOfNat 3 v ++ bs) = .ok (.cllen3 v, bs) := by
  simp only [decode, takeField_bitsOfNat (n := 3) (of_decide_eq_true h)]

/-! ### Code books -/

/-- The book lists the canonical codes of `lens`, and `t` is the table `BUILD` makes of them. The look-ahead is at most
two bits longer than any code. -/
structure CodeBook.Canonical (book : CodeBook) (lens : List Nat) (t : Table) : Prop where
  built : build lens = some t
  lengths : ∀ l ∈ lens, 1 ≤ l ∧ l ≤ 16 ∧ maxLen lens ≤ l + 2
  codes : ∀ {sym code}, book sym = some code →
    sym < lens.length ∧ code = codeBits (lens.getD sym 0) (canonicalCode lens sym)

/-- A symbol of the book with its extra bits decodes, in the book's table, to the element the two make. -/
theorem CodeBook.Canonical.takeSymbolInstr_encodeSymbol {book : CodeBook} {lens : List Nat} {t : Table}
    (hbook : book.Canonical lens t) {extra : Nat → Nat} {mk : Nat → Nat → Option Instr} {p : Nat × Nat} {i : Instr}
    {bits rest : Bits} (henc : encodeSymbol book extra p = some bits) (hmk : mk p.1 p.2 = some i) (hx : p.2 < 2 ^ extra p.1)
    (hrest : 2 ≤ rest.length) : takeSymbolInstr t extra mk (bits ++ rest) = .ok (i, rest) := by
  obtain ⟨code, hcode, rfl⟩ := Option.map_eq_some_iff.mp henc
  obtain ⟨hsym, rfl⟩ := hbook.codes hcode
  obtain ⟨h1, h16, hm⟩ := hbook.lengths _ (getD_mem_of_lt hsym)
  have hlook : takeSymbol t (codeBits (lens.getD p.1 0) (canonicalCode lens p.1) ++
      (bitsOfNat (extra p.1) p.2 ++ rest)) = .ok (p.1, bitsOfNat (extra p.1) p.2 ++ rest) := by
    refine takeSymbol_canonicalCode hbook.built ⟨hsym, rfl, h1, h16⟩ ?_
    rw [build_m hbook.built, List.length_append, List.length_append, length_codeBits]
    omega
  simp only [takeSymbolInstr, List.append_assoc, hlook, takeField_bitsOfNat hx, hmk]

/-- Symbols of one length that stand together have consecutive codes (R163): the first of them follows the earlier
symbols of that length. -/
theorem codeBits_of_run {lens before after : List Nat} {n l k base sym c : Nat}
    (hlens : lens = before ++ (List.replicate n l ++ after)) (hk : before.length = k)
    (hbase : firstCode lens l + countEq l before = base) (hlow : k ≤ sym) (hhigh : sym < k + n)
    (hc : c = base + (sym - k)) :
    sym < lens.length ∧ codeBits l c = codeBits (lens.getD sym 0) (canonicalCode lens sym) := by
  obtain ⟨j, rfl⟩ := Nat.exists_eq_add_of_le hlow
  have hj : j < n := by omega
  have hlen : lens.getD (k + j) 0 = l := by
    rw [hlens, List.getD_append_right _ _ _ _ (by omega),
      List.getD_append _ _ _ _ (by rw [List.length_replicate]; omega), List.getD_replicate _ (by omega)]
  have htake : lens.take (k + j) = before ++ List.replicate j l := by
    rw [hlens, ← hk, List.take_length_add_append, List.take_append_of_le_length (by rw [List.length_replicate]; omega),
      List.take_replicate, Nat.min_eq_left (Nat.le_of_lt hj)]
  have hcode : canonicalCode lens (k + j) = c := by
    rw [canonicalCode, hlen, htake, countEq_append, Machine.countEq_eq_count l (List.replicate j l),
      List.count_replicate_self]
    omega
  refine ⟨?_, by rw [hlen, hcode]⟩
  simp only [hlens, List.length_append, List.length_replicate]
  omega

/-- The nineteen 5-bit codes of log entry 14. -/
theorem flatCLBook_canonical : flatCLBook.Canonical flatCLLens flatCLTable where
  built := build_of_kraft (by decide)
  lengths := by decide
  codes := by
    intro sym code h
    obtain ⟨hs, hc⟩ := Option.ite_none_right_eq_some.mp h
    cases hc
    exact codeBits_of_run (before := []) (n := 19) (after := []) (k := 0) (base := 0) rfl rfl rfl
      (by omega) (by omega) (by omega)

/-- The fixed distance codes as R103 lists them. -/
theorem fixedDBook_canonical : fixedDBook.Canonical fixedDLens fixedDTable where
  built := build_fixedDLens
  lengths := by decide
  codes := by
    intro sym code h
    obtain ⟨hs, hc⟩ := Option.ite_none_right_eq_some.mp h
    cases hc
    exact codeBits_of_run (before := []) (n := 32) (after := []) (k := 0) (base := 0) rfl rfl rfl
      (by omega) (by omega) (by omega)

/-- The fixed literal/length codes as R102 lists them, run after run. -/
theorem fixedLLBook_canonical : fixedLLBook.Canonical fixedLLLens fixedLLTable where
  built := build_fixedLLLens
  lengths := by decide +kernel
  codes := by
    intro sym code h
    unfold fixedLLBook at h
    split at h
    · cases h
      exact codeBits_of_run (before := []) (n := 144)
        (after := List.replicate 112 9 ++ List.replicate 24 7 ++ List.replicate 8 8) (k := 0) (base := 0x30)
        (by decide +kernel) rfl (by decide +kernel) (by omega) (by omega) (by omega)
    split at h
    · cases h
      exact codeBits_of_run (before := List.replicate 144 8) (n := 112)
        (after := List.replicate 24 7 ++ List.replicate 8 8) (k := 144) (base := 0x190)
        (by decide +kernel) List.length_replicate (by decide +kernel) (by omega) (by omega) (by omega)
    split at h
    · cases h
      exact codeBits_of_run (before := List.replicate 144 8 ++ List.replicate 112 9) (n := 24)
        (after := List.replicate 8 8) (k := 256) (base := 0)
        (by decide +kernel) (by decide +kernel) (by decide +kernel) (by omega) (by omega) (by omega)
    split at h
    · cases h
      exact codeBits_of_run (before := List.replicate 144 8 ++ List.replicate 112 9 ++ List.replicate 24 7) (n := 8)
        (after := []) (k := 280) (base := 0xC0)
        (by decide +kernel) (by decide +kernel) (by decide +kernel) (by omega) (by omega) (by omega)
    · cases h

/-! ### The three alphabets -/

/-- A code-length element is what the decoder makes of its symbol and its extra bits (R97). -/
theorem clInstr_of_clParts {i : Instr} {p : Nat × Nat} (h : clParts i = some p) (hw : wellFormed i = true) :
    clInstr p.1 p.2 = some i ∧ p.2 < 2 ^ clExtra p.1 := by
  cases i <;> cases h
  case clLen v =>
    have hv : v < 16 := of_decide_eq_true hw
    exact ⟨if_pos hv, Nat.two_pow_pos _⟩
  case clRep r =>
    have hr : 3 ≤ r ∧ r ≤ 6 := of_decide_eq_true hw
    exact ⟨congrArg (some <| Instr.clRep ·) (Nat.add_sub_cancel' hr.1), show r - 3 < 2 ^ 2 by omega⟩
  case clZrep3 r =>
    have hr : 3 ≤ r ∧ r ≤ 10 := of_decide_eq_true hw
    exact ⟨congrArg (some <| Instr.clZrep3 ·) (Nat.add_sub_cancel' hr.1), show r - 3 < 2 ^ 3 by omega⟩
  case clZrep11 r =>
    have hr : 11 ≤ r ∧ r ≤ 138 := of_decide_eq_true hw
    exact ⟨congrArg (some <| Instr.clZrep11 ·) (Nat.add_sub_cancel' hr.1), show r - 11 < 2 ^ 7 by omega⟩

/-- A literal/length element is what the decoder makes of its symbol and its extra bits (R98). -/
theorem llInstr_of_llParts {i : Instr} {p : Nat × Nat} (h : llParts i = some p) (hw : wellFormed i = true) :
    llInstr p.1 p.2 = some i ∧ p.2 < 2 ^ llExtra p.1 := by
  cases i <;> cases h
  case lit b =>
    exact ⟨(if_pos b.isLt).trans (by rw [BitVec.ofNat_toNat, BitVec.setWidth_eq]), Nat.two_pow_pos _⟩
  case eob => exact ⟨rfl, by decide⟩
  case ll286 => exact ⟨rfl, by decide⟩
  case ll287 => exact ⟨rfl, by decide⟩
  all_goals exact ⟨rfl, by simpa [wellFormed, llExtra] using hw⟩

/-- A distance element is what the decoder makes of its symbol and its extra bits (R99). -/
theorem dInstr_of_dParts {i : Instr} {p : Nat × Nat} (h : dParts i = some p) (hw : wellFormed i = true) :
    dInstr p.1 p.2 = some i ∧ p.2 < 2 ^ dExtra p.1 := by
  cases i <;> cases h
  case dist30 => exact ⟨rfl, by decide⟩
  case dist31 => exact ⟨rfl, by decide⟩
  all_goals exact ⟨rfl, by simpa [wellFormed, dExtra] using hw⟩

/-- At home a code-length element is a symbol of `T_CL`, for the decoder and for the encoder (R104). -/
theorem home_of_clParts {i : Instr} {p : Nat × Nat} (h : clParts i = some p) (pad : Nat) (bk : Books) :
    homeContext pad i = .clsym flatCLTable ∧ encode bk i = encodeSymbol bk.cl clExtra p := by
  cases i <;> cases h <;> exact ⟨rfl, rfl⟩

theorem home_of_llParts {i : Instr} {p : Nat × Nat} (h : llParts i = some p) (pad : Nat) (bk : Books) :
    homeContext pad i = .llsym fixedLLTable ∧ encode bk i = encodeSymbol bk.ll llExtra p := by
  cases i <;> cases h <;> exact ⟨rfl, rfl⟩

theorem home_of_dParts {i : Instr} {p : Nat × Nat} (h : dParts i = some p) (pad : Nat) (bk : Books) :
    homeContext pad i = .dsym fixedDTable ∧ encode bk i = encodeSymbol bk.d dExtra p := by
  cases i <;> cases h <;> exact ⟨rfl, rfl⟩

/-- An element of an alphabet, encoded with a static block's books, decodes to itself. -/
theorem decode_encode_symbol {i : Instr} {bits rest : Bits} (pad : Nat) (hw : wellFormed i = true)
    (henc : encode staticBooks i = some bits) (hrest : 2 ≤ rest.length)
    (hsym : (clParts i).isSome ∨ (llParts i).isSome ∨ (dParts i).isSome) :
    decode (homeContext pad i) (bits ++ rest) = .ok (i, rest) := by
  simp only [Option.isSome_iff_exists] at hsym
  rcases hsym with ⟨p, hp⟩ | ⟨p, hp⟩ | ⟨p, hp⟩
  · obtain ⟨hhome, hbits⟩ := home_of_clParts hp pad staticBooks
    obtain ⟨hmk, hx⟩ := clInstr_of_clParts hp hw
    rw [hhome, decode]
    exact flatCLBook_canonical.takeSymbolInstr_encodeSymbol (hbits.symm.trans henc) hmk hx hrest
  · obtain ⟨hhome, hbits⟩ := home_of_llParts hp pad staticBooks
    obtain ⟨hmk, hx⟩ := llInstr_of_llParts hp hw
    rw [hhome, decode]
    exact fixedLLBook_canonical.takeSymbolInstr_encodeSymbol (hbits.symm.trans henc) hmk hx hrest
  · obtain ⟨hhome, hbits⟩ := home_of_dParts hp pad staticBooks
    obtain ⟨hmk, hx⟩ := dInstr_of_dParts hp hw
    rw [hhome, decode]
    exact fixedDBook_canonical.takeSymbolInstr_encodeSymbol (hbits.symm.trans henc) hmk hx hrest

/-- Settles O2: the elements made of fields read their fields back, and the others are symbols of an alphabet. -/
theorem decodeUndoesEncode : Obligations.DecodeUndoesEncode := by
  intro i pad bits rest hw henc hrest hpad
  cases i
  case stored len nlen =>
    cases henc
    exact decode_stored pad len nlen rest
  all_goals
    obtain rfl : pad = [] := hpad.resolve_right nofun
  case zhdr cmf flg =>
    cases henc
    exact decode_zhdr cmf flg rest
  case bhdrStored f | bhdrFixed f | bhdrDyn f | bhdrRsvd f =>
    cases henc
    refine (decode_blockHeader f (by decide) rest).trans ?_
    cases f <;> rfl
  case dynhdr hlit hdist hclen =>
    cases henc
    exact decode_dynhdr hw rest
  case cllen3 v =>
    cases henc
    exact decode_cllen3 hw rest
  all_goals exact decode_encode_symbol _ hw henc hrest (by simp [clParts, llParts, dParts])

/-- Settles O1: each of the words is short, and evaluating the decoder on it gives its element. -/
theorem writtenOutWordsDecode : Obligations.WrittenOutWordsDecode := by
  refine ⟨by decide, by decide, by decide, by decide, by decide, by decide, ?_, ?_, ?_, ?_, ?_⟩
  all_goals decide +kernel

end Sys2Proof
end

section
/-! The step against the decoder (R104, R191): a fetch ends behind the element that the decoder reads, with `SYM` at
the element's symbol, and the step runs that element there. -/

namespace Sys2Proof.Machine

/-- `u` is `s` behind the element `i`: the cursor stands at the bits `rest`, and `SYM` holds what `i` leaves there. -/
structure State.Behind (s : State) (i : Instr) (rest : Bits) (u : State) : Prop where
  same : u = { s with acc := u.acc, bitcnt := u.bitcnt, inOff := u.inOff, sym := s.symAfter i }
  cursor : u.CursorInv
  remaining : u.remaining = rest

theorem State.Behind.of_moved {s u : State} {i : Instr} {sym n : Nat} (hm : State.Moved { s with sym := sym } u n)
    (hsym : s.symAfter i = sym) : s.Behind i u.remaining u :=
  ⟨by rw [hsym]; exact hm.same, hm.cursor, rfl⟩

/-- A fault leaves nothing of the cursor or of `SYM` (R376). -/
theorem State.Behind.raise {s u : State} {i : Instr} {rest : Bits} (h : s.Behind i rest u) (k : FaultKind) :
    u.raise k = s.raise k := by
  rw [h.same]; rfl

theorem State.Behind.lidx {s u : State} {i : Instr} {rest : Bits} (h : s.Behind i rest u) : u.lidx = s.lidx := by
  rw [h.same]

/-! ### What `SYM` holds -/

/-- An element made of fields leaves `SYM` alone. -/
theorem State.Awaits.symAfter {u : State} {i : Instr} (h : u.Awaits i) (hloop : u.fsm ≠ .symbolLoop)
    (hphase : u.fsm = .dynamicBlockHeader → u.dynPhase ≠ .symbols) (s : State) : s.symAfter i = s.sym := by
  cases h with
  | zhdr hf cmf flg => rfl
  | bhdr hf bfinal btype => unfold bhdrInstr; split <;> rfl
  | stored hf len nlen => rfl
  | dynhdr hf hp hl hd hc => rfl
  | cllen3 hf hp v => rfl
  | codeLength hf hp hi hx => exact absurd hp (hphase hf)
  | symbol hf hi hx => exact absurd hf hloop

theorem State.symAfter_of_clInstr {sym x : Nat} {i : Instr} (h : clInstr sym x = some i) (s : State) :
    s.symAfter i = sym := by
  rcases clInstr_cases h with ⟨-, rfl⟩ | ⟨rfl, rfl⟩ | ⟨rfl, rfl⟩ | ⟨rfl, rfl⟩ <;> rfl

theorem State.symAfter_of_lengthRow {i : Instr} {len : Row} (h : lengthRow i = some len) (s : State) :
    s.symAfter i = len.sym := by
  cases i <;> cases h <;> rfl

theorem State.symAfter_of_llInstr {sym x : Nat} {i : Instr} (h : llInstr sym x = some i) (s : State) :
    s.symAfter i = sym := by
  rcases llInstr_cases h with ⟨hlt, rfl⟩ | ⟨rfl, rfl⟩ | ⟨-, -, len, hrow, rfl, -⟩ | ⟨rfl, rfl⟩ | ⟨rfl, rfl⟩
  · exact Nat.mod_eq_of_lt hlt
  · rfl
  · exact s.symAfter_of_lengthRow hrow
  · rfl
  · rfl

/-! ### Fetching what decodes -/

theorem element_of_fetch {s u : State} {i : Instr} (h : fetch s = some (.ok i u)) : element s = exec i u := by
  rw [element, h]

/-- Elements made of fields. -/
theorem element_of_fields {s : State} {r : Res Instr} {i : Instr} {rest : Bits} (hs : s.Inv) (hr : fetch s = some r)
    (hdec : Fetched s r (.ok (i, rest))) (hloop : s.fsm ≠ .symbolLoop)
    (hphase : s.fsm = .dynamicBlockHeader → s.dynPhase ≠ .symbols) :
    ∃ u, element s = exec i u ∧ s.Behind i rest u := by
  rcases hdec with ⟨j, u, n, rfl, hm, -, -, hj⟩ | ⟨u, n, -, -, hj⟩ | ⟨u, n, -, -, hj⟩ <;> cases hj
  obtain ⟨-, hawaits, -⟩ := fetch_ok hs hr
  have hsym := hawaits.symAfter (hm.fsm ▸ hloop) (by rw [hm.fsm, hm.dynPhase]; exact hphase) s
  exact ⟨u, element_of_fetch hr, .of_moved hm hsym⟩

/-- A symbol of a built table that decodes is fetched, with its extra bits, and recorded in `SYM`. -/
theorem fetch_of_takeSymbolInstr {s : State} {t : Table} {size : Nat} {extra : Nat → Nat}
    {mk : Nat → Nat → Option Instr} {i : Instr} {rest : Bits} (hc : s.CursorInv) (ht : Table.BuiltFor t size)
    (hx : ∀ n, extra n ≤ 25) (hmk : ∀ {sym} x, sym < size → ∃ j, mk sym x = some j)
    (hsym : ∀ {sym x}, mk sym x = some i → s.symAfter i = sym)
    (hdec : takeSymbolInstr t extra mk s.remaining = .ok (i, rest)) :
    ∃ u, (decodeSym t s).bind (fun sym u => (take (extra sym) { u with sym := sym }).bind fun x w =>
        orSymbolDomain (mk sym x) w) = .ok i u ∧ s.Behind i rest u := by
  rcases symbol_decode hc ht.decodable hx (mk := mk) (upd := fun n u => { u with sym := n })
      (fun _ _ => ⟨rfl, rfl, rfl, rfl, rfl⟩) (fun _ _ _ _ _ => rfl) with
    ⟨e, j, x, u, n, hfetch, hj, -, -, hm, -, -, hd⟩ | ⟨e, x, hlen, hnone⟩ | ⟨u, v, n, -, -, -, hd⟩ | ⟨u, n, -, -, hd⟩
  · rw [hdec] at hd
    cases hd
    exact ⟨u, hfetch, .of_moved hm (hsym hj)⟩
  · obtain ⟨j, hj⟩ := hmk x (ht.sym_lt hlen)
    rw [hnone] at hj
    cases hj
  · rw [hdec] at hd
    cases hd
  · rw [hdec] at hd
    cases hd

/-- The element that is read is made of the symbol that is read. -/
theorem takeSymbolInstr_mk {t : Table} {extra : Nat → Nat} {mk : Nat → Nat → Option Instr} {bs bs' rest : Bits}
    {sym : Nat} {i : Instr} (hs : takeSymbol t bs = .ok (sym, bs'))
    (h : takeSymbolInstr t extra mk bs = .ok (i, rest)) : ∃ x, mk sym x = some i := by
  unfold takeSymbolInstr at h
  rw [hs] at h
  dsimp only at h
  split at h
  · cases h
  · next x bs2 hx =>
    split at h
    · cases h
    · next j hj => cases h; exact ⟨x, hj⟩

/-- `CL.REP` with no previous length is refused before its extra bits are read and, were they read, by the element
itself: with the same fault, which leaves nothing else to tell the two apart (R239, R376). -/
theorem element_repeatsNothing {s u : State} {i : Instr} {rest : Bits} (hs : s.Inv) (hf : s.fsm = .dynamicBlockHeader)
    (hp : s.dynPhase = .symbols) (hrep : s.RepeatsNothing)
    (hdec : takeSymbolInstr s.tCl clExtra clInstr s.remaining = .ok (i, rest)) (hu : s.Behind i rest u) :
    element s = exec i u := by
  have ⟨hlidx, rest', hsym⟩ := hrep
  obtain ⟨x, hi⟩ := takeSymbolInstr_mk hsym hdec
  obtain rfl : Instr.clRep (3 + x) = i := Option.some.inj hi
  obtain ⟨v, n, hv, hfetch⟩ := fetchCl_repeatsNothing
    (hs.running (State.busy_of_dynamicBlockHeader hf)).cursor (hs.tCl_builtFor hf hp).decodable hrep
  have hexec : exec (.clRep (3 + x)) u = .next (u.raise .invalidCodeLengths) := if_pos (hu.lidx.trans hlidx)
  have helement : element s = .next (State.raise .invalidCodeLengths { v with sym := 16 }) := by
    simp only [element, fetch, hf, hp, hfetch]
  rw [helement, hexec, hu.raise, ← hv.raise]
  rfl

/-- Code-length symbols. -/
theorem element_of_clsym {s : State} {i : Instr} {rest : Bits} (hs : s.Inv) (hf : s.fsm = .dynamicBlockHeader)
    (hp : s.dynPhase = .symbols) (hdec : decode (.clsym s.tCl) s.remaining = .ok (i, rest)) :
    ∃ u, element s = exec i u ∧ s.Behind i rest u := by
  have hc := (hs.running (State.busy_of_dynamicBlockHeader hf)).cursor
  have ht := hs.tCl_builtFor hf hp
  obtain ⟨u, hfetch, hu⟩ := fetch_of_takeSymbolInstr hc ht clExtra_le clInstr_isSome
    (fun h => s.symAfter_of_clInstr h) hdec
  refine ⟨u, ?_, hu⟩
  by_cases hrep : s.RepeatsNothing
  · exact element_repeatsNothing hs hf hp hrep hdec hu
  · rw [← fetchCl_eq hc ht.decodable hrep] at hfetch
    exact element_of_fetch (by simp only [fetch, hf, hp, hfetch])

/-- Literal/length symbols. -/
theorem element_of_llsym {s : State} {i : Instr} {rest : Bits} (hs : s.Inv) (hf : s.fsm = .symbolLoop)
    (hdec : decode (.llsym s.tll) s.remaining = .ok (i, rest)) :
    ∃ u, element s = exec i u ∧ s.Behind i rest u := by
  obtain ⟨u, hfetch, hu⟩ := fetch_of_takeSymbolInstr (hs.running (State.busy_of_symbolLoop hf)).cursor
    (hs.active_builtFor hf).1 llExtra_le llInstr_isSome (fun h => s.symAfter_of_llInstr h) hdec
  rw [← fetchLl_eq] at hfetch
  exact ⟨u, element_of_fetch (by simp only [fetch, hf, hfetch]), hu⟩

/-- In every context the element that decodes is the one that runs, behind its bits. -/
theorem element_of_decode {s : State} {c : Context} {i : Instr} {rest : Bits} (hs : s.Inv) (hctx : s.context = some c)
    (hdec : decode c s.remaining = .ok (i, rest)) : ∃ u, element s = exec i u ∧ s.Behind i rest u := by
  have hcur : s.busy = true → s.CursorInv := fun hb => (hs.running hb).cursor
  unfold State.context at hctx
  split at hctx
  case h_1 hf =>
    cases hctx
    have hfetched := fetchZhdr_decode (hcur (by rw [State.busy, hf]))
    exact element_of_fields hs (by rw [fetch, hf]) (hdec ▸ hfetched) (by simp [hf]) (by simp [hf])
  case h_2 hf =>
    cases hctx
    have hfetched := fetchBhdr_decode (hcur (by rw [State.busy, hf]))
    exact element_of_fields hs (by rw [fetch, hf]) (hdec ▸ hfetched) (by simp [hf]) (by simp [hf])
  case h_3 hf =>
    cases hctx
    have hfetched := fetchStored_decode (hcur (by rw [State.busy, hf]))
    exact element_of_fields hs (by rw [fetch, hf]) (hdec ▸ hfetched) (by simp [hf]) (by simp [hf])
  case h_4 hf =>
    have hcur := hcur (State.busy_of_dynamicBlockHeader hf)
    split at hctx
    case h_1 hp =>
      cases hctx
      have hfetched := fetchDynhdr_decode hcur
      exact element_of_fields hs (by simp only [fetch, hf, hp]) (hdec ▸ hfetched) (by simp [hf]) (by simp [hp])
    case h_2 hp =>
      cases hctx
      have hfetched := fetchCllen3_decode hcur
      exact element_of_fields hs (by simp only [fetch, hf, hp]) (hdec ▸ hfetched) (by simp [hf]) (by simp [hp])
    case h_3 hp =>
      cases hctx
      exact element_of_clsym hs hf hp hdec
  case h_5 hf =>
    cases hctx
    exact element_of_llsym hs hf hdec
  all_goals cases hctx

/-- Settles O33: a quiet step runs an element, and that is the one the decoder reads. -/
theorem stepRunsTheDecodedElement : Obligations.StepRunsTheDecodedElement := by
  intro s c i rest hs hquiet hctx hdec
  obtain ⟨hrst, hstart⟩ := hquiet
  obtain ⟨u, helement, hu⟩ := element_of_decode hs hctx hdec
  exact ⟨u, (step_eq_element hrst (.inl hstart)).trans helement, hu.same, hu.cursor, hu.remaining⟩

end Sys2Proof.Machine
end

section
/-! The rules of the bit cursor (R133 to R148), each from the lemma that says all its operation can do. -/

namespace Sys2Proof.Machine

/-! ### `DISCARD` and `ALIGN` -/

theorem State.dropBits_zero (s : State) : s.dropBits 0 = s := by
  rw [State.dropBits, BitVec.ushiftRight_zero, Nat.sub_zero]

/-- Settles O9: the test of the valid bits, and the position they are dropped from. -/
theorem discardDropsPeekedBits : Obligations.DiscardDropsPeekedBits := by
  intro s n
  refine ⟨fun hn => if_pos hn, fun hn => if_neg (Nat.not_le.mpr hn), fun hn hc => (hc.dropBits hn).pos,
    fun hfull => ⟨?_, ?_⟩⟩
  · exact BitVec.ushiftRight_eq_zero (Nat.le_refl 32)
  · rw [State.dropBits_bitcnt, hfull]

/-- Settles O10: `ALIGN` drops the valid bits that are left of the current byte. -/
theorem alignReachesTheNextByte : Obligations.AlignReachesTheNextByte := by
  intro s hc
  obtain ⟨he, hm⟩ := align_spec hc
  have hpos := hm.pos
  have haligned := hc.align_pos
  refine ⟨_, he, rfl, hm.cursor, ?_, ?_, ?_, ?_, fun hz => ?_⟩
  · rw [hpos, haligned]
  · omega
  · omega
  · rw [State.dropBits_bitcnt]
    omega
  · rw [hz, State.dropBits_zero]

/-! ### `PEEK` and `TAKE` -/

/-- The stream still holds `n` bits if and only if `ACC` and the whole bytes not loaded yet do (R135). -/
theorem State.CursorInv.le_bitsLeft_iff {s : State} (h : s.CursorInv) (n : Nat) :
    n ≤ s.bitsLeft ↔ n ≤ s.bitcnt ∨ (n - s.bitcnt + 7) / 8 ≤ s.inLen - s.inOff := by
  rw [h.bitsLeft_eq]
  omega

/-- `PEEK` of bits that are valid loads nothing (R135). -/
theorem peek_of_le {s : State} {n : Nat} (hn : n ≤ s.bitcnt) (h32 : n ≤ 32) :
    peek n s = .ok (s.acc.toNat % 2 ^ n) s := by
  have hp : s.peekable n = true := decide_eq_true ⟨h32, .inl hn⟩
  have hrefill : refill 4 n s = .ok () s := if_pos hn
  rw [peek, if_pos hp, hrefill, Res.bind_ok]

/-- The number an `n`-bit field of the stream stands for (R65). -/
theorem State.natOfBits_streamBits (s : State) (p n : Nat) :
    natOfBits (s.streamBits p n) < 2 ^ n ∧ ∀ i, i < n → (natOfBits (s.streamBits p n)).testBit i = s.streamBit (p + i) := by
  constructor
  · simpa only [State.length_streamBits] using natOfBits_lt (s.streamBits p n)
  · intro i hi
    rw [s.testBit_streamBits, decide_eq_true hi, Bool.true_and]

/-- Settles O7: enough bits are left or not, and that decides which of the two ends of `PEEK` it comes to. -/
theorem peekLooksAhead : Obligations.PeekLooksAhead := by
  intro s hc
  refine ⟨fun n hp henough => ?_, fun n hp hshort => ?_, ?_⟩
  · have hleft := (hc.le_bitsLeft_iff n).mpr henough
    rcases peek_spec hc hp with ⟨-, u, he, hm, hvalid, hloaded⟩ | ⟨hlt, -⟩
    · obtain ⟨hv, hbits⟩ := s.natOfBits_streamBits s.pos n
      refine ⟨_, u, he, hm, hv, hbits, hvalid, fun hload => ?_, fun m hle => ?_⟩
      · rcases hloaded with hlt | rfl
        · exact hlt
        · omega
      · exact ⟨_, peek_of_le hle (Nat.le_trans hle hm.cursor.count)⟩
    · omega
  · have hleft : ¬ n ≤ s.bitsLeft := fun hle => hshort ((hc.le_bitsLeft_iff n).mp hle)
    rcases peek_spec hc hp with ⟨hle, -⟩ | ⟨-, u, he, -⟩
    · exact absurd hle hleft
    · exact ⟨u, he⟩
  · rw [peek_of_le (Nat.zero_le _) (Nat.zero_le _), Nat.pow_zero, Nat.mod_one]

/-- Settles O8: the two ends of `TAKE`, by the bits that are left. -/
theorem takeConsumesTheNextBits : Obligations.TakeConsumesTheNextBits := by
  intro s n hc hp
  rcases take_spec hc hp with ⟨hle, u, he, hm⟩ | ⟨hlt, u, he, hm⟩
  · exact ⟨fun _ => ⟨_, u, he, hm, s.natOfBits_streamBits s.pos n⟩, fun hlt => by omega⟩
  · exact ⟨fun hle => by omega, fun _ => ⟨u, he, hm.pos⟩⟩

/-! ### `READ_RAW` -/

/-- A raw copy that faults has written what the input and the room allowed (R148). -/
theorem rawLoop_raised_outPos {n : Nat} {s u : State} {k : FaultKind} (h : rawLoop n s = .raised k u) :
    u.outPos = s.outPos + min (s.inLen - s.inOff) (s.outCap - s.outPos) := by
  induction n generalizing s with
  | zero => cases h
  | succ n ih =>
    rw [rawLoop] at h
    split at h
    · cases h
      omega
    · split at h
      · cases h
        omega
      · rw [inRead, if_pos (by omega), Res.bind_ok, outWrite, if_pos (by omega), Res.bind_ok] at h
        have hrest := ih h
        dsimp only at hrest
        omega

/-- `READ_RAW` that lacks input or room faults by the shorter of the two, when that is used up (R148). -/
theorem readRaw_short {s : State} {n : Nat} (hc : s.CursorInv) (hw : s.out.wf = true) (hroom : s.outPos ≤ s.outCap)
    (hb : s.bitcnt % 8 = 0)
    (hshort : ¬ (n ≤ s.inLen - (s.inOff - s.bitcnt / 8) ∧ n ≤ s.outCap - s.outPos)) :
    ∃ u : State, readRaw n s = .raised (if s.inLen - (s.inOff - s.bitcnt / 8) ≤ s.outCap - s.outPos
        then .truncatedStream else .outputBufferExhausted) u ∧
      u.outPos = s.outPos + min (s.inLen - (s.inOff - s.bitcnt / 8)) (s.outCap - s.outPos) := by
  obtain ⟨u, o, i, p, he, -⟩ := rawLoop_fault (s := s.giveBack) (n := n) hw
    (Nat.le_trans (Nat.sub_le _ _) hc.within) hroom
    (by simp only [State.giveBack_inLen, State.giveBack_inOff, State.giveBack_outCap, State.giveBack_outPos]; omega)
  exact ⟨u, (if_pos hb).trans he, rawLoop_raised_outPos he⟩

/-- Settles O11: the raw copy has its input and its room, or faults in closed form; off a byte boundary it is refused. -/
theorem readRawCopiesOrFaults : Obligations.ReadRawCopiesOrFaults := by
  rintro s n a b hc hw hroom rfl rfl
  refine ⟨fun hb => if_neg hb, fun hb hi ho => ?_, fun hb hshort => readRaw_short hc hw hroom hb hshort⟩
  obtain ⟨o, he, hwo, hread⟩ := readRaw_room hb hw hi ho
  have hbehind := hc.behind
  exact ⟨_, he, rfl, by simp only [State.pos]; omega, hwo, hread⟩

end Sys2Proof.Machine
end

section
/-! The step where the decoder rejects (R104, R134, R173): no symbol falls outside its alphabet, and the element raises
the fault the rejection stands for. -/

namespace Sys2Proof.Machine

/-- The decoder's answer `d` rejects no symbol as outside its alphabet, and where it is another rejection the element
faults: with `InvalidSymbol` at an unfilled entry, with `k` where the stream ends too early. -/
structure State.Rejects (s : State) (d : Except Reject (Instr × Bits)) (k : FaultKind) : Prop where
  inAlphabet : d ≠ .error .outsideAlphabet
  unfilled   : d = .error .unfilled → element s = .next (s.raise .invalidSymbol)
  truncated  : d = .error .truncated → element s = .next (s.raise k)

theorem State.Rejects.of_ok {s : State} {k : FaultKind} (p : Instr × Bits) : s.Rejects (.ok p) k := ⟨nofun, nofun, nofun⟩

theorem element_of_fetch_raised {s u : State} {k : FaultKind} (h : fetch s = some (.raised k u)) :
    element s = .next (u.raise k) := by
  rw [element, h]

/-- A fetch that agrees with the decoder faults where the decoder rejects. -/
theorem Fetched.rejects {s : State} {r : Res Instr} {d : Except Reject (Instr × Bits)} (h : Fetched s r d)
    (hr : fetch s = some r) : s.Rejects d .truncatedStream := by
  rcases h with ⟨i, u, n, -, -, -, -, rfl⟩ | ⟨u, n, rfl, hm, rfl⟩ | ⟨u, n, rfl, hm, rfl⟩
  · exact .of_ok _
  · exact ⟨nofun, nofun, fun _ => hm.raise _ ▸ element_of_fetch_raised hr⟩
  · exact ⟨nofun, fun _ => hm.raise _ ▸ element_of_fetch_raised hr, nofun⟩

/-- A symbol of a built table faults where the decoder rejects it: its table holds symbols of the alphabet alone. -/
theorem rejects_of_symbol {s : State} {t : Table} {size : Nat} {extra : Nat → Nat} {mk : Nat → Nat → Option Instr}
    (hc : s.CursorInv) (ht : Table.BuiltFor t size) (hx : ∀ n, extra n ≤ 25)
    (hmk : ∀ {sym} x, sym < size → ∃ j, mk sym x = some j)
    (hr : fetch s = some ((decodeSym t s).bind fun sym u => (take (extra sym) { u with sym := sym }).bind fun x w =>
      orSymbolDomain (mk sym x) w)) :
    s.Rejects (takeSymbolInstr t extra mk s.remaining) .truncatedStream := by
  rcases symbol_decode hc ht.decodable hx (mk := mk) (upd := fun n u => { u with sym := n })
      (fun _ _ => ⟨rfl, rfl, rfl, rfl, rfl⟩) (fun _ _ _ _ _ => rfl) with
    ⟨e, j, x, u, n, -, -, -, -, -, -, -, hd⟩ | ⟨e, x, hlen, hnone⟩ | ⟨u, v, n, he, hm, hv, hd⟩ | ⟨u, n, he, hm, hd⟩
  · rw [hd]
    exact .of_ok _
  · obtain ⟨j, hj⟩ := hmk x (ht.sym_lt hlen)
    rw [hnone] at hj
    cases hj
  · rw [hd]
    have hraise : u.raise .truncatedStream = s.raise .truncatedStream := by
      rw [hm.raise]
      rcases hv with rfl | ⟨sym, rfl⟩
      · rfl
      · rfl
    exact ⟨nofun, nofun, fun _ => hraise ▸ element_of_fetch_raised (hr.trans (congrArg some he))⟩
  · rw [hd]
    exact ⟨nofun, fun _ => hm.raise _ ▸ element_of_fetch_raised (hr.trans (congrArg some he)), nofun⟩

/-- Once its symbol is read, an element of the alphabet can only lack extra bits. -/
theorem takeSymbolInstr_of_takeSymbol {t : Table} {extra : Nat → Nat} {mk : Nat → Nat → Option Instr} {bs rest : Bits}
    {sym : Nat} (hmk : ∀ x, ∃ j, mk sym x = some j) (h : takeSymbol t bs = .ok (sym, rest)) :
    (∃ p, takeSymbolInstr t extra mk bs = .ok p) ∨ takeSymbolInstr t extra mk bs = .error .truncated := by
  unfold takeSymbolInstr takeField
  rw [h]
  dsimp only
  by_cases hshort : rest.length < extra sym
  · exact .inr (by rw [if_pos hshort])
  · obtain ⟨j, hj⟩ := hmk (natOfBits (rest.take (extra sym)))
    exact .inl ⟨(j, rest.drop (extra sym)), by rw [if_neg hshort]; simp only [hj]⟩

/-- `CL.REP` with no previous length faults whether or not its extra bits are there (R239, R378). -/
theorem rejects_of_repeatsNothing {s : State} (hs : s.Inv) (hf : s.fsm = .dynamicBlockHeader)
    (hp : s.dynPhase = .symbols) (hrep : s.RepeatsNothing) :
    s.Rejects (decode (.clsym s.tCl) s.remaining) .invalidCodeLengths := by
  have ⟨_, rest, hsym⟩ := hrep
  obtain ⟨u, n, hm, hfetch⟩ := fetchCl_repeatsNothing (hs.running (State.busy_of_dynamicBlockHeader hf)).cursor
    (hs.tCl_builtFor hf hp).decodable hrep
  have hraised : fetch s = some (.raised .invalidCodeLengths { u with sym := 16 }) := by
    simp only [fetch, hf, hp, hfetch]
  have helement : element s = .next (s.raise .invalidCodeLengths) :=
    (element_of_fetch_raised hraised).trans (congrArg _ (hm.raise .invalidCodeLengths))
  have hd : (∃ p, decode (.clsym s.tCl) s.remaining = .ok p) ∨
      decode (.clsym s.tCl) s.remaining = .error .truncated :=
    takeSymbolInstr_of_takeSymbol (fun x => clInstr_isSome x (by decide)) hsym
  rcases hd with ⟨p, hd⟩ | hd <;> rw [hd]
  · exact .of_ok p
  · exact ⟨nofun, nofun, fun _ => helement⟩

/-- In every context but that of `CL.REP` with no previous length, a stream that ends too early is `TruncatedStream`. -/
theorem rejects_of_context {s : State} {c : Context} (hs : s.Inv) (hctx : s.context = some c)
    (hrep : ¬ (c = .clsym s.tCl ∧ s.RepeatsNothing)) : s.Rejects (decode c s.remaining) .truncatedStream := by
  have hcur : s.busy = true → s.CursorInv := fun hb => (hs.running hb).cursor
  unfold State.context at hctx
  split at hctx
  case h_1 hf =>
    cases hctx
    exact (fetchZhdr_decode (hcur (by rw [State.busy, hf]))).rejects (by rw [fetch, hf])
  case h_2 hf =>
    cases hctx
    exact (fetchBhdr_decode (hcur (by rw [State.busy, hf]))).rejects (by rw [fetch, hf])
  case h_3 hf =>
    cases hctx
    exact (fetchStored_decode (hcur (by rw [State.busy, hf]))).rejects (by rw [fetch, hf])
  case h_4 hf =>
    have hc := hcur (State.busy_of_dynamicBlockHeader hf)
    split at hctx
    case h_1 hp =>
      cases hctx
      exact (fetchDynhdr_decode hc).rejects (by simp only [fetch, hf, hp])
    case h_2 hp =>
      cases hctx
      exact (fetchCllen3_decode hc).rejects (by simp only [fetch, hf, hp])
    case h_3 hp =>
      cases hctx
      have ht := hs.tCl_builtFor hf hp
      exact rejects_of_symbol hc ht clExtra_le clInstr_isSome
        (by simp only [fetch, hf, hp, fetchCl_eq hc ht.decodable fun h => hrep ⟨rfl, h⟩])
  case h_5 hf =>
    cases hctx
    exact rejects_of_symbol (hcur (State.busy_of_symbolLoop hf)) (hs.active_builtFor hf).1 llExtra_le llInstr_isSome
      (by simp only [fetch, hf, fetchLl_eq])
  all_goals cases hctx

/-- Symbols of `T_CL` are decoded in one place alone (R104). -/
theorem State.of_context_clsym {s : State} {t : Table} (h : s.context = some (.clsym t)) :
    s.fsm = .dynamicBlockHeader ∧ s.dynPhase = .symbols := by
  unfold State.context at h
  split at h
  case h_4 hf =>
    split at h
    case h_3 hp => exact ⟨hf, hp⟩
    all_goals cases h
  all_goals cases h

/-- Settles O34: a quiet step runs an element, and the element faults as the decoder rejects, whether or not it stands at
`CL.REP` with no previous length. -/
theorem stepFaultsWhereTheDecoderRejects : Obligations.StepFaultsWhereTheDecoderRejects := by
  intro s c hs hquiet hctx
  obtain ⟨hrst, hstart⟩ := hquiet
  rw [step_eq_element hrst (.inl hstart)]
  by_cases hrep : c = .clsym s.tCl ∧ s.RepeatsNothing
  · obtain ⟨rfl, hnothing⟩ := hrep
    obtain ⟨hf, hp⟩ := State.of_context_clsym hctx
    obtain ⟨halphabet, hunfilled, htruncated⟩ := rejects_of_repeatsNothing hs hf hp hnothing
    exact ⟨halphabet, hunfilled, fun hd => ⟨fun _ => htruncated hd, fun hno => absurd ⟨rfl, hnothing⟩ hno⟩⟩
  · obtain ⟨halphabet, hunfilled, htruncated⟩ := rejects_of_context hs hctx hrep
    exact ⟨halphabet, hunfilled, fun hd => ⟨fun hyes => absurd hyes hrep, fun _ => htruncated hd⟩⟩

end Sys2Proof.Machine
end

section
/-! No stop in a good state (R133, R139, R146, R236, R264): every operation an element calls answers a state, as its
result or with a fault, so the step answers a next state. -/

namespace Sys2Proof.Machine

/-- The operation answers a state, as its result or with a fault of the stream: the model does not stop in it. -/
def Res.Answers {α : Type} : Res α → Prop
  | .ok _ _ => True
  | .raised _ _ => True
  | .fault _ => False
  | .refused _ => False

theorem Res.Answers.bind {α β : Type} {x : Res α} {f : α → State → Res β} (hx : x.Answers)
    (hf : ∀ a u, x = .ok a u → (f a u).Answers) : (x.bind f).Answers :=
  match x, hx, hf with
  | .ok a u, _, hf => hf a u rfl
  | .raised _ _, _, _ => trivial

theorem Res.Answers.finish {x : Res Unit} (hx : x.Answers) : ∃ t, x.finish = .next t :=
  match x, hx with
  | .ok _ u, _ => ⟨u, rfl⟩
  | .raised k u, _ => ⟨u.raise k, rfl⟩

/-! ### Fetching -/

theorem take_answers {s : State} (h : s.CursorInv) {n : Nat} (hn : n ≤ 25) : (take n s).Answers := by
  rcases take_spec h (State.peekable_of_le h hn) with ⟨-, u, he, -⟩ | ⟨-, u, he, -⟩ <;> rw [he] <;> trivial

theorem decodeSym_answers {s : State} (h : s.CursorInv) {t : Table} (ht : Table.Decodable t) :
    (decodeSym t s).Answers := by
  rcases decodeSym_spec h ht with ⟨-, -, u, he, -⟩ | ⟨-, u, he, -⟩ | ⟨-, -, u, he, -⟩ <;> rw [he] <;> trivial

theorem Fetched.answers {s : State} {r : Res Instr} {d : Except Reject (Instr × Bits)} (h : Fetched s r d) :
    r.Answers := by
  rcases h with ⟨i, u, n, rfl, -⟩ | ⟨u, n, rfl, -⟩ | ⟨u, n, rfl, -⟩ <;> trivial

/-- A symbol of a built table is one of its alphabet (R236, R264); `upd` records it. -/
theorem symbol_answers {s : State} {t : Table} {size : Nat} {extra : Nat → Nat} {mk : Nat → Nat → Option Instr}
    {upd : Nat → State → State} (hc : s.CursorInv) (ht : Table.BuiltFor t size) (hx : ∀ n, extra n ≤ 25)
    (hmk : ∀ {sym} x, sym < size → ∃ j, mk sym x = some j) (hupd : ∀ n u, u.CursorInv → (upd n u).CursorInv) :
    ((decodeSym t s).bind fun sym u => (take (extra sym) (upd sym u)).bind fun x w =>
      orSymbolDomain (mk sym x) w).Answers := by
  refine (decodeSym_answers hc ht.decodable).bind fun sym u hdec => ?_
  obtain ⟨i, rfl, hlen, hm⟩ := decodeSym_ok hc ht.decodable hdec
  refine (take_answers (hupd _ u hm.cursor) (hx _)).bind fun x w _ => ?_
  obtain ⟨j, hj⟩ := hmk x (ht.sym_lt hlen)
  rw [hj]
  trivial

theorem fetchCl_answers {s : State} (hs : s.Inv) (hf : s.fsm = .dynamicBlockHeader) (hp : s.dynPhase = .symbols) :
    (fetchCl s).Answers := by
  have hc := (hs.running (State.busy_of_dynamicBlockHeader hf)).cursor
  have ht := hs.tCl_builtFor hf hp
  by_cases hrep : s.RepeatsNothing
  · obtain ⟨u, n, -, he⟩ := fetchCl_repeatsNothing hc ht.decodable hrep
    rw [he]
    trivial
  · rw [fetchCl_eq hc ht.decodable hrep]
    exact symbol_answers (upd := fun n u => { u with sym := n }) hc ht clExtra_le clInstr_isSome
      fun _ _ hu => hu.congr rfl rfl rfl rfl rfl

theorem fetchLl_answers {s : State} (hs : s.Inv) (hf : s.fsm = .symbolLoop) : (fetchLl s).Answers :=
  symbol_answers (upd := fun n u => { u with sym := n }) (hs.running (State.busy_of_symbolLoop hf)).cursor
    (hs.active_builtFor hf).1 llExtra_le llInstr_isSome fun _ _ hu => hu.congr rfl rfl rfl rfl rfl

theorem fetchDist_answers {s : State} (hs : s.Inv) (hf : s.fsm = .symbolLoop) : (fetchDist s).Answers :=
  symbol_answers (upd := fun n u => { u with dsym := n }) (hs.running (State.busy_of_symbolLoop hf)).cursor
    (hs.active_builtFor hf).2 dExtra_le dInstr_isSome fun _ _ hu => hu.congr rfl rfl rfl rfl rfl

theorem fetch_answers {s : State} {r : Res Instr} (hs : s.Inv) (h : fetch s = some r) : r.Answers := by
  have hcur : s.busy = true → s.CursorInv := fun hb => (hs.running hb).cursor
  unfold fetch at h
  split at h
  case h_1 hf => cases h; exact (fetchZhdr_decode (hcur (by rw [State.busy, hf]))).answers
  case h_2 hf => cases h; exact (fetchBhdr_decode (hcur (by rw [State.busy, hf]))).answers
  case h_3 hf => cases h; exact (fetchStored_decode (hcur (by rw [State.busy, hf]))).answers
  case h_4 hf =>
    have hc := hcur (State.busy_of_dynamicBlockHeader hf)
    split at h
    case h_1 hp => cases h; exact (fetchDynhdr_decode hc).answers
    case h_2 hp => cases h; exact (fetchCllen3_decode hc).answers
    case h_3 hp => cases h; exact fetchCl_answers hs hf hp
  case h_5 hf => cases h; exact fetchLl_answers hs hf
  all_goals cases h

/-! ### What a fetch leaves alone -/

theorem Fetched.fsm {s u : State} {i : Instr} {d : Except Reject (Instr × Bits)} (h : Fetched s (.ok i u) d) :
    u.fsm = s.fsm := by
  rcases h with ⟨j, w, n, he, hm, -⟩ | ⟨w, n, he, -⟩ | ⟨w, n, he, -⟩ <;> cases he
  exact hm.fsm

theorem symbol_fsm {s w : State} (hc : s.CursorInv) {t : Table} (ht : Table.Decodable t) {extra : Nat → Nat}
    (hx : ∀ n, extra n ≤ 25) {mk : Nat → Nat → Option Instr} {j : Instr}
    (h : (decodeSym t s).bind (fun sym u => (take (extra sym) { u with sym := sym }).bind fun x w =>
      orSymbolDomain (mk sym x) w) = .ok j w) : w.fsm = s.fsm := by
  obtain ⟨i, x, u, n, m, -, -, -, hmu, hmw, -⟩ := symbol_ok (upd := fun n u => { u with sym := n }) hc ht hx
    (fun _ _ hu => ⟨hu.congr rfl rfl rfl rfl rfl, rfl⟩) h
  exact hmw.fsm.trans hmu.fsm

/-- A code-length symbol that is fetched passed the test of R239. -/
theorem symbol_of_fetchCl {s w : State} {j : Instr} (h : fetchCl s = .ok j w) :
    (decodeSym s.tCl s).bind (fun sym u => (take (clExtra sym) { u with sym := sym }).bind fun x w =>
      orSymbolDomain (clInstr sym x) w) = .ok j w := by
  obtain ⟨sym, u, hdec, hrest⟩ := Res.bind_eq_ok h
  dsimp only at hrest
  split at hrest
  · cases hrest
  · rw [hdec]
    exact hrest

theorem fetch_fsm {s u : State} {i : Instr} (hs : s.Inv) (h : fetch s = some (.ok i u)) : u.fsm = s.fsm := by
  have hcur : s.busy = true → s.CursorInv := fun hb => (hs.running hb).cursor
  unfold fetch at h
  split at h
  case h_1 hf => exact (Option.some.inj h ▸ fetchZhdr_decode (hcur (by rw [State.busy, hf]))).fsm
  case h_2 hf => exact (Option.some.inj h ▸ fetchBhdr_decode (hcur (by rw [State.busy, hf]))).fsm
  case h_3 hf => exact (Option.some.inj h ▸ fetchStored_decode (hcur (by rw [State.busy, hf]))).fsm
  case h_4 hf =>
    have hc := hcur (State.busy_of_dynamicBlockHeader hf)
    split at h
    case h_1 hp => exact (Option.some.inj h ▸ fetchDynhdr_decode hc).fsm
    case h_2 hp => exact (Option.some.inj h ▸ fetchCllen3_decode hc).fsm
    case h_3 hp =>
      exact symbol_fsm hc (hs.tCl_builtFor hf hp).decodable clExtra_le (symbol_of_fetchCl (Option.some.inj h))
  case h_5 hf =>
    exact symbol_fsm (hcur (State.busy_of_symbolLoop hf)) (hs.active_builtFor hf).1.decodable llExtra_le
      (Option.some.inj h)
  all_goals cases h

/-- A stored header ends at a byte boundary, so what is left in `ACC` is whole bytes (R143, R199). -/
theorem fetchStored_aligned {s u : State} {i : Instr} (hc : s.CursorInv) (h : fetchStored s = .ok i u) :
    u.bitcnt % 8 = 0 := by
  obtain ⟨he, hm⟩ := align_spec hc
  rw [fetchStored, he, Res.bind_ok] at h
  obtain ⟨a, b, -, -, -, hm'⟩ := two_fields_ok hm.cursor (by decide) (by decide) h
  have haligned := hc.align_pos
  have hpos := hm.pos
  have hpos' := hm'.pos
  have hsum := hm'.cursor.pos_add
  omega

/-! ### Writing `OUT` -/

theorem emit_answers (b : Byte) (s : State) : (emit b s).Answers := by
  rcases Nat.lt_or_ge s.outPos s.outCap with hroom | hfull
  · rw [emit_room b hroom]
    trivial
  · rw [emit_full b hfull]
    trivial

/-- From a byte boundary a raw copy ends, or faults as its closed form says (R148). -/
theorem readRaw_answers {s : State} (hs : s.Running) (hb : s.bitcnt % 8 = 0) (n : Nat) : (readRaw n s).Answers := by
  by_cases hfits : n ≤ s.inLen - (s.inOff - s.bitcnt / 8) ∧ n ≤ s.outCap - s.outPos
  · obtain ⟨hi, ho⟩ := hfits
    obtain ⟨o, he, -⟩ := readRaw_room hb hs.out_wf hi ho
    rw [he]
    trivial
  · obtain ⟨u, he, -⟩ := readRaw_short hs.cursor hs.out_wf hs.room hb hfits
    rw [he]
    trivial

theorem matchAt_answers {s : State} {m : Nat} (hs : s.Running) (h1 : 1 ≤ m) : ∃ t, matchAt m s = .next t := by
  rcases Nat.lt_or_ge s.outPos m with hfar | hback
  · exact ⟨_, matchAt_tooFar hfar⟩
  · rcases Nat.lt_or_ge s.outCap (s.outPos + s.mlen) with hfull | hroom
    · exact ⟨_, matchAt_full h1 hs.out_wf hback hs.room hfull⟩
    · obtain ⟨o, he, -⟩ := matchAt_ok h1 hs.out_wf hback hroom
      exact ⟨_, he⟩

/-! ### Tables and the end of a block -/

theorem buildTable_answers (lens : List Nat) (s : State) : (buildTable lens s).Answers := by
  rcases Nat.lt_or_ge (2 ^ 16) (kraft lens) with hover | hfits
  · rw [buildTable_refuses hover]
    trivial
  · rw [buildTable_accepts hfits]
    trivial

theorem endOfBlock_answers (s : State) : (endOfBlock s).Answers := by
  cases hf : s.bfinal with
  | true => rw [endOfBlock_final hf]; trivial
  | false => rw [endOfBlock_more hf]; trivial

theorem selectFixed_answers (s : State) : (selectFixed s).Answers := by
  refine Res.Answers.bind ?_ fun _ _ _ => trivial
  cases hv : s.staticValid with
  | true => rw [buildFixed_again hv]; trivial
  | false => rw [buildFixed_first hv]; trivial

theorem afterCllens_answers (s : State) : (afterCllens s).Answers :=
  (buildTable_answers _ s).bind fun _ _ _ => trivial

theorem afterLengths_answers (s : State) : (afterLengths s).Answers := by
  unfold afterLengths
  split
  · trivial
  · exact (buildTable_answers _ s).bind fun _ u _ => (buildTable_answers _ u).bind fun _ _ _ => trivial

theorem repeatLength_answers (v : BitVec 4) (r : Nat) (s : State) : (repeatLength v r s).Answers := by
  rcases Nat.lt_or_ge (s.hlit + s.hdist) (s.lidx + r) with hover | hfits
  · rw [repeatLength_overflows v hover]
    trivial
  · rw [repeatLength_fits v hfits]
    exact afterLengths_answers _

/-! ### Executing -/

theorem exec_bhdr_answers (bfinal btype : Nat) (s : State) : ∃ t, exec (bhdrInstr bfinal btype) s = .next t := by
  unfold bhdrInstr
  split
  · exact ⟨_, rfl⟩
  · exact (selectFixed_answers _).finish
  · exact ⟨_, rfl⟩
  · exact ⟨_, rfl⟩

theorem storedBody_answers {s : State} (hs : s.Running) (hb : s.bitcnt % 8 = 0) (len nlen : BitVec 16) :
    (storedBody len nlen s).Answers := by
  unfold storedBody
  dsimp only
  split
  · have hr : State.Running { s with len := len, nlen := nlen } := hs.with_flags
    exact (readRaw_answers hr hb _).bind fun _ u _ => endOfBlock_answers u
  · trivial

theorem execCllen3_answers (v : Nat) (s : State) : ∃ t, execCllen3 v s = .next t := by
  unfold execCllen3
  dsimp only
  split
  · exact ⟨_, rfl⟩
  · exact (afterCllens_answers _).finish

theorem exec_codeLength_answers {sym x : Nat} {i : Instr} (hi : clInstr sym x = some i) (s : State) :
    ∃ t, exec i s = .next t := by
  rcases clInstr_cases hi with ⟨-, rfl⟩ | ⟨-, rfl⟩ | ⟨-, rfl⟩ | ⟨-, rfl⟩
  · exact (afterLengths_answers _).finish
  · by_cases hz : s.lidx = 0
    · exact ⟨_, if_pos hz⟩
    · obtain ⟨t, he⟩ := (repeatLength_answers s.prevLen (3 + x) s).finish
      exact ⟨t, (if_neg hz).trans he⟩
  · exact (repeatLength_answers _ _ s).finish
  · exact (repeatLength_answers _ _ s).finish

theorem execDistance_answers {s : State} {d x : Nat} {j : Instr} (hs : s.Running) (hj : dInstr d x = some j) :
    ∃ t, execDistance j s = .next t := by
  rcases dInstr_cases hj with ⟨-, dist, hrow, -, -⟩ | ⟨-, rfl⟩ | ⟨-, rfl⟩
  · obtain ⟨-, he, h1⟩ := exec_distanceRow hrow s
    rw [he]
    exact matchAt_answers hs h1
  · exact ⟨_, rfl⟩
  · exact ⟨_, rfl⟩

/-- The second half of a pair: the distance symbol and the copy (R267). -/
theorem matchOf_answers {s : State} {len : Nat} (hs : s.Inv) (hf : s.fsm = .symbolLoop) (hlen : len < 512) :
    ∃ t, matchOf len s = .next t := by
  have hv := hs.with_symbols (State.busy_of_symbolLoop hf) hs.fits.sym hs.fits.dsym hlen
  have hanswers := fetchDist_answers hv hf
  unfold matchOf
  split
  · next j w hfetch =>
    obtain ⟨hw, hfw, d, x, hj, -⟩ := fetchDist_ok hv hf hfetch
    exact execDistance_answers (hw.running (State.busy_of_symbolLoop hfw)) hj
  · exact ⟨_, rfl⟩
  · next he => rw [he] at hanswers; exact hanswers.elim
  · next he => rw [he] at hanswers; exact hanswers.elim

theorem exec_symbol_answers {s : State} {sym x : Nat} {i : Instr} (hs : s.Inv) (hf : s.fsm = .symbolLoop)
    (hi : llInstr sym x = some i) (hx : x < 2 ^ llExtra sym) : ∃ t, exec i s = .next t := by
  rcases llInstr_cases hi with ⟨-, rfl⟩ | ⟨-, rfl⟩ | ⟨-, -, len, hrow, rfl, rfl⟩ | ⟨-, rfl⟩ | ⟨-, rfl⟩
  · exact (emit_answers _ s).finish
  · exact (endOfBlock_answers s).finish
  · rw [exec_lengthRow hrow]
    have hbound := lengthRow_bound hrow
    exact matchOf_answers hs hf (by unfold Row.value; omega)
  · exact ⟨_, rfl⟩
  · exact ⟨_, rfl⟩

/-- The element a good state awaits does not stop; before the payload of a stored block the cursor must stand at a byte
boundary (R146). -/
theorem exec_answers {s : State} {i : Instr} (hs : s.Inv) (hi : s.Awaits i)
    (hb : s.fsm = .storedBlock → s.bitcnt % 8 = 0) : ∃ t, exec i s = .next t := by
  cases hi with
  | zhdr hf cmf flg => simp only [zhdrInstr, exec, execZhdr]; split <;> exact ⟨_, rfl⟩
  | bhdr hf bfinal btype => exact exec_bhdr_answers bfinal btype s
  | stored hf len nlen => exact (storedBody_answers (hs.running (by rw [State.busy, hf])) (hb hf) _ _).finish
  | dynhdr hf hp hl hd hc => simp only [dynhdrInstr, exec, execDynhdr]; split <;> exact ⟨_, rfl⟩
  | cllen3 hf hp v => exact execCllen3_answers v s
  | codeLength hf hp hj hx => exact exec_codeLength_answers hj s
  | symbol hf hj hx => exact exec_symbol_answers hs hf hj hx

/-! ### The step -/

/-- A stored block's payload begins at a byte boundary (R199). -/
theorem fetch_aligned {s u : State} {i : Instr} (hs : s.Inv) (h : fetch s = some (.ok i u))
    (hu : u.fsm = .storedBlock) : u.bitcnt % 8 = 0 := by
  have hf : s.fsm = .storedBlock := (fetch_fsm hs h).symm.trans hu
  rw [fetch, hf] at h
  exact fetchStored_aligned (hs.running (by rw [State.busy, hf])).cursor (Option.some.inj h)

theorem element_answers {s : State} (hs : s.Inv) : ∃ t, element s = .next t := by
  unfold element
  split
  · next i u he =>
    obtain ⟨hu, hawaits, -⟩ := fetch_ok hs he
    exact exec_answers hu hawaits (fetch_aligned hs he)
  · exact ⟨_, rfl⟩
  · next he => exact (fetch_answers hs he).elim
  · next he => exact (fetch_answers hs he).elim
  · split
    · exact (selectFixed_answers s).finish
    · exact ⟨s, rfl⟩

/-- Settles O44: a reset always answers a state, a launch does as its arguments fit, and an element of a good state
does. -/
theorem goodStatesStep : Obligations.GoodStatesStep := by
  intro s hs hpremise
  rcases step_cases s with he | he | he <;> rw [he]
  · exact ⟨_, rfl⟩
  · exact ⟨_, if_pos hpremise⟩
  · exact element_answers hs

end Sys2Proof.Machine
end

section
/-! Canonical codes among all codes (R164, R165, R169 to R171): which codes a set of lengths has, what each table entry
holds, and how many entries no code reaches. -/

namespace Sys2Proof

open Machine (canonicalCode)

/-! ### Which symbols have a code, and where its words are -/

theorem hasCode_iff {lens : List Nat} (hle : ∀ l ∈ lens, l ≤ 16) {s l : Nat} :
    HasCode lens s l ↔ s < lens.length ∧ lens.getD s 0 = l ∧ l ≠ 0 := by
  constructor
  · rintro ⟨hs, hl, hpos, -⟩
    exact ⟨hs, hl, Nat.ne_of_gt hpos⟩
  · rintro ⟨hs, rfl, h0⟩
    exact ⟨hs, rfl, Nat.pos_of_ne_zero h0, hle _ (getD_mem_of_lt hs)⟩

/-- R169's form of a match: the low `l` bits of the index are the reversed code. -/
theorem matches_iff_mod_eq {lens : List Nat} {s l i : Nat} (hc : canonicalCode lens s < 2 ^ l) :
    Matches lens s l i ↔ i % 2 ^ l = revBits l (canonicalCode lens s) := by
  constructor
  · intro h
    rw [← h, revBits_revBits (Nat.mod_lt _ (Nat.two_pow_pos l))]
  · intro h
    rw [Matches, h, revBits_revBits hc]

/-- An index that a code matches is matched by a symbol whose code is the leading bits of that code. -/
theorem Matches.of_leadingBits {lens : List Nat} {a b l k i : Nat} (hlk : l ≤ k) (h : Matches lens b k i)
    (hp : canonicalCode lens b / 2 ^ (k - l) = canonicalCode lens a) : Matches lens a l i := by
  have hsplit := revBits_add l (k - l) (i % 2 ^ k)
  have hlow : i % 2 ^ k % 2 ^ l = i % 2 ^ l := Nat.mod_mod_of_dvd _ (Nat.pow_dvd_pow 2 hlk)
  rw [Nat.add_sub_cancel' hlk, hlow, h] at hsplit
  rw [Matches, ← hp, hsplit, Nat.add_comm, Nat.add_mul_div_right _ _ (Nat.two_pow_pos _),
    Nat.div_eq_of_lt (revBits_lt _ _), Nat.zero_add]

/-- No code begins with another (R164): the index that is the longer code reversed would match both. -/
theorem HasCode.leadingBits_ne {lens : List Nat} {a b l k : Nat} (hk : kraft lens ≤ 2 ^ 16) (ha : HasCode lens a l)
    (hb : HasCode lens b k) (hab : a ≠ b) (hlk : l ≤ k) :
    canonicalCode lens b / 2 ^ (k - l) ≠ canonicalCode lens a := by
  intro hp
  have hmatch : Matches lens b k (revBits k (canonicalCode lens b)) :=
    (matches_iff_mod_eq (hb.code_lt hk)).mpr (Nat.mod_eq_of_lt (revBits_lt _ _))
  exact hab (Matches.unique ha hb (hmatch.of_leadingBits hlk hp) hmatch)

/-- Settles O4: `BUILD` tests the sum of R164, and the words of two codes never meet. -/
theorem onlyOverSubscribedSetsAreRefused : Obligations.OnlyOverSubscribedSetsAreRefused := by
  intro lens s hle
  rw [← Machine.kraft_eq_kraftSum]
  refine ⟨fun hover => Machine.buildTable_refuses hover s, fun hk => ⟨⟨_, Machine.buildTable_accepts hk s⟩, ?_, ?_⟩⟩
  · intro sym hsym h0
    exact ((hasCode_iff hle).mpr ⟨hsym, rfl, h0⟩).code_lt hk
  · intro a b ha hb hab h0 hlk
    have hcode := (hasCode_iff hle).mpr ⟨ha, rfl, h0⟩
    exact hcode.leadingBits_ne hk ((hasCode_iff hle).mpr ⟨hb, rfl, by omega⟩) hab hlk

/-! ### What a table entry holds -/

theorem build_ent_length {lens : List Nat} {t : Table} (h : build lens = some t) : t.ent.length = 2 ^ t.m := by
  unfold build at h
  split at h
  · cases h
  · cases h
    simp

theorem build_len_ne_zero_iff {lens : List Nat} {t : Table} (h : build lens = some t) {i : Nat} (hi : i < 2 ^ t.m) :
    (t.entry i).len ≠ 0 ↔ ∃ s l, HasCode lens s l ∧ Matches lens s l i := by
  constructor
  · intro h0
    rcases build_entry_cases h i with he | hm
    · rw [he] at h0
      exact absurd rfl h0
    · exact ⟨_, _, hm⟩
  · rintro ⟨s, l, hs, hm⟩
    have h0 : l ≠ 0 := Nat.ne_of_gt hs.2.2.1
    rwa [(build_entry_iff h hi h0).mpr ⟨hs, hm⟩]

/-- Having a code that index `i` matches, in the terms of R169. -/
theorem hasCode_and_matches_iff {lens : List Nat} (hle : ∀ l ∈ lens, l ≤ 16) (hk : kraft lens ≤ 2 ^ 16)
    {s l i : Nat} : HasCode lens s l ∧ Matches lens s l i ↔
      s < lens.length ∧ lens.getD s 0 = l ∧ l ≠ 0 ∧ i % 2 ^ l = revBits l (canonicalCode lens s) := by
  have hiff : HasCode lens s l ∧ Matches lens s l i ↔
      HasCode lens s l ∧ i % 2 ^ l = revBits l (canonicalCode lens s) :=
    and_congr_right fun hs => matches_iff_mod_eq (hs.code_lt hk)
  rw [hiff, hasCode_iff hle, and_assoc, and_assoc]

/-- Settles O5: an entry is the one code that its index matches, and unfilled where there is none. -/
theorem builtEntriesAreTheCanonicalCodes : Obligations.BuiltEntriesAreTheCanonicalCodes := by
  intro lens t hle hb
  have hk := kraft_le_of_build hb
  refine ⟨build_ent_length hb, fun i hi => ⟨fun sym len h0 => ?_, ?_⟩⟩
  · rw [build_entry_iff hb hi h0, hasCode_and_matches_iff hle hk]
    simp only [ne_eq, h0, not_false_eq_true, true_and]
  · rw [← not_iff_not, not_not, ← ne_eq, build_len_ne_zero_iff hb hi]
    constructor
    · rintro ⟨s, l, hm⟩
      obtain ⟨hs, rfl, h⟩ := (hasCode_and_matches_iff hle hk).mp hm
      exact ⟨s, hs, h⟩
    · rintro ⟨s, hs, h⟩
      exact ⟨s, _, (hasCode_and_matches_iff hle hk).mpr ⟨hs, rfl, h⟩⟩

/-! ### How many entries no code reaches -/

theorem revBits_zero_right (n : Nat) : revBits n 0 = 0 := by
  induction n with
  | zero => rfl
  | succ n ih => rw [revBits, Nat.zero_mod, Nat.zero_mul, Nat.zero_div, ih]

/-- A table index is the first `m` bits of a code word. -/
theorem revBits_of_lt {m n i : Nat} (hm : m ≤ n) (hi : i < 2 ^ m) : revBits n i = revBits m i * 2 ^ (n - m) := by
  have hsplit := revBits_add m (n - m) i
  rwa [Nat.add_sub_cancel' hm, Nat.mod_eq_of_lt hi, Nat.div_eq_of_lt hi, revBits_zero_right, Nat.add_zero] at hsplit

/-- The words of the codes are exactly the words below the Kraft sum (R170). -/
theorem exists_matches_iff_lt_kraft {lens : List Nat} {i : Nat} :
    (∃ s l, HasCode lens s l ∧ Matches lens s l i) ↔ revBits 16 i < kraft lens := by
  constructor
  · rintro ⟨s, l, hs, hm⟩
    calc revBits 16 i
      _ < canonicalCode lens s * 2 ^ (16 - l) + 2 ^ (16 - l) := (hm.word hs.2.2.2).2
      _ ≤ kraftUpTo lens l := hs.bounds.2
      _ ≤ kraft lens := kraftUpTo_mono hs.2.2.2
  · intro hlt
    obtain ⟨s, l, hs, -, hw⟩ := exists_word (Nat.le_refl 16) hlt
    exact ⟨s, l, hs, Matches.of_word hs.2.2.2 hw⟩

theorem lenCount_eq_zero_of_maxLen_lt {lens : List Nat} {l : Nat} (h : maxLen lens < l) : lenCount lens l = 0 := by
  rw [lenCount, if_neg (Nat.ne_of_gt (Nat.zero_lt_of_lt h)), Machine.countEq_eq_count]
  exact List.count_eq_zero_of_not_mem fun hmem => Nat.not_le.mpr h (le_maxLen hmem)

/-- The Kraft sum counts whole table entries: no code is longer than the index. -/
theorem two_pow_dvd_kraft (lens : List Nat) : 2 ^ (16 - maxLen lens) ∣ kraft lens := by
  suffices ∀ n, 2 ^ (16 - maxLen lens) ∣ kraftUpTo lens n from this _
  intro n
  induction n with
  | zero => exact Nat.dvd_zero _
  | succ n ih =>
    rw [kraftUpTo, Config.maxBits]
    refine Nat.dvd_add ih ?_
    by_cases hn : n + 1 ≤ maxLen lens
    · exact Nat.dvd_mul_left_of_dvd (Nat.pow_dvd_pow 2 (by omega)) _
    · rw [lenCount_eq_zero_of_maxLen_lt (Nat.not_le.mp hn), Nat.zero_mul]
      exact Nat.dvd_zero _

/-- The filled entries are those whose reversed index lies below the Kraft sum, in units of one entry. -/
theorem build_len_eq_zero_iff {lens : List Nat} {t : Table} (h : build lens = some t) (hle : ∀ l ∈ lens, l ≤ 16)
    {i : Nat} (hi : i < 2 ^ t.m) : (t.entry i).len = 0 ↔ kraft lens / 2 ^ (16 - t.m) ≤ revBits t.m i := by
  have hm : t.m ≤ 16 := build_m h ▸ maxLen_le hle
  have hdvd : 2 ^ (16 - t.m) ∣ kraft lens := build_m h ▸ two_pow_dvd_kraft lens
  rw [← not_iff_not, ← ne_eq, build_len_ne_zero_iff h hi, exists_matches_iff_lt_kraft, revBits_of_lt hm hi, Nat.not_le,
    Nat.lt_div_iff_mul_lt' hdvd, Nat.mul_comm]

theorem eq_of_revBits_eq {m i j : Nat} (hi : i < 2 ^ m) (hj : j < 2 ^ m) (h : revBits m i = revBits m j) : i = j := by
  rw [← revBits_revBits hi, h, revBits_revBits hj]

/-- Reversing the indices of a table permutes them. -/
theorem map_revBits_range_perm (m : Nat) : ((List.range (2 ^ m)).map (revBits m)).Perm (List.range (2 ^ m)) := by
  have hnodup : ((List.range (2 ^ m)).map (revBits m)).Nodup :=
    List.nodup_range.map_on fun i hi j hj h => eq_of_revBits_eq (List.mem_range.mp hi) (List.mem_range.mp hj) h
  have hsub : (List.range (2 ^ m)).map (revBits m) ⊆ List.range (2 ^ m) := by
    intro x hx
    obtain ⟨i, -, rfl⟩ := List.mem_map.mp hx
    exact List.mem_range.mpr (revBits_lt m i)
  exact (List.subperm_of_subset hnodup hsub).perm_of_length_le (by simp)

theorem countP_le_range (q n : Nat) : (List.range n).countP (fun x => decide (q ≤ x)) = n - q := by
  induction n with
  | zero => simp
  | succ n ih =>
    rw [List.range_succ, List.countP_append, ih, List.countP_singleton]
    by_cases hq : q ≤ n
    · rw [if_pos (decide_eq_true hq)]
      omega
    · rw [if_neg (by simpa using hq)]
      omega

theorem countP_le_revBits (q m : Nat) :
    (List.range (2 ^ m)).countP (fun i => decide (q ≤ revBits m i)) = 2 ^ m - q := by
  calc (List.range (2 ^ m)).countP (fun i => decide (q ≤ revBits m i))
    _ = ((List.range (2 ^ m)).map (revBits m)).countP (fun x => decide (q ≤ x)) := by
      simp only [List.countP_map, Function.comp_def]
    _ = (List.range (2 ^ m)).countP (fun x => decide (q ≤ x)) := (map_revBits_range_perm m).countP_eq _
    _ = 2 ^ m - q := countP_le_range q _

/-- Settles O6: reversed, the unfilled entries are those from the Kraft sum on. -/
theorem unfilledEntriesAreCounted : Obligations.UnfilledEntriesAreCounted := by
  intro lens t hle hb
  rw [← Machine.kraft_eq_kraftSum]
  refine ⟨?_, fun hk i hi => build_complete hb hk hi⟩
  rw [← List.countP_eq_length_filter, ← countP_le_revBits]
  refine List.countP_congr fun i hi => ?_
  simpa only [decide_eq_true_eq] using build_len_eq_zero_iff hb hle (List.mem_range.mp hi)

end Sys2Proof
end

section
/-! `DECODE` with a built table (R173): a code stands next in the stream if and only if the look-ahead is an index that
the code matches. -/

namespace Sys2Proof.Machine

/-- A bit string is the code `c` if and only if its number, reversed, is (R166). -/
theorem eq_codeBits_iff {bs : Bits} {n c : Nat} (hn : bs.length = n) (hc : c < 2 ^ n) :
    bs = codeBits n c ↔ revBits n (natOfBits bs) = c := by
  subst hn
  constructor
  · intro h
    rw [congrArg natOfBits h, natOfBits_codeBits hc, revBits_revBits hc]
  · intro h
    have hback := bitsOfNat_natOfBits bs.reverse
    rw [natOfBits_reverse, h, List.length_reverse] at hback
    rw [codeBits, hback, List.reverse_reverse]

theorem State.matches_streamBits_iff (s : State) {lens : List Nat} {sym l m p : Nat}
    (hc : canonicalCode lens sym < 2 ^ l) (hl : l ≤ m) :
    Matches lens sym l (natOfBits (s.streamBits p m)) ↔ s.streamBits p l = codeBits l (canonicalCode lens sym) := by
  rw [eq_codeBits_iff (s.length_streamBits p l) hc, Matches, ← natOfBits_take, s.take_streamBits hl]

/-- Settles O12: the look-ahead indexes the entry of the one code that stands next, and an unfilled one where none
does. -/
theorem decodeFindsTheOneCode : Obligations.DecodeFindsTheOneCode := by
  intro s lens t hc hle hb
  have hidx : natOfBits (s.streamBits s.pos t.m) < 2 ^ t.m := (s.natOfBits_streamBits s.pos t.m).1
  have hstands : ∀ {sym l}, HasCode lens sym l → (Matches lens sym l (natOfBits (s.streamBits s.pos t.m)) ↔
      s.streamBits s.pos l = codeBits l (canonicalCode lens sym)) := fun hcode =>
    s.matches_streamBits_iff (hcode.code_lt (kraft_le_of_build hb)) (build_m hb ▸ hcode.le_maxLen)
  rcases decodeSym_spec hc (build_decodable hb hle) with ⟨hlong, hfilled, u, he, hu⟩ | ⟨hshort, u, he, hu⟩ |
    ⟨hlong, hunfilled, u, he, hu⟩
  · refine ⟨fun hshort => by omega, fun _ sym hsym h0 hbits => ?_, fun _ hnone => ?_⟩
    · have hcode := (hasCode_iff hle).mpr ⟨hsym, rfl, h0⟩
      rw [(build_entry_iff hb hidx h0).mpr ⟨hcode, (hstands hcode).mpr hbits⟩] at he hu
      exact ⟨u, he, hu⟩
    · obtain ⟨sym, l, hcode, hm⟩ := (build_len_ne_zero_iff hb hidx).mp hfilled
      obtain ⟨hsym, rfl, h0⟩ := (hasCode_iff hle).mp hcode
      exact absurd ((hstands hcode).mp hm) (hnone sym hsym h0)
  · exact ⟨fun _ => ⟨u, he, hu.pos⟩, fun hlong => by omega, fun hlong => by omega⟩
  · refine ⟨fun hshort => by omega, fun _ sym hsym h0 hbits => ?_, fun _ _ => ⟨u, he, hu.pos⟩⟩
    have hcode := (hasCode_iff hle).mpr ⟨hsym, rfl, h0⟩
    have hfilled := (build_len_ne_zero_iff hb hidx).mpr ⟨sym, _, hcode, (hstands hcode).mpr hbits⟩
    exact absurd hunfilled hfilled

end Sys2Proof.Machine
end

section
/-! The transitions of the dispatcher (R190, R191, R193): one lemma per operation says that, where it ends without a
fault, the dispatcher state and the final-block flag are those of before, from whatever state it is called in; the
elements of each dispatcher state then lead to its successors alone. -/

namespace Sys2Proof.Machine

/-! ### What an operation's result satisfies -/

/-- Where the operation ends without a fault, its value and the state after it satisfy `P`. -/
def Res.Ensures {α : Type} (P : α → State → Prop) : Res α → Prop
  | .ok a u => P a u
  | .raised _ _ => True
  | .fault _ => True
  | .refused _ => True

theorem Res.Ensures.bind {α β : Type} {P : α → State → Prop} {Q : β → State → Prop} {x : Res α}
    {f : α → State → Res β} (hx : x.Ensures P) (hf : ∀ a u, P a u → (f a u).Ensures Q) : (x.bind f).Ensures Q :=
  match x, hx with
  | .ok a u, hx => hf a u hx
  | .raised _ _, _ => trivial
  | .fault _, _ => trivial
  | .refused _, _ => trivial

/-- The dispatcher stands at `q`, in a block whose final-block flag is `f`: what its transitions turn on (R191, R193). -/
def State.At (q : Fsm) (f : Bool) (s : State) : Prop := s.fsm = q ∧ s.bfinal = f

/-- Where the operation ends without a fault, the dispatcher stands at `q` with the final-block flag `f`. -/
def Res.StaysAt {α : Type} (q : Fsm) (f : Bool) (x : Res α) : Prop := x.Ensures fun _ u => u.At q f

section
variable {q : Fsm} {f : Bool} {s : State}

/-! ### The bit cursor -/

theorem inRead_staysAt (h : s.At q f) (a : Nat) : (inRead a s).StaysAt q f := by
  unfold inRead
  split
  · exact h
  · trivial

theorem refill_staysAt (h : s.At q f) (fuel n : Nat) : (refill fuel n s).StaysAt q f := by
  induction fuel generalizing s with
  | zero => exact h
  | succ fuel ih =>
    unfold refill
    split
    · exact h
    · split
      · trivial
      · exact (inRead_staysAt h _).bind fun b u hu => ih (s := u.pushByte b) hu

theorem peek_staysAt (h : s.At q f) (n : Nat) : (peek n s).StaysAt q f := by
  unfold peek
  split
  · exact (refill_staysAt h 4 n).bind fun _ _ hu => hu
  · trivial

theorem discard_staysAt (h : s.At q f) (n : Nat) : (discard n s).StaysAt q f := by
  unfold discard
  split
  · exact h
  · trivial

theorem take_staysAt (h : s.At q f) (n : Nat) : (take n s).StaysAt q f :=
  (peek_staysAt h n).bind fun _ _ hu => (discard_staysAt hu n).bind fun _ _ hw => hw

theorem decodeSym_staysAt (h : s.At q f) (t : Table) : (decodeSym t s).StaysAt q f := by
  refine (peek_staysAt h t.m).bind fun i u hu => ?_
  split
  · trivial
  · exact (discard_staysAt hu _).bind fun _ _ hw => hw

/-! ### Writing `OUT` -/

theorem outWrite_staysAt (h : s.At q f) (a : Nat) (b : Byte) : (outWrite a b s).StaysAt q f := by
  unfold outWrite
  split
  · exact h
  · trivial

theorem emit_staysAt (h : s.At q f) (b : Byte) : (emit b s).StaysAt q f := by
  unfold emit
  split
  · trivial
  · exact (outWrite_staysAt h _ b).bind fun _ _ hu => hu

theorem rawLoop_staysAt (h : s.At q f) (n : Nat) : (rawLoop n s).StaysAt q f := by
  induction n generalizing s with
  | zero => exact h
  | succ n ih =>
    unfold rawLoop
    split
    · trivial
    · split
      · trivial
      · refine (inRead_staysAt h _).bind fun b u hu => (outWrite_staysAt hu _ b).bind fun _ w hw => ?_
        exact ih (s := { w with inOff := w.inOff + 1, outPos := w.outPos + 1 }) hw

theorem readRaw_staysAt (h : s.At q f) (n : Nat) : (readRaw n s).StaysAt q f := by
  unfold readRaw
  split
  · exact rawLoop_staysAt (s := s.giveBack) h n
  · trivial

theorem outRead_staysAt (h : s.At q f) (a : Nat) : (outRead a s).StaysAt q f := by
  unfold outRead
  split
  · exact h
  · trivial

theorem copyLoop_staysAt (h : s.At q f) (n dist : Nat) : (copyLoop n dist s).StaysAt q f := by
  induction n generalizing s with
  | zero => exact h
  | succ n ih =>
    unfold copyLoop
    split
    · trivial
    · refine (outRead_staysAt h _).bind fun b u hu => (outWrite_staysAt hu _ b).bind fun _ w hw => ?_
      exact ih (s := { w with outPos := w.outPos + 1 }) hw

theorem copy_staysAt (h : s.At q f) (len dist : Nat) : (copy len dist s).StaysAt q f := by
  unfold copy
  split
  · trivial
  · exact copyLoop_staysAt h len dist

theorem buildTable_staysAt (h : s.At q f) (lens : List Nat) : (buildTable lens s).StaysAt q f := by
  unfold buildTable
  split
  · trivial
  · exact h

end

/-! ### The transition table -/

/-- `q'` is a successor of `q` (R191), and follows a block as its final-block flag `f` says (R193). -/
def Fsm.Leads (q : Fsm) (f : Bool) (q' : Fsm) : Prop :=
  q' ∈ q.successors ∧
    (q = .storedBlock ∨ q = .symbolLoop → (q' = .done → f = true) ∧ (q' = .awaitingBlockHeader → f = false))

/-- A successor that does not stand behind a block. -/
theorem Fsm.Leads.within {q q' : Fsm} (f : Bool) (h : q' ∈ q.successors) (hd : q' ≠ .done)
    (ha : q' ≠ .awaitingBlockHeader) : q.Leads f q' :=
  ⟨h, fun _ => ⟨fun h => absurd h hd, fun h => absurd h ha⟩⟩

/-- A successor of a state that holds no block's data. -/
theorem Fsm.Leads.outside {q q' : Fsm} (f : Bool) (h : q' ∈ q.successors) (hs : q ≠ .storedBlock)
    (hl : q ≠ .symbolLoop) : q.Leads f q' :=
  ⟨h, fun hq => absurd hq (not_or.mpr ⟨hs, hl⟩)⟩

theorem Fsm.Leads.failed {q : Fsm} (f : Bool) (h : .failed ∈ q.successors) : q.Leads f .failed :=
  .within f h nofun nofun

/-- The element takes the dispatcher from `q` to a state it leads to. -/
def LeadsFrom (q : Fsm) (f : Bool) : Host.Outcome State Fault Refusal → Prop
  | .next t => q.Leads f t.fsm
  | .fault _ => True
  | .refused _ => True

theorem LeadsFrom.raise {q : Fsm} (f : Bool) (h : .failed ∈ q.successors) (k : FaultKind) (s : State) :
    LeadsFrom q f (.next (s.raise k)) := .failed f h

theorem Res.Ensures.leadsFrom {q : Fsm} {f : Bool} {x : Res Unit} (h : .failed ∈ q.successors)
    (hx : x.Ensures fun _ u => q.Leads f u.fsm) : LeadsFrom q f x.finish :=
  match x, hx with
  | .ok _ _, hx => hx
  | .raised k s, _ => .raise f h k s
  | .fault _, _ => trivial
  | .refused _, _ => trivial

/-! ### The end of a block -/

theorem endOfBlock_leads {q : Fsm} {s : State} (hq : q = .storedBlock ∨ q = .symbolLoop) :
    (endOfBlock s).Ensures fun _ u => q.Leads s.bfinal u.fsm := by
  have hmem : .done ∈ q.successors ∧ .awaitingBlockHeader ∈ q.successors := by
    rcases hq with rfl | rfl <;> decide
  cases hf : s.bfinal with
  | true =>
    rw [endOfBlock_final hf]
    exact ⟨hmem.1, fun _ => ⟨fun _ => rfl, nofun⟩⟩
  | false =>
    rw [endOfBlock_more hf]
    exact ⟨hmem.2, fun _ => ⟨nofun, fun _ => rfl⟩⟩

theorem endOfBlock_leads_of_at {q : Fsm} {f : Bool} {s : State} (hs : s.At q f)
    (hq : q = .storedBlock ∨ q = .symbolLoop) : (endOfBlock s).Ensures fun _ u => q.Leads f u.fsm :=
  hs.2 ▸ endOfBlock_leads hq

/-! ### Headers and stored blocks -/

theorem selectFixed_first {s : State} (h : s.staticValid = false) : selectFixed s = .ok () { s with
    tLlFixed := fixedLLTable, tDFixed := fixedDTable, staticValid := true, sel := false, fsm := .symbolLoop } := by
  rw [selectFixed, buildFixed_first h, Res.bind_ok]

theorem selectFixed_again {s : State} (h : s.staticValid = true) :
    selectFixed s = .ok () { s with sel := false, fsm := .symbolLoop } := by
  rw [selectFixed, buildFixed_again h, Res.bind_ok]

/-- Selecting the fixed tables cannot fault, and the symbol loop comes next (R205). -/
theorem selectFixed_finish (s : State) : ∃ t, (selectFixed s).finish = .next t ∧ t.fsm = .symbolLoop := by
  cases h : s.staticValid with
  | true => rw [selectFixed_again h]; exact ⟨_, rfl, rfl⟩
  | false => rw [selectFixed_first h]; exact ⟨_, rfl, rfl⟩

theorem exec_zhdr_leads (f : Bool) (cmf flg : Byte) (s : State) : LeadsFrom .zlibHeader f (exec (.zhdr cmf flg) s) := by
  simp only [exec, execZhdr]
  split
  · exact .outside f (q' := .awaitingBlockHeader) (by decide) nofun nofun
  · exact .raise f (by decide) _ _

theorem exec_bhdr_leads (f : Bool) (bfinal btype : Nat) (s : State) :
    LeadsFrom .awaitingBlockHeader f (exec (bhdrInstr bfinal btype) s) := by
  unfold bhdrInstr
  split
  · exact .outside f (q' := .storedBlock) (by decide) nofun nofun
  · obtain ⟨t, he, ht⟩ := selectFixed_finish { s.withHeader (bfinal == 1) 1 with fsm := .staticBlock }
    rw [exec, execBhdrFixed, he]
    exact .outside f (by rw [ht]; decide) nofun nofun
  · exact .outside f (q' := .dynamicBlockHeader) (by decide) nofun nofun
  · exact .raise f (by decide) _ _

theorem exec_stored_leads {f : Bool} {s : State} (hs : s.At .storedBlock f) (len nlen : BitVec 16) :
    LeadsFrom .storedBlock f (exec (.stored len nlen) s) := by
  refine Res.Ensures.leadsFrom (by decide) ?_
  unfold storedBody
  dsimp only
  split
  · exact (readRaw_staysAt (s := { s with len := len, nlen := nlen }) hs _).bind fun _ u hu =>
      endOfBlock_leads_of_at hu (.inl rfl)
  · trivial

/-! ### The header of a dynamic block -/

/-- The header of a dynamic block goes on (R191). -/
theorem State.At.headerLeads {f : Bool} {s : State} (hs : s.At .dynamicBlockHeader f) :
    Fsm.Leads .dynamicBlockHeader f s.fsm := .outside f (by rw [hs.1]; decide) nofun nofun

theorem exec_dynhdr_leads {f : Bool} {s : State} (hs : s.At .dynamicBlockHeader f) (hlit hdist hclen : Nat) :
    LeadsFrom .dynamicBlockHeader f (exec (.dynhdr hlit hdist hclen) s) := by
  simp only [exec, execDynhdr]
  split
  · exact .raise f (by decide) _ _
  · exact hs.headerLeads

theorem afterCllens_leads {f : Bool} {s : State} (hs : s.At .dynamicBlockHeader f) :
    (afterCllens s).Ensures fun _ u => Fsm.Leads .dynamicBlockHeader f u.fsm :=
  (buildTable_staysAt hs _).bind fun _ _ hu => hu.headerLeads

theorem exec_cllen3_leads {f : Bool} {s : State} (hs : s.At .dynamicBlockHeader f) (v : Nat) :
    LeadsFrom .dynamicBlockHeader f (exec (.cllen3 v) s) := by
  simp only [exec, execCllen3]
  split
  · exact hs.headerLeads
  · exact Res.Ensures.leadsFrom (by decide) (afterCllens_leads hs)

theorem afterLengths_leads {f : Bool} {s : State} (hs : s.At .dynamicBlockHeader f) :
    (afterLengths s).Ensures fun _ u => Fsm.Leads .dynamicBlockHeader f u.fsm := by
  unfold afterLengths
  split
  · exact hs.headerLeads
  · exact (buildTable_staysAt hs _).bind fun _ _ hu => (buildTable_staysAt hu _).bind fun _ _ _ =>
      .outside f (q' := .symbolLoop) (by decide) nofun nofun

theorem repeatLength_leads {f : Bool} {s : State} (hs : s.At .dynamicBlockHeader f) (v : BitVec 4) (r : Nat) :
    LeadsFrom .dynamicBlockHeader f (repeatLength v r s).finish := by
  refine Res.Ensures.leadsFrom (by decide) ?_
  rcases Nat.lt_or_ge (s.hlit + s.hdist) (s.lidx + r) with hover | hfits
  · rw [repeatLength_overflows v hover]
    trivial
  · rw [repeatLength_fits v hfits]
    exact afterLengths_leads hs

theorem exec_codeLength_leads {f : Bool} {s : State} {sym x : Nat} {i : Instr} (hs : s.At .dynamicBlockHeader f)
    (hi : clInstr sym x = some i) : LeadsFrom .dynamicBlockHeader f (exec i s) := by
  rcases clInstr_cases hi with ⟨-, rfl⟩ | ⟨-, rfl⟩ | ⟨-, rfl⟩ | ⟨-, rfl⟩
  · exact Res.Ensures.leadsFrom (by decide) (afterLengths_leads hs)
  · simp only [exec, execClRep]
    split
    · exact .raise f (by decide) _ s
    · exact repeatLength_leads hs _ _
  · exact repeatLength_leads hs _ _
  · exact repeatLength_leads hs _ _

/-! ### The symbol loop -/

/-- An operation that stays in the symbol loop leads on in it (R191). -/
theorem Res.StaysAt.loopLeads {f : Bool} {x : Res Unit} (hx : x.StaysAt .symbolLoop f) :
    LeadsFrom .symbolLoop f x.finish :=
  match x, hx with
  | .ok _ _, hu => .within f (by rw [hu.1]; decide) (by rw [hu.1]; nofun) (by rw [hu.1]; nofun)
  | .raised k s, _ => .raise f (by decide) k s
  | .fault _, _ => trivial
  | .refused _, _ => trivial

theorem orSymbolDomain_ensures {P : Instr → State → Prop} {o : Option Instr} {s : State}
    (h : ∀ i, o = some i → P i s) : (orSymbolDomain o s).Ensures P :=
  match o, h with
  | some i, h => h i rfl
  | none, _ => trivial

theorem execDistance_leads {f : Bool} {s : State} {d x : Nat} {j : Instr} (hs : s.At .symbolLoop f)
    (hj : dInstr d x = some j) : LeadsFrom .symbolLoop f (execDistance j s) := by
  rcases dInstr_cases hj with ⟨-, dist, hrow, -, -⟩ | ⟨-, rfl⟩ | ⟨-, rfl⟩
  · rw [(exec_distanceRow hrow s).2.1]
    exact (copy_staysAt (s := { s with mdist := dist.value }) hs _ _).loopLeads
  · exact .raise f (by decide) _ s
  · exact .raise f (by decide) _ s

theorem fetchDist_leads {f : Bool} {s : State} (hs : s.At .symbolLoop f) :
    (fetchDist s).Ensures fun j u => LeadsFrom .symbolLoop f (execDistance j u) :=
  (decodeSym_staysAt hs _).bind fun d u hu => (take_staysAt (s := { u with dsym := d }) hu _).bind fun _ _ hw =>
    orSymbolDomain_ensures fun _ hj => execDistance_leads hw hj

theorem matchOf_leads {f : Bool} {s : State} (hs : s.At .symbolLoop f) (len : Nat) :
    LeadsFrom .symbolLoop f (matchOf len s) := by
  have hdist := fetchDist_leads (s := { s with mlen := len }) hs
  unfold matchOf
  split
  · next he => rw [he] at hdist; exact hdist
  · exact .raise f (by decide) _ _
  · trivial
  · trivial

theorem exec_symbol_leads {f : Bool} {s : State} {sym x : Nat} {i : Instr} (hs : s.At .symbolLoop f)
    (hi : llInstr sym x = some i) : LeadsFrom .symbolLoop f (exec i s) := by
  rcases llInstr_cases hi with ⟨-, rfl⟩ | ⟨-, rfl⟩ | ⟨-, -, len, hrow, -, -⟩ | ⟨-, rfl⟩ | ⟨-, rfl⟩
  · exact (emit_staysAt hs _).loopLeads
  · exact (endOfBlock_leads_of_at hs (.inr rfl)).leadsFrom (by decide)
  · rw [exec_lengthRow hrow]
    exact matchOf_leads hs _
  · exact .raise f (by decide) _ s
  · exact .raise f (by decide) _ s

/-! ### The step -/

/-- What the dispatcher fetches leads, executed, from the state it is fetched in to that state's successors. -/
theorem fetch_leads {s : State} {r : Res Instr} (h : fetch s = some r) :
    r.Ensures fun i u => LeadsFrom s.fsm s.bfinal (exec i u) := by
  unfold fetch at h
  split at h
  case h_1 hf =>
    cases h
    rw [hf]
    exact (take_staysAt ⟨rfl, rfl⟩ 8).bind fun _ _ hu => (take_staysAt hu 8).bind fun _ w _ => exec_zhdr_leads _ _ _ w
  case h_2 hf =>
    cases h
    rw [hf]
    exact (take_staysAt ⟨rfl, rfl⟩ 1).bind fun _ _ hu => (take_staysAt hu 2).bind fun _ w _ => exec_bhdr_leads _ _ _ w
  case h_3 hf =>
    cases h
    rw [hf]
    exact (discard_staysAt ⟨hf, rfl⟩ _).bind fun _ _ ht => (take_staysAt ht 16).bind fun _ _ hu =>
      (take_staysAt hu 16).bind fun _ _ hw => exec_stored_leads hw _ _
  case h_4 hf =>
    rw [hf]
    split at h
    case h_1 =>
      cases h
      exact (take_staysAt ⟨hf, rfl⟩ 5).bind fun _ _ ht => (take_staysAt ht 5).bind fun _ _ hu =>
        (take_staysAt hu 4).bind fun _ _ hw => exec_dynhdr_leads hw _ _ _
    case h_2 =>
      cases h
      exact (take_staysAt ⟨hf, rfl⟩ 3).bind fun _ _ hu => exec_cllen3_leads hu _
    case h_3 =>
      cases h
      refine (decodeSym_staysAt ⟨hf, rfl⟩ _).bind fun sym u hu => ?_
      dsimp only
      split
      · trivial
      · exact (take_staysAt (s := { u with sym := sym }) hu _).bind fun _ _ hw =>
          orSymbolDomain_ensures fun _ hi => exec_codeLength_leads hw hi
  case h_5 hf =>
    cases h
    rw [hf]
    exact (decodeSym_staysAt ⟨hf, rfl⟩ _).bind fun sym u hu => (take_staysAt (s := { u with sym := sym }) hu _).bind
      fun _ _ hw => orSymbolDomain_ensures fun _ hi => exec_symbol_leads hw hi
  all_goals cases h

/-- Every state of a run but `StaticBlock` can fail (R191). -/
theorem State.failed_mem_successors {s : State} (hb : s.busy = true) (hstatic : s.fsm ≠ .staticBlock) :
    .failed ∈ s.fsm.successors := by
  unfold State.busy at hb
  cases hq : s.fsm <;> simp only [hq, reduceCtorEq] at hb
  case staticBlock => exact absurd hq hstatic
  all_goals decide

/-- An element takes the dispatcher to a state the transition table lists, from whatever state it runs in. -/
theorem element_leads {s t : State} (h : element s = .next t) : s.fsm.Leads s.bfinal t.fsm := by
  cases hb : s.busy with
  | false =>
    rw [element_of_not_busy hb] at h
    cases h
    unfold State.busy at hb
    cases hf : s.fsm <;> simp only [hf, reduceCtorEq] at hb <;> exact .outside _ (by decide) nofun nofun
  | true =>
    by_cases hstatic : s.fsm = .staticBlock
    · obtain ⟨u, he, hu⟩ := selectFixed_finish s
      rw [element_staticBlock hstatic, he] at h
      cases h
      rw [hstatic, hu]
      exact .outside _ (by decide) nofun nofun
    · by_cases hf : t.fsm = .failed
      · rw [hf]
        exact .failed _ (State.failed_mem_successors hb hstatic)
      · obtain ⟨i, u, hfetch, hexec⟩ := element_fetches hb hstatic h hf
        have hleads : LeadsFrom s.fsm s.bfinal (exec i u) := fetch_leads hfetch
        rw [hexec] at hleads
        exact hleads

/-- Settles O50: a reset leads to `Idle`, a launch to the header its `ZLIB` calls for, and an element to a successor. -/
theorem dispatcherFollowsTheGrammar : Obligations.DispatcherFollowsTheGrammar := by
  intro s t h
  refine ⟨fun hrst => ?_, fun hrst hstart hbusy => ?_, fun hrst hrun => ?_⟩
  · rw [step_eq_rst hrst] at h
    cases h
    exact s.rst_fsm
  · rw [step_eq_launch hrst hstart hbusy] at h
    obtain ⟨-, rfl⟩ := State.launch_eq_next h
    exact s.launched_fsm
  · rw [step_eq_element hrst hrun] at h
    exact element_leads h

end Sys2Proof.Machine
end

section
/-! The elements that head a block, and the faults of a stored block (R195, R196, R198, R201, R205 to R207). -/

namespace Sys2Proof.Machine

/-! ### The zlib header -/

/-- The header test is the four tests of R196. -/
theorem zValid_iff (cmf flg : Byte) : zValid cmf flg = true ↔
    (256 * cmf.toNat + flg.toNat) % 31 = 0 ∧ flg.getLsbD 5 = false ∧ cmf.toNat % 16 = 8 ∧ cmf.toNat / 16 ≤ 7 := by
  simp only [zValid, Bool.and_eq_true, decide_eq_true_eq, Bool.not_eq_true', and_assoc]

/-- Settles O15: the header test decides, and a fault forgets the recorded bytes. -/
theorem zlibHeaderIsTested : Obligations.ZlibHeaderIsTested := by
  intro cmf flg s
  rw [← zValid_iff]
  exact ⟨fun hvalid => if_pos hvalid, fun hinvalid => if_neg hinvalid⟩

/-! ### Block headers -/

/-- Settles O16: each of the two headers is one update of the state. -/
theorem blockHeadersSelectTheBody : Obligations.BlockHeadersSelectTheBody := fun _ _ => ⟨rfl, rfl⟩

/-- Settles O18: a fault forgets the recorded header. -/
theorem reservedBlockTypeFaults : Obligations.ReservedBlockTypeFaults := fun _ _ => rfl

/-- A table whose code lengths fill the code space has no unfilled entry (R171). -/
theorem build_shape {lens : List Nat} {t : Table} {m : Nat} (h : build lens = some t) (hm : maxLen lens = m)
    (hk : kraft lens = 2 ^ 16) : t.m = m ∧ t.ent.length = 2 ^ m ∧ ∀ i, i < 2 ^ m → (t.entry i).len ≠ 0 := by
  have htm : t.m = m := (build_m h).trans hm
  exact ⟨htm, htm ▸ build_ent_length h, fun i hi => build_complete h hk (htm.symm ▸ hi)⟩

/-- Settles O17: a static header selects the fixed tables, and their code lengths fill the code space. -/
theorem staticHeaderSelectsTheFixedTables : Obligations.StaticHeaderSelectsTheFixedTables := by
  intro f s
  refine ⟨fun hvalid => ?_, fun hfirst => ?_⟩
  · have hselect := selectFixed_again (s := { s.withHeader f 1 with fsm := .staticBlock }) hvalid
    rw [exec, execBhdrFixed, hselect]
    rfl
  · have hselect := selectFixed_first (s := { s.withHeader f 1 with fsm := .staticBlock }) hfirst
    obtain ⟨hllm, hllsize, hllfull⟩ := build_shape (m := 9) build_fixedLLLens (by decide +kernel) kraft_fixedLLLens
    obtain ⟨hdm, hdsize, hdfull⟩ := build_shape (m := 5) build_fixedDLens (by decide) kraft_fixedDLens
    refine ⟨_, _, build_fixedLLLens, build_fixedDLens, hllm, hllsize, hllfull, hdm, hdsize, hdfull, ?_⟩
    rw [exec, execBhdrFixed, hselect]
    rfl

/-! ### The faults of a stored block -/

/-- The two forms of the complement test (R201). -/
theorem lenMatches_iff_xor (len nlen : BitVec 16) : lenMatches len nlen = true ↔ len ^^^ nlen = 0xFFFF := by
  rw [lenMatches, beq_iff_eq, ← BitVec.xor_left_inj nlen, ← BitVec.allOnes_xor, BitVec.xor_assoc, BitVec.xor_self,
    BitVec.xor_zero]
  rfl

/-- A raw copy that lacks input or room faults as if nothing had been copied (R148, R376). -/
theorem readRaw_short_raise {s : State} {n : Nat} (hc : s.CursorInv) (hw : s.out.wf = true) (hroom : s.outPos ≤ s.outCap)
    (hb : s.bitcnt % 8 = 0)
    (hshort : ¬ (n ≤ s.inLen - (s.inOff - s.bitcnt / 8) ∧ n ≤ s.outCap - s.outPos)) :
    ∃ u, readRaw n s = .raised (if s.inLen - (s.inOff - s.bitcnt / 8) ≤ s.outCap - s.outPos
        then .truncatedStream else .outputBufferExhausted) u ∧ ∀ k, u.raise k = s.raise k := by
  obtain ⟨u, o, i, p, he, hu, hwo, hread⟩ := rawLoop_fault (s := s.giveBack) (n := n) hw
    (Nat.le_trans (Nat.sub_le _ _) hc.within) hroom
    (by simp only [State.giveBack_inLen, State.giveBack_inOff, State.giveBack_outCap, State.giveBack_outPos]; omega)
  exact ⟨u, (if_pos hb).trans he, fun k => State.raise_congr k hu hw hwo hread⟩

/-- Settles O20: the complement is tested first, and a fault of the raw copy forgets what was copied. -/
theorem storedBlockFaultsInOrder : Obligations.StoredBlockFaultsInOrder := by
  intro len nlen s
  refine ⟨by rw [← lenMatches_iff, lenMatches_iff_xor], fun hsum => ?_, ?_⟩
  · have hno : ¬ lenMatches len nlen = true := fun hm => hsum ((lenMatches_iff len nlen).mp hm)
    exact congrArg Res.finish (if_neg hno)
  · rintro hsum hc hb hw hroom a b rfl rfl hshort
    obtain ⟨u, he, hraise⟩ := readRaw_short_raise (s := { s with len := len, nlen := nlen }) (n := len.toNat)
      (hc.congr rfl rfl rfl rfl rfl) hw hroom hb hshort
    have hbody := storedBody_matches ((lenMatches_iff len nlen).mpr hsum) s
    rw [he, Res.bind_raised] at hbody
    exact (congrArg Res.finish hbody).trans (congrArg Host.Outcome.next (hraise _))

end Sys2Proof.Machine
end

section
/-! The header of a dynamic block: its counts, its code-length code and its code lengths (R231 to R244). -/

namespace Sys2Proof.Machine

/-! ### Building a table from a header's lengths (R164) -/

/-- A set of lengths that is not over-subscribed builds its table, in every state. -/
theorem exists_buildTable_ok {lens : List Nat} (h : kraftSum lens ≤ 2 ^ 16) :
    ∃ t, build lens = some t ∧ ∀ s, buildTable lens s = .ok t s := by
  rw [← kraft_eq_kraftSum] at h
  exact ⟨_, build_of_kraft h, buildTable_accepts h⟩

theorem buildTable_overSubscribed {lens : List Nat} (h : 2 ^ 16 < kraftSum lens) (s : State) :
    buildTable lens s = .raised .invalidCodeLengths s :=
  buildTable_refuses (kraft_eq_kraftSum lens ▸ h) s

/-! ### The counts and the code-length code -/

/-- Settles O21: the two range tests decide, and a fault forgets the recorded counts. -/
theorem countsAreRangeChecked : Obligations.CountsAreRangeChecked := by
  intro hlit hdist hclen s
  refine ⟨fun hl hd => if_neg ?_, fun hout => if_pos hout⟩
  exact not_or.mpr ⟨Nat.not_lt.mpr hl, Nat.not_lt.mpr hd⟩

/-- The model's table of the swizzled order is the order of R232. -/
theorem getElem?_swizzle_eq_some_iff {i k : Nat} (hi : i < 19) : swizzle[i]? = some k ↔ clorder i = k := by
  rw [show clorder i = swizzle.getD i 19 from rfl, List.getD_eq_getElem?_getD, List.getElem?_eq_getElem hi,
    Option.some_inj, Option.getD_some]

/-- `CLLEN` after `CLLEN3(v)`: the entry the swizzled order names for the index holds `v` (R233). -/
def State.cllenWith (s : State) (v : Nat) : Vector (BitVec 3) 19 :=
  s.cllen.setIfInBounds (clorder s.clIdx) (BitVec.ofNat 3 v)

theorem State.swizzled_cllenWith {s : State} (hi : s.clIdx < 19) (v : Nat) : s.Swizzled v (s.cllenWith v) := by
  intro k hk
  simp only [getElem?_swizzle_eq_some_iff hi]
  simp [State.cllenWith, Vector.getD, hk, Array.getElem_setIfInBounds]

theorem exec_cllen3_more {s : State} (h : s.clIdx + 1 < s.hclen) (v : Nat) :
    exec (.cllen3 v) s = .next { s with cllen := s.cllenWith v, clIdx := s.clIdx + 1 } := if_pos h

theorem exec_cllen3_last {s : State} (h : s.hclen ≤ s.clIdx + 1) (v : Nat) :
    exec (.cllen3 v) s = (afterCllens { s with cllen := s.cllenWith v, clIdx := s.clIdx + 1 }).finish :=
  if_neg (Nat.not_lt.mpr h)

/-- Settles O22: the index is not the last one, so the element ends with its write. -/
theorem entriesGoToTheirSwizzledPlace : Obligations.EntriesGoToTheirSwizzledPlace := fun v s hmore hi =>
  ⟨s.cllenWith v, s.swizzled_cllenWith hi v, exec_cllen3_more hmore v⟩

/-- Settles O23: the last entry is written like the others, and the builder's test of the 19 lengths decides. -/
theorem lastEntryBuildsTCl : Obligations.LastEntryBuildsTCl := by
  intro v s hlast hi
  refine ⟨s.cllenWith v, s.swizzled_cllenWith hi v, fun hfits => ?_, fun hover => ?_⟩
  · obtain ⟨t, hbuild, htable⟩ := exists_buildTable_ok hfits
    refine ⟨t, hbuild, ?_⟩
    rw [exec_cllen3_last hlast, afterCllens, State.cllenList, htable]
    rfl
  · rw [exec_cllen3_last hlast, afterCllens, State.cllenList, buildTable_overSubscribed hover]
    rfl

/-! ### The code lengths -/

theorem State.llLens_eq_lensSlice (s : State) : s.llLens = lensSlice s.lens 0 s.hlit := by
  rw [State.llLens, lensSlice, List.drop_zero, List.map_take]

theorem State.dLens_eq_lensSlice (s : State) : s.dLens = lensSlice s.lens s.hlit s.hdist := by
  rw [State.dLens, lensSlice, List.map_take, List.map_drop]

theorem afterLengths_more {s : State} (h : s.lidx < s.hlit + s.hdist) : afterLengths s = .ok () s := if_pos h

theorem afterLengths_last {s : State} (h : s.lidx = s.hlit + s.hdist) : afterLengths s = buildDynamic s :=
  if_neg (Nat.not_lt.mpr h.ge)

theorem buildDynamic_ok {s : State} {ll d : Table} (hll : ∀ u, buildTable (lensSlice s.lens 0 s.hlit) u = .ok ll u)
    (hd : ∀ u, buildTable (lensSlice s.lens s.hlit s.hdist) u = .ok d u) :
    buildDynamic s = .ok () { s with tLl := ll, tD := d, sel := true, fsm := .symbolLoop } := by
  rw [buildDynamic, s.llLens_eq_lensSlice, hll, Res.bind_ok, s.dLens_eq_lensSlice, hd, Res.bind_ok]

/-- A set of lengths is refused whether it is the first of the two or the second. -/
theorem buildDynamic_overSubscribed {s : State}
    (h : 2 ^ 16 < kraftSum (lensSlice s.lens 0 s.hlit) ∨ 2 ^ 16 < kraftSum (lensSlice s.lens s.hlit s.hdist)) :
    buildDynamic s = .raised .invalidCodeLengths s := by
  rw [buildDynamic, s.llLens_eq_lensSlice]
  rcases Nat.lt_or_ge (2 ^ 16) (kraftSum (lensSlice s.lens 0 s.hlit)) with hll | hll
  · rw [buildTable_overSubscribed hll, Res.bind_raised]
  · obtain ⟨ll, -, htable⟩ := exists_buildTable_ok hll
    rw [htable, Res.bind_ok, s.dLens_eq_lensSlice,
      buildTable_overSubscribed (h.resolve_left (Nat.not_lt.mpr hll)), Res.bind_raised]

theorem State.ran_fillLens (s : State) (run : Run) : s.Ran run (s.fillLens run.count s.lidx run.value).lens :=
  fun _ hk => s.getD_fillLens run.count s.lidx run.value hk

/-- Settles O24: the run fits, and lengths are still undefined behind it. -/
theorem codeLengthSymbolsWriteTheirRun : Obligations.CodeLengthSymbolsWriteTheirRun := by
  intro i run s hrun hmore
  refine ⟨_, s.ran_fillLens run, ?_⟩
  rw [exec_lengthRun hrun hmore.le, afterLengths_more hmore]
  rfl

/-- Settles O25: the run fits and is the last one, and the builder's tests of the two slices decide. -/
theorem lastLengthBuildsTheTables : Obligations.LastLengthBuildsTheTables := by
  intro i run s hrun hlast
  refine ⟨_, s.ran_fillLens run, ?_⟩
  rw [exec_lengthRun hrun hlast.le, afterLengths_last hlast]
  generalize (s.fillLens run.count s.lidx run.value).lens = lens
  refine ⟨fun hll hd => ?_, fun hover => ?_⟩
  · obtain ⟨ll, hbuildLl, htableLl⟩ := exists_buildTable_ok hll
    obtain ⟨d, hbuildD, htableD⟩ := exists_buildTable_ok hd
    refine ⟨ll, d, hbuildLl, hbuildD, ?_⟩
    rw [buildDynamic_ok (ll := ll) (d := d)]
    exacts [rfl, htableLl, htableD]
  · rw [buildDynamic_overSubscribed]
    exacts [rfl, hover]

/-- A repeat that passes the last length forgets the register `REP` it recorded (R242, R376). -/
theorem repeatLength_overflows_finish {s : State} {r : Nat} (h : s.hlit + s.hdist < s.lidx + r) (v : BitVec 4) :
    (repeatLength v r s).finish = .next (s.raise .invalidCodeLengths) := by
  rw [repeatLength_overflows v h]
  rfl

/-- Settles O26: the test for a previous length comes first and ends in the same fault as the test of the run. -/
theorem runawayRepeatsFault : Obligations.RunawayRepeatsFault := by
  intro r s
  have hfirst (hz : s.lidx = 0) : exec (.clRep r) s = .next (s.raise .invalidCodeLengths) := if_pos hz
  refine ⟨hfirst, fun hover => ⟨?_, repeatLength_overflows_finish hover 0, repeatLength_overflows_finish hover 0⟩⟩
  by_cases hz : s.lidx = 0
  · exact hfirst hz
  · exact (if_neg hz).trans (repeatLength_overflows_finish hover s.prevLen)

end Sys2Proof.Machine
end

section
/-! The symbol loop: literals, length/distance pairs and the reserved symbols (R260 to R335). -/

namespace Sys2Proof.Machine

/-! ### Reserved symbols and literals -/

/-- Settles O32: a reserved symbol does nothing but raise its fault. -/
theorem reservedSymbolsFault : Obligations.ReservedSymbolsFault := fun _ => ⟨rfl, rfl, rfl, rfl⟩

/-- A literal has no extra bits, so its bits in a static block are its fixed code (R102, R265). -/
theorem encode_lit (b : Byte) : encode staticBooks (.lit b) = fixedLLBook b.toNat := by
  have hextra : llExtra b.toNat = 0 := if_neg (by have := b.isLt; omega)
  change (fixedLLBook b.toNat).map (· ++ bitsOfNat (llExtra b.toNat) 0) = _
  simp [hextra, bitsOfNat]

/-- The fixed codes of the literals (R102): one run of 8 bits, one of 9. -/
theorem fixedLLBook_of_literal {sym : Nat} (h : sym ≤ 255) :
    fixedLLBook sym = some (if sym ≤ 143 then codeBits 8 (0x30 + sym) else codeBits 9 (0x190 + (sym - 144))) := by
  rw [fixedLLBook, if_pos h]
  split <;> rfl

/-- Settles O27: the test for room decides between one byte written and the fault. -/
theorem literalIsEmitted : Obligations.LiteralIsEmitted := by
  intro b s hw
  refine ⟨fun hroom => ?_, fun hfull => congrArg Res.finish (emit_full b hfull), ?_⟩
  · exact ⟨_, congrArg Res.finish (emit_room b hroom), rfl, Memory.wf_write hw _ _, Memory.read_write hw _ _⟩
  · rw [encode_lit, fixedLLBook_of_literal (Nat.le_of_lt_succ b.isLt)]

/-! ### Distance symbols -/

/-- Settles O31: a distance symbol is the copy at its distance, which tests the distance before the room. -/
theorem distanceSymbolsCopy : Obligations.DistanceSymbolsCopy := by
  intro j dist s hrow hw
  obtain ⟨hexec, -, hpos⟩ := exec_distanceRow hrow s
  rw [hexec]
  refine ⟨fun hback hroom => ?_, matchAt_tooFar, matchAt_full hpos hw⟩
  obtain ⟨o, hmatch, hwo, hread⟩ := matchAt_ok hpos hw hback hroom
  exact ⟨_, hmatch, rfl, hwo, hread⟩

/-- The row of the distance alphabet an element stands for names the symbol it was made from. -/
theorem sym_of_dInstr {d x : Nat} {j : Instr} {dist : Row} (hj : dInstr d x = some j)
    (hrow : distanceRow j = some dist) : dist.sym = d := by
  rcases dInstr_cases hj with ⟨-, row, hrow', hsym, -⟩ | ⟨-, rfl⟩ | ⟨-, rfl⟩
  · rw [hrow, Option.some_inj] at hrow'
    rw [hrow', hsym]
  · cases hrow
  · cases hrow

/-- Recording the distance symbol on both sides of a move leaves it a move. -/
theorem State.Moved.with_dsym {s u : State} {n : Nat} (h : s.Moved u n) (d : Nat) :
    State.Moved { s with dsym := d } { u with dsym := d } n where
  same := by rw [h.same]
  cursor := h.cursor.congr rfl rfl rfl rfl rfl
  pos := h.pos

/-- What the fetch of a distance symbol answers, by what the decoder reads (R173, R267, R301): the element, behind its
bits, or a fault that leaves nothing of the fetch behind. -/
def State.FetchesDist (s : State) : Except Reject (Instr × Bits) → Prop
  | .ok (j, rest) => ∃ d x u n, dInstr d x = some j ∧ fetchDist s = .ok j u ∧
      State.Moved { s with dsym := d } u n ∧ u.remaining = rest
  | .error .truncated => ∃ u, fetchDist s = .raised .truncatedStream u ∧ ∀ k, u.raise k = s.raise k
  | .error .unfilled => ∃ u, fetchDist s = .raised .invalidSymbol u ∧ ∀ k, u.raise k = s.raise k
  | .error .outsideAlphabet => fetchDist s = .refused .symbolDomain

theorem fetchDist_decode {s : State} (hc : s.CursorInv) (ht : Table.Decodable s.td) :
    s.FetchesDist (decode (.dsym s.td) s.remaining) := by
  have hfetch := fetchDist_eq s
  rw [decode, takeSymbolInstr]
  rcases decodeSym_takeSymbol hc ht with ⟨i, u, he, hu, -, hd⟩ | ⟨u, he, hu, hd⟩ | ⟨u, he, hu, hd⟩
  · rw [he, Res.bind_ok] at hfetch
    rw [hd]
    generalize (s.td.entry i).sym = d at hfetch ⊢
    have hv := hu.with_dsym d
    have hr : ({ u with dsym := d }).remaining = u.remaining := State.remaining_congr rfl rfl rfl rfl
    dsimp only
    rw [← hr]
    rcases take_takeField hv.cursor (dExtra_le d) with ⟨x, w, htake, hw, -, hf⟩ | ⟨w, htake, hw, hf⟩
    · rw [htake, Res.bind_ok] at hfetch
      rw [hf]
      dsimp only
      cases hj : dInstr d x with
      | none => rwa [hj] at hfetch
      | some j =>
        rw [hj] at hfetch
        exact ⟨d, x, w, _, hj, hfetch, hv.trans hw, rfl⟩
    · rw [htake] at hfetch
      rw [hf]
      exact ⟨w, hfetch, (hv.trans hw).raise⟩
  · rw [he] at hfetch
    rw [hd]
    exact ⟨u, hfetch, hu.raise⟩
  · rw [he] at hfetch
    rw [hd]
    exact ⟨u, hfetch, hu.raise⟩

/-! ### Length/distance pairs -/

/-- A fault of the fetch inside a pair is the pair's fault, whatever the pair has recorded (R376). -/
theorem matchOf_of_raised {s u : State} {len : Nat} {k : FaultKind}
    (hfetch : fetchDist { s with mlen := len } = .raised k u) (hraise : u.raise k = s.raise k) :
    matchOf len s = .next (s.raise k) := by
  rw [matchOf, hfetch, ← hraise]

section Pair
variable {s : State} (hc : s.CursorInv) (ht : Table.Decodable s.td) (len : Nat)
include hc ht

/-- The fetch inside a pair, at the match length the pair has recorded (R267). -/
theorem fetchDist_decode_of_mlen : ({ s with mlen := len }).FetchesDist (decode (.dsym s.td) s.remaining) :=
  fetchDist_decode (s := { s with mlen := len }) (hc.congr rfl rfl rfl rfl rfl) ht

/-- A pair whose distance symbol decodes runs that symbol behind the pair's bits. -/
theorem matchOf_of_decode {j : Instr} {rest : Bits} (hd : decode (.dsym s.td) s.remaining = .ok (j, rest)) :
    ∃ d x u n, dInstr d x = some j ∧ State.Moved { s with mlen := len, dsym := d } u n ∧ u.remaining = rest ∧
      matchOf len s = execDistance j u := by
  have hfetches := fetchDist_decode_of_mlen hc ht len
  rw [hd] at hfetches
  obtain ⟨d, x, u, n, hj, hfetch, hm, hrest⟩ := hfetches
  exact ⟨d, x, u, n, hj, hm, hrest, by rw [matchOf, hfetch]⟩

theorem matchOf_of_truncated (hd : decode (.dsym s.td) s.remaining = .error .truncated) :
    matchOf len s = .next (s.raise .truncatedStream) := by
  have hfetches := fetchDist_decode_of_mlen hc ht len
  rw [hd] at hfetches
  obtain ⟨u, hfetch, hraise⟩ := hfetches
  exact matchOf_of_raised hfetch (hraise _)

theorem matchOf_of_unfilled (hd : decode (.dsym s.td) s.remaining = .error .unfilled) :
    matchOf len s = .next (s.raise .invalidSymbol) := by
  have hfetches := fetchDist_decode_of_mlen hc ht len
  rw [hd] at hfetches
  obtain ⟨u, hfetch, hraise⟩ := hfetches
  exact matchOf_of_raised hfetch (hraise _)

/-- A pair with a reserved distance symbol (R333, R334). -/
theorem matchOf_of_reserved {j : Instr} {rest : Bits} (hd : decode (.dsym s.td) s.remaining = .ok (j, rest))
    (hj : j = .dist30 ∨ j = .dist31) : matchOf len s = .next (s.raise .invalidSymbol) := by
  obtain ⟨d, x, u, n, -, hm, -, hmatch⟩ := matchOf_of_decode hc ht len hd
  have hexec : execDistance j u = .next (u.raise .invalidSymbol) := by rcases hj with rfl | rfl <;> rfl
  rw [hmatch, hexec]
  exact congrArg Host.Outcome.next (hm.raise _)

/-- A pair with a row of the distance alphabet is the copy at its distance, from behind the pair's bits and with the
registers of the pair recorded. -/
theorem matchOf_of_distanceRow {j : Instr} {dist : Row} {rest : Bits}
    (hd : decode (.dsym s.td) s.remaining = .ok (j, rest)) (hrow : distanceRow j = some dist) :
    ∃ u n, State.Moved { s with mlen := len, dsym := dist.sym } u n ∧ u.remaining = rest ∧
      matchOf len s = matchAt dist.value u := by
  obtain ⟨d, x, u, n, hj, hm, hrest, hmatch⟩ := matchOf_of_decode hc ht len hd
  obtain ⟨-, hexec, -⟩ := exec_distanceRow hrow u
  rw [← sym_of_dInstr hj hrow] at hm
  exact ⟨u, n, hm, hrest, hmatch.trans hexec⟩

end Pair

/-- Settles O29: the copy inside the pair, from the state behind the pair's bits. -/
theorem lengthPairsCopy : Obligations.LengthPairsCopy := by
  intro i j len dist s rest hi hc ht hw hd hrow hback hroom
  obtain ⟨u, n, hm, hrest, hmatch⟩ := matchOf_of_distanceRow hc ht len.value hd hrow
  obtain ⟨a, b, k, rfl⟩ := hm.exists_eq
  obtain ⟨-, -, hpos⟩ := exec_distanceRow hrow s
  obtain ⟨o, hcopy, hwo, hread⟩ := matchAt_ok (s := { s with
    mlen := len.value, dsym := dist.sym, acc := a, bitcnt := b, inOff := k }) hpos hw hback hroom
  exact ⟨_, (exec_lengthRow hi s).trans (hmatch.trans hcopy), rfl, hm.cursor.congr rfl rfl rfl rfl rfl, hrest, hwo,
    hread⟩

/-- Settles O30: the fetch of the distance symbol faults before the copy does, and no fault leaves anything of the
pair behind. -/
theorem lengthPairsFaultInOrder : Obligations.LengthPairsFaultInOrder := by
  intro i len s hi hc ht hw hp
  rw [exec_lengthRow hi]
  refine ⟨matchOf_of_truncated hc ht len.value, matchOf_of_unfilled hc ht len.value, fun rest hd => ?_,
    fun j dist rest hd hrow => ?_⟩
  · rcases hd with hd | hd
    · exact matchOf_of_reserved hc ht len.value hd (.inl rfl)
    · exact matchOf_of_reserved hc ht len.value hd (.inr rfl)
  · obtain ⟨u, n, hm, -, hmatch⟩ := matchOf_of_distanceRow hc ht len.value hd hrow
    obtain ⟨a, b, k, rfl⟩ := hm.exists_eq
    obtain ⟨-, -, hpos⟩ := exec_distanceRow hrow s
    exact ⟨fun hfar => hmatch.trans (matchAt_tooFar hfar),
      fun hback hfull => hmatch.trans (matchAt_full hpos hw hback hp hfull)⟩

end Sys2Proof.Machine
end

section
/-! The back-reference copier (R352 to R358): its loop step by step, and where it runs out of room. -/

namespace Sys2Proof.Machine

/-! ### The loop of `COPY` -/

/-- While there is room, the loop copies the byte `dist` before the position and goes on behind it. -/
theorem copyLoop_succ_of_room {s : State} (h : s.outPos < s.outCap) (n dist : Nat) : copyLoop (n + 1) dist s =
    copyLoop n dist { s with out := s.out.write s.outPos (s.out.read (s.outPos - dist)), outPos := s.outPos + 1 } := by
  rw [copyLoop, if_neg (by omega), outRead, if_pos (by omega), Res.bind_ok, outWrite, if_pos h, Res.bind_ok]

/-- Without room for one more byte the loop faults where it stands (R356). -/
theorem copyLoop_succ_of_full {s : State} (h : s.outCap ≤ s.outPos) (n dist : Nat) :
    copyLoop (n + 1) dist s = .raised .outputBufferExhausted s := by
  rw [copyLoop, if_pos h]

/-- Copying `m + n` bytes is copying `m` bytes and then, unless that faulted, `n` more. -/
theorem copyLoop_add (m n dist : Nat) (s : State) :
    copyLoop (m + n) dist s = (copyLoop m dist s).bind fun _ u => copyLoop n dist u := by
  induction m generalizing s with
  | zero => rw [Nat.zero_add]; rfl
  | succ m ih =>
    rw [Nat.add_right_comm]
    rcases Nat.lt_or_ge s.outPos s.outCap with hroom | hfull
    · rw [copyLoop_succ_of_room hroom, copyLoop_succ_of_room hroom, ih]
    · rw [copyLoop_succ_of_full hfull, copyLoop_succ_of_full hfull, Res.bind_raised]

/-! ### `COPY` -/

theorem copy_tooFar {s : State} {dist : Nat} (h : s.outPos < dist) (len : Nat) :
    copy len dist s = .raised .invalidBackReference s := if_pos h

/-- Within the bytes already written, `COPY` is its loop. -/
theorem copy_eq_copyLoop {s : State} {dist : Nat} (h : dist ≤ s.outPos) (len : Nat) :
    copy len dist s = copyLoop len dist s := if_neg (Nat.not_lt.mpr h)

/-- Settles O13: a copy with room for it is its loop, and `copyLoop_ok` says what the loop leaves in `OUT`. -/
theorem copyRepeatsCyclically : Obligations.CopyRepeatsCyclically := by
  intro s len dist hw hd hback hroom
  obtain ⟨o, hloop, hwo, hread⟩ := copyLoop_ok (len := len) hw hd hback (by omega)
  exact ⟨_, (copy_eq_copyLoop hback len).trans hloop, rfl, hwo, hread⟩

/-- Settles O14: a copy too long for the buffer is one that fills it exactly, and then at least one byte more. -/
theorem copyFaultsInOrder : Obligations.CopyFaultsInOrder := by
  intro s len dist hw hd hcap
  refine ⟨fun hfar => copy_tooFar hfar len, fun hback hfull => ?_, fun hback hroom => ?_⟩
  · obtain ⟨n, rfl⟩ : ∃ n, len = (s.outCap - s.outPos) + (n + 1) := ⟨len - (s.outCap - s.outPos) - 1, by omega⟩
    obtain ⟨o, hloop, -, hread⟩ := copyLoop_ok (len := s.outCap - s.outPos) hw hd hback (Nat.le_refl _)
    rw [Nat.add_sub_cancel' hcap] at hloop
    refine ⟨{ s with outPos := s.outCap, out := o }, ?_, rfl, hread⟩
    rw [copy_eq_copyLoop hback, copyLoop_add, hloop, Res.bind_ok, copyLoop_succ_of_full (Nat.le_refl _)]
  · obtain ⟨u, hcopy, -⟩ := copyRepeatsCyclically s len dist hw hd hback hroom
    exact ⟨u, hcopy⟩

end Sys2Proof.Machine
end

section
/-! Two runs of one launch, side by side (R353, R373, R377, R412): a relation between their states that says of the
cursor, the output and whatever the element that comes next reads that it is the same; one lemma per operation says that
it answers alike in related states, and the elements of each dispatcher state then lead to related states. -/

namespace Sys2Proof.Machine

/-! ### States of two runs -/

/-- The cursors stand alike over the same stream. -/
structure State.SameCursor (s s' : State) : Prop where
  acc    : s'.acc = s.acc
  bitcnt : s'.bitcnt = s.bitcnt
  inOff  : s'.inOff = s.inOff
  inLen  : s'.inLen = s.inLen
  inp    : s'.inp = s.inp

/-- The runs have written the same bytes. No run reads a byte of `OUT` that it has not written (R353). -/
structure State.SameOutput (s s' : State) : Prop where
  outPos       : s'.outPos = s.outPos
  bytesWritten : s'.bytesWritten = s.bytesWritten
  wf           : s.out.wf = true
  wf'          : s'.out.wf = true
  read         : ∀ x, x < s.outPos → s'.out.read x = s.out.read x

/-- The header of a dynamic block has come equally far in both runs: what the elements before it have written, and the
rest of its header reads, is the same (R233, R234, R236). -/
def State.SameHeader (s s' : State) : Prop :=
  s'.dynPhase = s.dynPhase ∧
    match s.dynPhase with
    | .counts => True
    | .cllens => s'.hlit = s.hlit ∧ s'.hdist = s.hdist ∧ s'.hclen = s.hclen ∧ s'.clIdx = s.clIdx ∧ s'.cllen = s.cllen
    | .symbols => s'.hlit = s.hlit ∧ s'.hdist = s.hdist ∧ s'.tCl = s.tCl ∧ s'.lidx = s.lidx ∧
        ∀ k, k < s.lidx → s'.lens.getD k 0 = s.lens.getD k 0

/-- Two runs stand alike: they agree on all that the rest of the run depends on. -/
structure State.Alike (s s' : State) : Prop extends s.SameCursor s', s.SameOutput s' where
  fsm         : s'.fsm = s.fsm
  bfinal      : s'.bfinal = s.bfinal
  outCap      : s'.outCap = s.outCap
  errCode     : s'.errCode = s.errCode
  staticValid : s'.staticValid = s.staticValid
  fixed       : s.staticValid = true → s'.tLlFixed = s.tLlFixed ∧ s'.tDFixed = s.tDFixed
  header      : s.fsm = .dynamicBlockHeader → s.SameHeader s'
  tables      : s.fsm = .symbolLoop → s'.tll = s.tll ∧ s'.td = s.td

/-- What two runs of one launch have in common at every moment, also once they have ended. -/
structure State.SameRun (s s' : State) : Prop where
  fsm     : s'.fsm = s.fsm
  errCode : s'.errCode = s.errCode
  cursor  : s.fsm ≠ .failed → s.SameCursor s'
  output  : s.fsm ≠ .failed → s.SameOutput s'
  running : s.busy = true → s.Alike s'

theorem State.Alike.sameRun {s s' : State} (h : s.Alike s') : s.SameRun s' :=
  ⟨h.fsm, h.errCode, fun _ => h.toSameCursor, fun _ => h.toSameOutput, fun _ => h⟩

/-- Runs that end alike have done the same, whatever values the end leaves free (R44, R194). -/
theorem State.Alike.finished {s s' : State} (h : s.Alike s') : s.finished.SameRun s'.finished where
  fsm := rfl
  errCode := rfl
  cursor := fun _ => ⟨h.acc, h.bitcnt, h.inOff, h.inLen, h.inp⟩
  output := fun _ => ⟨h.outPos, h.outPos, h.wf, h.wf', h.read⟩
  running := nofun

/-- Of a run that fails only the code is left (R373, R376). -/
theorem State.SameRun.raise (k : FaultKind) (s s' : State) : (s.raise k).SameRun (s'.raise k) :=
  ⟨rfl, rfl, fun h => absurd rfl h, fun h => absurd rfl h, nofun⟩

/-! ### Answers of two runs -/

/-- An operation answers alike in two runs: the same value in states related by `R`, the same fault kind, or the same
stop. -/
inductive Res.Alike {α : Type} (R : α → State → State → Prop) : Res α → Res α → Prop where
  | ok {a : α} {s s' : State} (h : R a s s') : Res.Alike R (.ok a s) (.ok a s')
  | raised (k : FaultKind) (s s' : State) : Res.Alike R (.raised k s) (.raised k s')
  | fault (r : Fault) : Res.Alike R (.fault r) (.fault r)
  | refused (r : Refusal) : Res.Alike R (.refused r) (.refused r)

theorem Res.Alike.bind {α β : Type} {R : α → State → State → Prop} {Q : β → State → State → Prop} {x x' : Res α}
    {f : α → State → Res β} (hx : x.Alike R x') (hf : ∀ a u u', R a u u' → (f a u).Alike Q (f a u')) :
    (x.bind f).Alike Q (x'.bind f) := by
  cases hx with
  | ok h => exact hf _ _ _ h
  | raised k s s' => exact .raised k s s'
  | fault r => exact .fault r
  | refused r => exact .refused r

theorem Res.Alike.mono {α : Type} {R Q : α → State → State → Prop} {x x' : Res α} (hx : x.Alike R x')
    (hRQ : ∀ a u u', R a u u' → Q a u u') : x.Alike Q x' := by
  cases hx with
  | ok h => exact .ok (hRQ _ _ _ h)
  | raised k s s' => exact .raised k s s'
  | fault r => exact .fault r
  | refused r => exact .refused r

/-- A step answers alike in two runs: what they have in common after it, or the same stop. -/
inductive AnswersAlike : Host.Outcome State Fault Refusal → Host.Outcome State Fault Refusal → Prop where
  | next {t t' : State} (h : t.SameRun t') : AnswersAlike (.next t) (.next t')
  | fault (r : Fault) : AnswersAlike (.fault r) (.fault r)
  | refused (r : Refusal) : AnswersAlike (.refused r) (.refused r)

theorem AnswersAlike.raise (k : FaultKind) (s s' : State) : AnswersAlike (.next (s.raise k)) (.next (s'.raise k)) :=
  .next (.raise k s s')

theorem Res.Alike.finish {x x' : Res Unit} (hx : x.Alike (fun _ => State.SameRun) x') :
    AnswersAlike x.finish x'.finish := by
  cases hx with
  | ok h => exact .next h
  | raised k s s' => exact .raise k s s'
  | fault r => exact .fault r
  | refused r => exact .refused r

theorem Res.Alike.finish_running {x x' : Res Unit} (hx : x.Alike (fun _ => State.Alike) x') :
    AnswersAlike x.finish x'.finish := (hx.mono fun _ _ _ h => h.sameRun).finish

/-! ### The bit cursor -/

/-- A relation the cursor's operations keep: it includes that the cursors stand alike, and leaves open where. -/
structure Steady (R : State → State → Prop) : Prop where
  cursor : ∀ {s s' : State}, R s s' → s.SameCursor s'
  moved  : ∀ {s s' : State} (a : BitVec 32) (b i : Nat), R s s' →
    R { s with acc := a, bitcnt := b, inOff := i } { s' with acc := a, bitcnt := b, inOff := i }

/-- A relation of registers other than the cursor's may be added to a steady one. -/
theorem Steady.and {R P : State → State → Prop} (hR : Steady R)
    (hP : ∀ (s s' : State) (a : BitVec 32) (b i : Nat), P s s' →
      P { s with acc := a, bitcnt := b, inOff := i } { s' with acc := a, bitcnt := b, inOff := i }) :
    Steady fun s s' => R s s' ∧ P s s' :=
  ⟨fun h => hR.cursor h.1, fun a b i h => ⟨hR.moved a b i h.1, hP _ _ a b i h.2⟩⟩

theorem Steady.alike : Steady State.Alike :=
  ⟨fun h => h.toSameCursor, fun _ _ _ h => { h with acc := rfl, bitcnt := rfl, inOff := rfl }⟩

section Cursor
variable {R : State → State → Prop} (hR : Steady R) {s s' : State} (h : R s s')
include hR h

theorem Steady.pushByte (b : Byte) : R (s.pushByte b) (s'.pushByte b) := by
  have hc := hR.cursor h
  unfold State.pushByte
  rw [hc.acc, hc.bitcnt, hc.inOff]
  exact hR.moved _ _ _ h

theorem Steady.dropBits (n : Nat) : R (s.dropBits n) (s'.dropBits n) := by
  have hc := hR.cursor h
  have hm := hR.moved (s.acc >>> n) (s.bitcnt - n) s.inOff h
  unfold State.dropBits
  rw [hc.acc, hc.bitcnt]
  exact hc.inOff ▸ hm

theorem Steady.giveBack : R s.giveBack s'.giveBack := by
  have hc := hR.cursor h
  unfold State.giveBack
  rw [hc.bitcnt, hc.inOff]
  exact hR.moved _ _ _ h

theorem inRead_alike (a : Nat) : (inRead a s).Alike (fun _ => R) (inRead a s') := by
  have hc := hR.cursor h
  rw [inRead, inRead, hc.inLen, hc.inp]
  split
  · exact .ok h
  · exact .fault _

theorem refill_alike (fuel n : Nat) : (refill fuel n s).Alike (fun _ => R) (refill fuel n s') := by
  induction fuel generalizing s s' with
  | zero => exact .ok h
  | succ fuel ih =>
    have hc := hR.cursor h
    rw [refill, refill, hc.bitcnt, hc.inOff, hc.inLen]
    split
    · exact .ok h
    · split
      · exact .raised _ s s'
      · exact (inRead_alike hR h _).bind fun b _ _ hu => ih (hR.pushByte hu b)

theorem peek_alike (n : Nat) : (peek n s).Alike (fun _ => R) (peek n s') := by
  have hp : s'.peekable n = s.peekable n := by rw [State.peekable, State.peekable, (hR.cursor h).bitcnt]
  rw [peek, peek, hp]
  split
  · refine (refill_alike hR h 4 n).bind fun _ u u' hu => ?_
    rw [(hR.cursor hu).acc]
    exact .ok hu
  · exact .refused _

theorem discard_alike (n : Nat) : (discard n s).Alike (fun _ => R) (discard n s') := by
  rw [discard, discard, (hR.cursor h).bitcnt]
  split
  · exact .ok (hR.dropBits h n)
  · exact .refused _

theorem take_alike (n : Nat) : (take n s).Alike (fun _ => R) (take n s') :=
  (peek_alike hR h n).bind fun _ _ _ hu => (discard_alike hR hu n).bind fun _ _ _ hw => .ok hw

theorem align_alike : (align s).Alike (fun _ => R) (align s') := by
  rw [align, align, (hR.cursor h).bitcnt]
  exact discard_alike hR h _

theorem decodeSym_alike (t : Table) : (decodeSym t s).Alike (fun _ => R) (decodeSym t s') := by
  refine (peek_alike hR h t.m).bind fun i u u' hu => ?_
  split
  · exact .raised _ u u'
  · exact (discard_alike hR hu _).bind fun _ _ _ hw => .ok hw

end Cursor

/-! ### Writing `OUT` -/

/-- The next byte, written in both runs. -/
theorem State.Alike.write {s s' : State} (h : s.Alike s') (b : Byte) :
    State.Alike { s with out := s.out.write s.outPos b, outPos := s.outPos + 1 }
      { s' with out := s'.out.write s'.outPos b, outPos := s'.outPos + 1 } :=
  { h with
    outPos := congrArg (· + 1) h.outPos
    wf := Memory.wf_write h.wf _ _
    wf' := Memory.wf_write h.wf' _ _
    read := fun x hx => by
      dsimp only at hx ⊢
      rw [Memory.read_write h.wf, Memory.read_write h.wf', h.outPos]
      split
      · rfl
      · exact h.read x (by omega) }

theorem emit_alike {s s' : State} (h : s.Alike s') (b : Byte) :
    (emit b s).Alike (fun _ => State.Alike) (emit b s') := by
  have hp := h.outPos
  have hc := h.outCap
  rcases Nat.lt_or_ge s.outPos s.outCap with hroom | hfull
  · rw [emit_room b hroom, emit_room b (by omega)]
    exact .ok (h.write b)
  · rw [emit_full b hfull, emit_full b (by omega)]
    exact .raised _ s s'

/-- With a byte to read and room for it, the raw copy goes on behind it (R146). -/
theorem rawLoop_succ_of_room {s : State} (hi : s.inOff < s.inLen) (ho : s.outPos < s.outCap) (n : Nat) :
    rawLoop (n + 1) s = rawLoop n { s with
      out := s.out.write s.outPos (Memory.read s.inp s.inOff), inOff := s.inOff + 1, outPos := s.outPos + 1 } := by
  rw [rawLoop, if_neg (by omega), if_neg (by omega), inRead, if_pos hi, Res.bind_ok, outWrite, if_pos ho, Res.bind_ok]

theorem rawLoop_alike {s s' : State} (h : s.Alike s') (n : Nat) :
    (rawLoop n s).Alike (fun _ => State.Alike) (rawLoop n s') := by
  induction n generalizing s s' with
  | zero => exact .ok h
  | succ n ih =>
    by_cases hroom : s.inOff < s.inLen ∧ s.outPos < s.outCap
    · rw [rawLoop_succ_of_room hroom.1 hroom.2, rawLoop_succ_of_room (by rw [h.inOff, h.inLen]; exact hroom.1)
        (by rw [h.outPos, h.outCap]; exact hroom.2)]
      have hread : Memory.read s'.inp s'.inOff = Memory.read s.inp s.inOff := by rw [h.inp, h.inOff]
      rw [hread]
      exact ih { h.write _ with inOff := congrArg (· + 1) h.inOff }
    · rw [rawLoop, rawLoop, h.inOff, h.inLen, h.outPos, h.outCap]
      by_cases hi : s.inOff ≥ s.inLen
      · rw [if_pos hi, if_pos hi]
        exact .raised _ s s'
      · have ho : s.outPos ≥ s.outCap := by omega
        rw [if_neg hi, if_neg hi, if_pos ho, if_pos ho]
        exact .raised _ s s'

theorem readRaw_alike {s s' : State} (h : s.Alike s') (n : Nat) :
    (readRaw n s).Alike (fun _ => State.Alike) (readRaw n s') := by
  rw [readRaw, readRaw, h.bitcnt]
  split
  · exact rawLoop_alike (Steady.alike.giveBack h) n
  · exact .refused _

/-- The copy reads only what the run has written (R353). -/
theorem copyLoop_alike {s s' : State} {dist : Nat} (h : s.Alike s') (h1 : 1 ≤ dist) (hback : dist ≤ s.outPos)
    (n : Nat) : (copyLoop n dist s).Alike (fun _ => State.Alike) (copyLoop n dist s') := by
  induction n generalizing s s' with
  | zero => exact .ok h
  | succ n ih =>
    have hp := h.outPos
    have hc := h.outCap
    rcases Nat.lt_or_ge s.outPos s.outCap with hroom | hfull
    · rw [copyLoop_succ_of_room hroom, copyLoop_succ_of_room (by omega)]
      have hread : s'.out.read (s'.outPos - dist) = s.out.read (s.outPos - dist) := by
        rw [hp]
        exact h.read _ (by omega)
      rw [hread]
      exact ih (h.write _) (Nat.le_succ_of_le hback)
    · rw [copyLoop_succ_of_full hfull, copyLoop_succ_of_full (by omega)]
      exact .raised _ s s'

theorem copy_alike {s s' : State} {dist : Nat} (h : s.Alike s') (h1 : 1 ≤ dist) (len : Nat) :
    (copy len dist s).Alike (fun _ => State.Alike) (copy len dist s') := by
  have hp := h.outPos
  rcases Nat.lt_or_ge s.outPos dist with hfar | hback
  · rw [copy_tooFar hfar, copy_tooFar (by omega)]
    exact .raised _ s s'
  · rw [copy_eq_copyLoop hback, copy_eq_copyLoop (by omega)]
    exact copyLoop_alike h h1 hback len

/-! ### Tables and the end of a block -/

theorem buildTable_alike {R : State → State → Prop} {s s' : State} (h : R s s') (lens : List Nat) :
    (buildTable lens s).Alike (fun _ => R) (buildTable lens s') := by
  unfold buildTable
  split
  · exact .raised _ s s'
  · exact .ok h

theorem endOfBlock_alike {s s' : State} (h : s.Alike s') :
    (endOfBlock s).Alike (fun _ => State.SameRun) (endOfBlock s') := by
  have hb := h.bfinal
  cases hf : s.bfinal with
  | true =>
    rw [endOfBlock_final hf, endOfBlock_final (hb.trans hf)]
    exact .ok h.finished
  | false =>
    rw [endOfBlock_more hf, endOfBlock_more (hb.trans hf)]
    exact .ok (State.Alike.sameRun { h with fsm := rfl, header := nofun, tables := nofun })

/-- Both runs use fixed tables that are built already, or build them now (R205). -/
theorem selectFixed_alike {s s' : State} (h : s.Alike s') :
    (selectFixed s).Alike (fun _ => State.Alike) (selectFixed s') := by
  have hv := h.staticValid
  cases hs : s.staticValid with
  | true =>
    rw [selectFixed_again hs, selectFixed_again (hv.trans hs)]
    exact .ok { h with fsm := rfl, header := nofun, tables := fun _ => h.fixed hs }
  | false =>
    rw [selectFixed_first hs, selectFixed_first (hv.trans hs)]
    exact .ok { h with
      fsm := rfl, staticValid := rfl, fixed := fun _ => ⟨rfl, rfl⟩, header := nofun, tables := fun _ => ⟨rfl, rfl⟩ }

/-! ### Headers and stored blocks -/

/-- Executed in both runs, the element leads to states that have in common what two runs have. -/
def RunsAlike (i : Instr) (s s' : State) : Prop := AnswersAlike (exec i s) (exec i s')

theorem zhdr_runsAlike {s s' : State} (h : s.Alike s') (cmf flg : Byte) : RunsAlike (.zhdr cmf flg) s s' := by
  simp only [RunsAlike, exec, execZhdr]
  split
  · exact .next (State.Alike.sameRun { h with fsm := rfl, header := nofun, tables := nofun })
  · exact .raise _ _ _

theorem bhdr_runsAlike {s s' : State} (h : s.Alike s') (bfinal btype : Nat) :
    RunsAlike (bhdrInstr bfinal btype) s s' := by
  have hfixed : State.Alike { s.withHeader (bfinal == 1) 1 with fsm := .staticBlock }
      { s'.withHeader (bfinal == 1) 1 with fsm := .staticBlock } :=
    { h with fsm := rfl, bfinal := rfl, header := nofun, tables := nofun }
  unfold bhdrInstr
  split
  · exact .next (State.Alike.sameRun { h with fsm := rfl, bfinal := rfl, header := nofun, tables := nofun })
  · exact (selectFixed_alike hfixed).finish_running
  · exact .next (State.Alike.sameRun { h with
      fsm := rfl, bfinal := rfl, header := fun _ => ⟨rfl, trivial⟩, tables := nofun })
  · exact .raise _ _ _

theorem stored_runsAlike {s s' : State} (h : s.Alike s') (len nlen : BitVec 16) :
    RunsAlike (.stored len nlen) s s' := by
  have hread : State.Alike { s with len := len, nlen := nlen } { s' with len := len, nlen := nlen } := { h with }
  refine Res.Alike.finish ?_
  unfold storedBody
  dsimp only
  split
  · exact (readRaw_alike hread _).bind fun _ _ _ hu => endOfBlock_alike hu
  · exact .raised _ _ _

theorem fetchZhdr_alike {s s' : State} (h : s.Alike s') : (fetchZhdr s).Alike RunsAlike (fetchZhdr s') :=
  (take_alike .alike h 8).bind fun _ _ _ hu => (take_alike .alike hu 8).bind fun _ _ _ hw =>
    .ok (zhdr_runsAlike hw _ _)

theorem fetchBhdr_alike {s s' : State} (h : s.Alike s') : (fetchBhdr s).Alike RunsAlike (fetchBhdr s') :=
  (take_alike .alike h 1).bind fun _ _ _ hu => (take_alike .alike hu 2).bind fun _ _ _ hw =>
    .ok (bhdr_runsAlike hw _ _)

theorem fetchStored_alike {s s' : State} (h : s.Alike s') : (fetchStored s).Alike RunsAlike (fetchStored s') :=
  (align_alike .alike h).bind fun _ _ _ ht => (take_alike .alike ht 16).bind fun _ _ _ hu =>
    (take_alike .alike hu 16).bind fun _ _ _ hw => .ok (stored_runsAlike hw _ _)

/-! ### The header of a dynamic block -/

/-- Two runs stand alike inside the header of a dynamic block, at `p`. -/
def State.AlikeInHeader (p : DynPhase) (s s' : State) : Prop :=
  s.Alike s' ∧ s.fsm = .dynamicBlockHeader ∧ s.dynPhase = p

theorem Steady.alikeInHeader (p : DynPhase) : Steady (State.AlikeInHeader p) :=
  Steady.alike.and fun _ _ _ _ _ h => h

theorem State.AlikeInHeader.cllens {s s' : State} (h : State.AlikeInHeader .cllens s s') :
    s'.hlit = s.hlit ∧ s'.hdist = s.hdist ∧ s'.hclen = s.hclen ∧ s'.clIdx = s.clIdx ∧ s'.cllen = s.cllen := by
  obtain ⟨halike, hfsm, hphase⟩ := h
  have hheader := (halike.header hfsm).2
  rwa [hphase] at hheader

theorem State.AlikeInHeader.symbols {s s' : State} (h : State.AlikeInHeader .symbols s s') :
    s'.hlit = s.hlit ∧ s'.hdist = s.hdist ∧ s'.tCl = s.tCl ∧ s'.lidx = s.lidx ∧
      ∀ k, k < s.lidx → s'.lens.getD k 0 = s.lens.getD k 0 := by
  obtain ⟨halike, hfsm, hphase⟩ := h
  have hheader := (halike.header hfsm).2
  rwa [hphase] at hheader

theorem dynhdr_runsAlike {s s' : State} (h : s.Alike s') (hlit hdist hclen : Nat) :
    RunsAlike (.dynhdr hlit hdist hclen) s s' := by
  simp only [RunsAlike, exec, execDynhdr]
  split
  · exact .raise _ _ _
  · exact .next (State.Alike.sameRun { h with header := fun _ => ⟨rfl, rfl, rfl, rfl, rfl, rfl⟩ })

theorem afterCllens_alike {s s' : State} (h : State.AlikeInHeader .cllens s s') :
    (afterCllens s).Alike (fun _ => State.Alike) (afterCllens s') := by
  obtain ⟨-, -, -, -, hcllen⟩ := h.cllens
  rw [afterCllens, afterCllens, State.cllenList, State.cllenList, hcllen]
  refine (buildTable_alike h _).bind fun t u u' hu => ?_
  obtain ⟨hlit, hdist, -, -, -⟩ := hu.cllens
  exact .ok { hu.1 with header := fun _ => ⟨rfl, hlit, hdist, rfl, rfl, nofun⟩ }

theorem cllen3_runsAlike {s s' : State} (h : State.AlikeInHeader .cllens s s') (v : Nat) :
    RunsAlike (.cllen3 v) s s' := by
  obtain ⟨hlit, hdist, hclen, hidx, hcllen⟩ := h.cllens
  have hentry : s'.cllenWith v = s.cllenWith v := by rw [State.cllenWith, State.cllenWith, hcllen, hidx]
  have hwritten : State.AlikeInHeader .cllens { s with cllen := s.cllenWith v, clIdx := s.clIdx + 1 }
      { s' with cllen := s'.cllenWith v, clIdx := s'.clIdx + 1 } := by
    obtain ⟨halike, hfsm, hphase⟩ := h
    refine ⟨{ halike with header := fun _ => ⟨(halike.header hfsm).1, ?_⟩ }, hfsm, hphase⟩
    rw [hphase]
    exact ⟨hlit, hdist, hclen, congrArg (· + 1) hidx, hentry⟩
  unfold RunsAlike
  rcases Nat.lt_or_ge (s.clIdx + 1) s.hclen with hmore | hlast
  · rw [exec_cllen3_more hmore, exec_cllen3_more (by omega)]
    exact .next hwritten.1.sameRun
  · rw [exec_cllen3_last hlast, exec_cllen3_last (by omega)]
    exact (afterCllens_alike hwritten).finish_running

theorem lensSlice_congr {lens lens' : Vector (BitVec 4) 320} {i n : Nat}
    (h : ∀ k, k < i + n → lens'.getD k 0 = lens.getD k 0) : lensSlice lens' i n = lensSlice lens i n := by
  refine congrArg (List.map BitVec.toNat) (List.ext_getElem (by simp) fun j hj hj' => ?_)
  have hjn : j < n ∧ i + j < 320 := by simp at hj; omega
  have hget := h (i + j) (by omega)
  simpa [Vector.getD, hjn.2] using hget

theorem buildDynamic_alike {s s' : State} (h : s.Alike s') (hll : s'.llLens = s.llLens) (hd : s'.dLens = s.dLens) :
    (buildDynamic s).Alike (fun _ => State.Alike) (buildDynamic s') := by
  rw [buildDynamic, buildDynamic, hll]
  refine (buildTable_alike (R := fun u u' => u.Alike u' ∧ u'.dLens = u.dLens) ⟨h, hd⟩ _).bind fun ll u u' hu => ?_
  obtain ⟨hu, hd⟩ := hu
  rw [hd]
  exact (buildTable_alike hu _).bind fun d _ _ hw =>
    .ok { hw with fsm := rfl, header := nofun, tables := fun _ => ⟨rfl, rfl⟩ }

/-- The tables are built of lengths below `LIDX` alone (R236, R244). -/
theorem afterLengths_alike {s s' : State} (h : State.AlikeInHeader .symbols s s') :
    (afterLengths s).Alike (fun _ => State.Alike) (afterLengths s') := by
  obtain ⟨hlit, hdist, -, hidx, hlens⟩ := h.symbols
  rw [afterLengths, afterLengths, hidx, hlit, hdist]
  split
  · exact .ok h.1
  · refine buildDynamic_alike h.1 ?_ ?_
    · rw [State.llLens_eq_lensSlice, State.llLens_eq_lensSlice, hlit]
      exact lensSlice_congr fun k hk => hlens k (by omega)
    · rw [State.dLens_eq_lensSlice, State.dLens_eq_lensSlice, hlit, hdist]
      exact lensSlice_congr fun k hk => hlens k (by omega)

/-- The same run of lengths, written in both runs (R238 to R241). -/
theorem State.AlikeInHeader.fill {s s' : State} (h : State.AlikeInHeader .symbols s s') (v : BitVec 4) (n r r' : Nat) :
    State.AlikeInHeader .symbols { s with rep := r, lens := (s.fillLens n s.lidx v).lens, lidx := s.lidx + n }
      { s' with rep := r', lens := (s'.fillLens n s'.lidx v).lens, lidx := s'.lidx + n } := by
  obtain ⟨hlit, hdist, htable, hidx, hlens⟩ := h.symbols
  obtain ⟨halike, hfsm, hphase⟩ := h
  refine ⟨{ halike with header := fun _ => ⟨(halike.header hfsm).1, ?_⟩ }, hfsm, hphase⟩
  rw [hphase]
  refine ⟨hlit, hdist, htable, congrArg (· + n) hidx, fun k hk => ?_⟩
  dsimp only at hk ⊢
  by_cases hk320 : k < 320
  · rw [State.getD_fillLens _ _ _ _ hk320, State.getD_fillLens _ _ _ _ hk320, hidx]
    split
    · rfl
    · exact hlens k (by omega)
  · simp [Vector.getD, hk320]

theorem repeatLength_alike {s s' : State} (h : State.AlikeInHeader .symbols s s') (v : BitVec 4) (r : Nat) :
    (repeatLength v r s).Alike (fun _ => State.Alike) (repeatLength v r s') := by
  obtain ⟨hlit, hdist, -, hidx, -⟩ := h.symbols
  rcases Nat.lt_or_ge (s.hlit + s.hdist) (s.lidx + r) with hover | hfits
  · rw [repeatLength_overflows v hover, repeatLength_overflows v (by omega)]
    exact .raised _ _ _
  · rw [repeatLength_fits v hfits, repeatLength_fits v (by omega)]
    exact afterLengths_alike (h.fill v r r r)

theorem codeLength_runsAlike {s s' : State} {sym x : Nat} {i : Instr} (h : State.AlikeInHeader .symbols s s')
    (hi : clInstr sym x = some i) : RunsAlike i s s' := by
  obtain ⟨-, -, -, hidx, hlens⟩ := h.symbols
  rcases clInstr_cases hi with ⟨-, rfl⟩ | ⟨-, rfl⟩ | ⟨-, rfl⟩ | ⟨-, rfl⟩
  · exact (afterLengths_alike (h.fill (BitVec.ofNat 4 sym) 1 s.rep s'.rep)).finish_running
  · simp only [RunsAlike, exec, execClRep, hidx]
    split
    · exact .raise _ _ _
    · next hpos =>
      have hprev : s'.prevLen = s.prevLen := by
        rw [State.prevLen, State.prevLen, hidx]
        exact hlens _ (by omega)
      rw [hprev]
      exact (repeatLength_alike h _ _).finish_running
  · exact (repeatLength_alike h 0 _).finish_running
  · exact (repeatLength_alike h 0 _).finish_running

theorem fetchDynhdr_alike {s s' : State} (h : s.Alike s') : (fetchDynhdr s).Alike RunsAlike (fetchDynhdr s') :=
  (take_alike .alike h 5).bind fun _ _ _ ht => (take_alike .alike ht 5).bind fun _ _ _ hu =>
    (take_alike .alike hu 4).bind fun _ _ _ hw => .ok (dynhdr_runsAlike hw _ _ _)

theorem fetchCllen3_alike {s s' : State} (h : State.AlikeInHeader .cllens s s') :
    (fetchCllen3 s).Alike RunsAlike (fetchCllen3 s') :=
  (take_alike (.alikeInHeader _) h 3).bind fun _ _ _ hu => .ok (cllen3_runsAlike hu _)

theorem orSymbolDomain_alike {R : Instr → State → State → Prop} {o : Option Instr} {s s' : State}
    (h : ∀ i, o = some i → R i s s') : (orSymbolDomain o s).Alike R (orSymbolDomain o s') :=
  match o, h with
  | some i, h => .ok (h i rfl)
  | none, _ => .refused _

theorem fetchCl_alike {s s' : State} (h : State.AlikeInHeader .symbols s s') :
    (fetchCl s).Alike RunsAlike (fetchCl s') := by
  obtain ⟨-, -, htable, -, -⟩ := h.symbols
  rw [fetchCl, fetchCl, htable]
  refine (decodeSym_alike (.alikeInHeader _) h _).bind fun sym u u' hu => ?_
  obtain ⟨-, -, -, hidx, -⟩ := hu.symbols
  have hsym : State.AlikeInHeader .symbols { u with sym := sym } { u' with sym := sym } := ⟨{ hu.1 with }, hu.2⟩
  dsimp only
  by_cases hnone : sym = 16 ∧ u.lidx = 0
  · rw [if_pos hnone, if_pos (by rwa [hidx])]
    exact .raised _ _ _
  · rw [if_neg hnone, if_neg (by rwa [hidx])]
    exact (take_alike (.alikeInHeader _) hsym _).bind fun _ _ _ hw =>
      orSymbolDomain_alike fun _ hi => codeLength_runsAlike hw hi

/-! ### The symbol loop -/

/-- Two runs stand alike inside a match, whose length both have decoded (R267). -/
def State.AlikeInMatch (s s' : State) : Prop := s.Alike s' ∧ s'.mlen = s.mlen

theorem Steady.alikeInMatch : Steady State.AlikeInMatch := Steady.alike.and fun _ _ _ _ _ h => h

theorem matchAt_alike {s s' : State} {dist : Nat} (h : s.AlikeInMatch s') (h1 : 1 ≤ dist) :
    AnswersAlike (matchAt dist s) (matchAt dist s') := by
  obtain ⟨halike, hlen⟩ := h
  have hdist : State.Alike { s with mdist := dist } { s' with mdist := dist } := { halike with }
  have hcopy : matchAt dist s' = (copy s.mlen dist { s' with mdist := dist }).finish := by rw [← hlen]; rfl
  rw [hcopy]
  exact (copy_alike hdist h1 _).finish_running

/-- The second half of a pair, executed in both runs, does as much in the one as in the other. -/
def DistancesAlike (j : Instr) (s s' : State) : Prop := AnswersAlike (execDistance j s) (execDistance j s')

theorem distancesAlike {s s' : State} {d x : Nat} {j : Instr} (h : s.AlikeInMatch s') (hj : dInstr d x = some j) :
    DistancesAlike j s s' := by
  unfold DistancesAlike
  rcases dInstr_cases hj with ⟨-, dist, hrow, -, -⟩ | ⟨-, rfl⟩ | ⟨-, rfl⟩
  · obtain ⟨-, hexec, hpos⟩ := exec_distanceRow hrow s
    obtain ⟨-, hexec', -⟩ := exec_distanceRow hrow s'
    rw [hexec, hexec']
    exact matchAt_alike h hpos
  · exact .raise _ s s'
  · exact .raise _ s s'

theorem fetchDist_alike {s s' : State} (h : s.AlikeInMatch s') (hf : s.fsm = .symbolLoop) :
    (fetchDist s).Alike DistancesAlike (fetchDist s') := by
  obtain ⟨-, htable⟩ := h.1.tables hf
  rw [fetchDist, fetchDist, htable]
  refine (decodeSym_alike .alikeInMatch h _).bind fun d u u' hu => ?_
  have hsym : State.AlikeInMatch { u with dsym := d } { u' with dsym := d } := ⟨{ hu.1 with }, hu.2⟩
  exact (take_alike .alikeInMatch hsym _).bind fun _ _ _ hw => orSymbolDomain_alike fun _ hj => distancesAlike hw hj

theorem matchOf_alike {s s' : State} (h : s.Alike s') (hf : s.fsm = .symbolLoop) (len : Nat) :
    AnswersAlike (matchOf len s) (matchOf len s') := by
  have hmlen : State.AlikeInMatch { s with mlen := len } { s' with mlen := len } := ⟨{ h with }, rfl⟩
  have hfetch := fetchDist_alike hmlen hf
  unfold matchOf
  generalize fetchDist { s with mlen := len } = r at hfetch ⊢
  generalize fetchDist { s' with mlen := len } = r' at hfetch ⊢
  cases hfetch with
  | ok h => exact h
  | raised k u u' => exact .raise k u u'
  | fault r => exact .fault r
  | refused r => exact .refused r

/-- Two runs stand alike in the symbol loop. -/
def State.AlikeInLoop (s s' : State) : Prop := s.Alike s' ∧ s.fsm = .symbolLoop

theorem Steady.alikeInLoop : Steady State.AlikeInLoop := Steady.alike.and fun _ _ _ _ _ h => h

theorem symbol_runsAlike {s s' : State} {sym x : Nat} {i : Instr} (h : s.AlikeInLoop s')
    (hi : llInstr sym x = some i) : RunsAlike i s s' := by
  obtain ⟨halike, hf⟩ := h
  rcases llInstr_cases hi with ⟨-, rfl⟩ | ⟨-, rfl⟩ | ⟨-, -, len, hrow, -, -⟩ | ⟨-, rfl⟩ | ⟨-, rfl⟩
  · exact (emit_alike halike _).finish_running
  · exact (endOfBlock_alike halike).finish
  · rw [RunsAlike, exec_lengthRow hrow, exec_lengthRow hrow]
    exact matchOf_alike halike hf _
  · exact .raise _ s s'
  · exact .raise _ s s'

theorem fetchLl_alike {s s' : State} (h : s.AlikeInLoop s') : (fetchLl s).Alike RunsAlike (fetchLl s') := by
  obtain ⟨htable, -⟩ := h.1.tables h.2
  rw [fetchLl, fetchLl, htable]
  refine (decodeSym_alike .alikeInLoop h _).bind fun sym u u' hu => ?_
  have hsym : State.AlikeInLoop { u with sym := sym } { u' with sym := sym } := ⟨{ hu.1 with }, hu.2⟩
  exact (take_alike .alikeInLoop hsym _).bind fun _ _ _ hw => orSymbolDomain_alike fun _ hi => symbol_runsAlike hw hi

/-! ### The step -/

theorem element_alike_of_fetch {s s' : State} {r r' : Res Instr} (hr : fetch s = some r) (hr' : fetch s' = some r')
    (h : r.Alike RunsAlike r') : AnswersAlike (element s) (element s') := by
  rw [element, element, hr, hr']
  cases h with
  | ok h => exact h
  | raised k u u' => exact .raise k u u'
  | fault r => exact .fault r
  | refused r => exact .refused r

/-- An element of a run that stands alike with another's. -/
theorem State.Alike.element {s s' : State} (h : s.Alike s') (hb : s.busy = true) :
    AnswersAlike (element s) (element s') := by
  have hfsm := h.fsm
  unfold State.busy at hb
  cases hf : s.fsm <;> simp only [hf, reduceCtorEq] at hb
  case zlibHeader =>
    exact element_alike_of_fetch (by rw [fetch, hf]) (by rw [fetch, hfsm, hf]) (fetchZhdr_alike h)
  case awaitingBlockHeader =>
    exact element_alike_of_fetch (by rw [fetch, hf]) (by rw [fetch, hfsm, hf]) (fetchBhdr_alike h)
  case storedBlock =>
    exact element_alike_of_fetch (by rw [fetch, hf]) (by rw [fetch, hfsm, hf]) (fetchStored_alike h)
  case staticBlock =>
    rw [element_staticBlock hf, element_staticBlock (hfsm.trans hf)]
    exact (selectFixed_alike h).finish_running
  case dynamicBlockHeader =>
    have hphase := (h.header hf).1
    cases hp : s.dynPhase with
    | counts =>
      exact element_alike_of_fetch (by rw [fetch, hf, hp]) (by rw [fetch, hfsm, hf, hphase, hp]) (fetchDynhdr_alike h)
    | cllens =>
      exact element_alike_of_fetch (by rw [fetch, hf, hp]) (by rw [fetch, hfsm, hf, hphase, hp])
        (fetchCllen3_alike ⟨h, hf, hp⟩)
    | symbols =>
      exact element_alike_of_fetch (by rw [fetch, hf, hp]) (by rw [fetch, hfsm, hf, hphase, hp])
        (fetchCl_alike ⟨h, hf, hp⟩)
  case symbolLoop =>
    exact element_alike_of_fetch (by rw [fetch, hf]) (by rw [fetch, hfsm, hf]) (fetchLl_alike ⟨h, hf⟩)

/-- One element keeps what two runs have in common, whether they go on or have ended (R382, R390). -/
theorem State.SameRun.element {s s' : State} (h : s.SameRun s') : AnswersAlike (element s) (element s') := by
  cases hb : s.busy with
  | true => exact (h.running hb).element hb
  | false =>
    have hb' : s'.busy = false := by rw [State.busy, h.fsm]; exact hb
    rw [element_of_not_busy hb, element_of_not_busy hb']
    exact .next h

/-- No step drives the input signals. -/
theorem State.Quiet.step {s t : State} (hq : s.Quiet) (h : step s = .next t) : t.Quiet := by
  obtain ⟨-, -, -, hpins⟩ := launchArgumentsAreConstant s t hq.1 (.inl hq.2) h
  rw [State.Quiet, hpins]
  exact hq

theorem State.SameRun.steps {k : Nat} {s s' u u' : State} (h : s.SameRun s') (hq : s.Quiet) (hq' : s'.Quiet)
    (hsteps : Steps k s u) (hsteps' : Steps k s' u') : u.SameRun u' := by
  induction hsteps generalizing s' with
  | zero s => cases hsteps'; exact h
  | succ hstep _ ih =>
    cases hsteps' with
    | succ hstep' hrest =>
      have hanswers := h.element
      rw [← step_eq_element hq.1 (.inl hq.2), ← step_eq_element hq'.1 (.inl hq'.2), hstep, hstep'] at hanswers
      cases hanswers with
      | next h => exact ih h (hq.step hstep) (hq'.step hstep') hrest

/-- Two launches alike begin runs that stand alike, `start` low again: launch leaves nothing else of the block's past
that a run reads (R43, R412). -/
theorem State.Alike.launched {s s' : State} (hpins : s'.pins = s.pins) (hinp : s'.inp = s.inp) (hw : s.out.wf = true)
    (hw' : s'.out.wf = true) (p p' : Pins) :
    State.Alike { s.launched with pins := p } { s'.launched with pins := p' } where
  acc := rfl
  bitcnt := rfl
  inOff := rfl
  inLen := congrArg Pins.inLen hpins
  inp := hinp
  outPos := rfl
  bytesWritten := rfl
  wf := hw
  wf' := hw'
  read := nofun
  fsm := by rw [State.launched_fsm, State.launched_fsm, hpins]
  bfinal := rfl
  outCap := congrArg Pins.outCap hpins
  errCode := rfl
  staticValid := rfl
  fixed := nofun
  header := fun h => by rcases s.launched_fsm_cases with hf | hf <;> cases hf.symm.trans h
  tables := fun h => by rcases s.launched_fsm_cases with hf | hf <;> cases hf.symm.trans h

/-- Settles O52, by induction on the elements of two runs that a launch has made stand alike. -/
theorem runsDependOnTheLaunchAlone : Obligations.RunsDependOnTheLaunchAlone := by
  intro s s' t t' u u' k hrst hstart hbusy hbusy' hpins hinp hw hw' hstep hstep' hsteps hsteps'
  rw [step_eq_launch hrst hstart hbusy] at hstep
  rw [step_eq_launch (by rw [hpins]; exact hrst) (by rw [hpins]; exact hstart) hbusy'] at hstep'
  obtain ⟨-, rfl⟩ := State.launch_eq_next hstep
  obtain ⟨-, rfl⟩ := State.launch_eq_next hstep'
  have hbegin := State.Alike.launched hpins hinp hw hw' { s.launched.pins with start := false }
    { s'.launched.pins with start := false }
  have hend := hbegin.sameRun.steps ⟨hrst, rfl⟩ ⟨(congrArg Pins.rst hpins).trans hrst, rfl⟩ hsteps hsteps'
  refine ⟨hend.fsm.symm, hend.errCode.symm, fun hf => ?_⟩
  obtain ⟨hacc, hbitcnt, hinOff, -, -⟩ := hend.cursor hf
  obtain ⟨houtPos, hbytes, -, -, hread⟩ := hend.output hf
  exact ⟨hacc.symm, hbitcnt.symm, hinOff.symm, houtPos.symm, hbytes.symm, fun x hx => (hread x hx).symm⟩

end Sys2Proof.Machine
end

section
/-! Fault entry, the terminal states, and the end of every run (R371, R373, R375, R376, R390, R391). -/

namespace Sys2Proof

/-- Overwriting below `cap` leaves of a canonical memory only its bytes at and above `cap`. -/
theorem Memory.overwriteBelow_congr {m m' : Memory} (h : m.wf = true) (h' : m'.wf = true) {cap : Nat}
    (hr : ∀ x, cap ≤ x → m'.read x = m.read x) (f : Nat → Byte) :
    Memory.overwriteBelow cap f m' = Memory.overwriteBelow cap f m := by
  refine Memory.ext (Memory.wf_overwriteBelow h' _ _) (Memory.wf_overwriteBelow h _ _) fun x => ?_
  rw [Memory.read_overwriteBelow h', Memory.read_overwriteBelow h]
  split
  · rfl
  · exact hr x (by omega)

namespace Machine

/-! ### Terminal states -/

/-- The block is at rest exactly in `Idle`, `Done` and `Failed` (R29). -/
theorem State.busy_eq_false_iff {s : State} :
    s.busy = false ↔ s.fsm = .idle ∨ s.fsm = .done ∨ s.fsm = .failed := by
  unfold State.busy
  cases s.fsm <;> simp

/-- A quiet step runs an element (R104, R190). -/
theorem step_of_quiet {s : State} (hq : s.Quiet) : step s = element s := step_eq_element hq.1 (.inl hq.2)

/-- Settles O35: a quiet step runs an element, and a block at rest has none. -/
theorem terminalStatesPersist : Obligations.TerminalStatesPersist := by
  intro s hq hrest
  have hb : s.busy = false := State.busy_eq_false_iff.mpr hrest
  refine ⟨?_, hb, ?_, ?_⟩
  · rw [step_of_quiet hq, element_of_not_busy hb]
  · exact beq_eq_decide _ _
  · exact beq_eq_decide _ _

/-! ### Fault entry -/

/-- Settles O40: `ERR_CODE` is the kind's code, and `OUT` is overwritten below `OUT_CAP` only. -/
theorem faultEntryDefinesCodeAndStatus : Obligations.FaultEntryDefinesCodeAndStatus := by
  intro k s hw
  refine ⟨s.raise_fsm k, rfl, rfl, rfl, ?_, s.raise_inp k, fun x hx => State.read_raise_of_outCap_le k hw hx⟩
  rw [State.raise_errCode]
  cases k <;> rfl

/-- Settles O41: every register `raise` does not keep is drawn anew, and so is `OUT` below `OUT_CAP`. -/
theorem faultsRecordOnlyTheirCode : Obligations.FaultsRecordOnlyTheirCode := by
  intro k k' s s' hw hw' hlen hcap hzlib hinp hpins hdraw hout
  have hmem := Memory.overwriteBelow_congr hw hw' hout (Config.freeByte s.draw)
  have hshared : s' = { s' with
      inLen := s.inLen, outCap := s.outCap, zlib := s.zlib, inp := s.inp, pins := s.pins, draw := s.draw } := by
    rw [← hlen, ← hcap, ← hzlib, ← hinp, ← hpins, ← hdraw]
  calc s'.raise k'
    _ = { s.raise k with
          errCode := k'.code, out := Memory.overwriteBelow s.outCap (Config.freeByte s.draw) s'.out } := by
      rw [hshared]; rfl
    _ = { s.raise k with errCode := k'.code } := by rw [hmem]; rfl

/-! ### The end of every run -/

theorem Fsm.ne_staticBlock_of_mem_successors {q q' : Fsm} (h : q' ∈ q.successors) : q' ≠ .staticBlock := by
  rintro rfl
  cases q <;> exact absurd h (by decide)

theorem Fsm.eq_idle_of_idle_mem_successors {q : Fsm} (h : .idle ∈ q.successors) : q = .idle := by
  cases q
  case idle => rfl
  all_goals exact absurd h (by decide)

/-- An element that leaves a block at rest has ended its run. -/
theorem State.ended_of_mem_successors {s t : State} (hs : s.busy = true) (h : t.fsm ∈ s.fsm.successors)
    (ht : t.busy = false) : t.fsm = .done ∨ t.fsm = .failed := by
  rcases State.busy_eq_false_iff.mp ht with hidle | hended
  · have : s.busy = false := State.busy_eq_false_iff.mpr (.inl (Fsm.eq_idle_of_idle_mem_successors (hidle ▸ h)))
    rw [this] at hs
    cases hs
  · exact hended

/-- A good state has a quiet step, to a good quiet state that its dispatcher state leads to (R69, R191). -/
theorem State.Inv.quiet_step {s : State} (hs : s.Inv) (hq : s.Quiet) :
    ∃ t, step s = .next t ∧ t.Inv ∧ t.Quiet ∧ t.fsm ∈ s.fsm.successors := by
  obtain ⟨t, helement⟩ := element_answers hs
  have hstep : step s = .next t := (step_of_quiet hq).trans helement
  exact ⟨t, hstep, stepKeepsTheInvariant s t hs hstep, hq.step hstep, (element_leads helement).1⟩

/-- Unless it faults, a quiet step gives no bit back (R27). -/
theorem State.bitsLeft_le {s t : State} (hq : s.Quiet) (hstep : step s = .next t) (hf : t.fsm ≠ .failed) :
    t.bitsLeft ≤ s.bitsLeft := by
  have hadv := element_advances s
  rw [← step_of_quiet hq, hstep] at hadv
  have hpos := (hadv.ahead hf).pos
  unfold State.bitsLeft
  rw [State.inLen_of_inputs hadv.inputs]
  omega

/-- Unless it faults, an element consumes bits of those that are left (R391). -/
theorem State.Inv.bitsLeft_lt {s t : State} (hs : s.Inv) (hq : s.Quiet) (hb : s.busy = true)
    (hstatic : s.fsm ≠ .staticBlock) (hstep : step s = .next t) (hf : t.fsm ≠ .failed) : t.bitsLeft < s.bitsLeft := by
  obtain ⟨hpos, hwithin⟩ := positionMovesOn s t hs hq.1 hb hstatic hstep hf
  obtain ⟨hlen, -⟩ := launchArgumentsAreConstant s t hq.1 (.inl hq.2) hstep
  unfold State.bitsLeft
  rw [hlen] at hwithin ⊢
  omega

/-- The steps from `s` end the run, and there are at most `n` of them. -/
def State.EndsWithin (s : State) (n : Nat) : Prop :=
  ∃ k t, k ≤ n ∧ Steps k s t ∧ (t.fsm = .done ∨ t.fsm = .failed)

theorem State.EndsWithin.of_step {s t : State} {n : Nat} (hstep : step s = .next t) (ht : t.EndsWithin n) :
    s.EndsWithin (n + 1) := by
  obtain ⟨k, u, hk, hsteps, hended⟩ := ht
  exact ⟨k + 1, u, by omega, .succ hstep hsteps, hended⟩

theorem State.EndsWithin.of_ended {s : State} (h : s.fsm = .done ∨ s.fsm = .failed) (n : Nat) : s.EndsWithin n :=
  ⟨0, s, n.zero_le, .zero s, h⟩

/-- Outside `StaticBlock` every element but the last consumes a bit, by induction on the bits left. -/
theorem State.Inv.endsWithin {s : State} (hs : s.Inv) (hq : s.Quiet) (hb : s.busy = true)
    (hstatic : s.fsm ≠ .staticBlock) : s.EndsWithin (s.bitsLeft + 1) := by
  suffices ∀ n, s.bitsLeft ≤ n → s.EndsWithin (n + 1) from this _ (Nat.le_refl _)
  intro n
  induction n generalizing s with
  | zero =>
    intro hn
    obtain ⟨t, hstep, -, -, -⟩ := hs.quiet_step hq
    refine .of_step hstep (.of_ended (.inr ?_) 0)
    by_contra hf
    have := hs.bitsLeft_lt hq hb hstatic hstep hf
    omega
  | succ n ih =>
    intro hn
    obtain ⟨t, hstep, ht, htq, hmem⟩ := hs.quiet_step hq
    refine .of_step hstep ?_
    cases htb : t.busy with
    | false => exact .of_ended (State.ended_of_mem_successors hb hmem htb) _
    | true =>
      have := hs.bitsLeft_lt hq hb hstatic hstep (State.ne_failed_of_busy htb)
      exact ih ht htq htb (Fsm.ne_staticBlock_of_mem_successors hmem) (by omega)

/-- `StaticBlock` selects its tables without consuming a bit (R191, R205). -/
theorem State.Inv.staticBlock_endsWithin {s : State} (hs : s.Inv) (hq : s.Quiet) (hstatic : s.fsm = .staticBlock) :
    s.EndsWithin (s.bitsLeft + 2) := by
  obtain ⟨t, hstep, ht, htq, hmem⟩ := hs.quiet_step hq
  have hloop : t.fsm = .symbolLoop := by rwa [hstatic, Fsm.successors, List.mem_singleton] at hmem
  have hnot : t.fsm ≠ .staticBlock := Fsm.ne_staticBlock_of_mem_successors hmem
  obtain ⟨k, u, hk, hrun⟩ := ht.endsWithin htq (State.busy_of_symbolLoop hloop) hnot
  have hle := State.bitsLeft_le hq hstep (by rw [hloop]; nofun)
  exact .of_step hstep ⟨k, u, by omega, hrun⟩

/-- Settles O53: at most one step selects the fixed tables, and every other element but the last consumes a bit. -/
theorem everyRunEnds : Obligations.EveryRunEnds := by
  intro s hs hq hb
  by_cases hstatic : s.fsm = .staticBlock
  · exact hs.staticBlock_endsWithin hq hstatic
  · obtain ⟨k, t, hk, hrun⟩ := hs.endsWithin hq hb hstatic
    exact ⟨k, t, by omega, hrun⟩

end Machine
end Sys2Proof
end

section
/-! Launch into a fresh run, and the one frame that reset, launch and elements share: `IN` (R43, R412, R421). -/

namespace Sys2Proof.Machine

/-! ### Launch -/

/-- Launch arguments that keep the premise are taken (R9, R412, R413). -/
theorem State.launch_of_launchPremise {s : State} (h : s.LaunchPremise) : s.launch = .next s.launched := if_pos h

/-- A launched block is in a run (R29, R412). -/
@[simp] theorem State.launched_busy (s : State) : s.launched.busy = true := by
  rcases s.launched_fsm_cases with hf | hf <;> rw [State.busy, hf]

/-- A run begins at bit 0 of `IN` (R27, R412). -/
@[simp] theorem State.launched_pos (s : State) : s.launched.pos = 0 := rfl

/-- Settles O36: a busy block's step runs an element, and any other's is the launch, whose premise holds. -/
theorem launchStartsAFreshRun : Obligations.LaunchStartsAFreshRun := by
  intro s hrst hstart
  refine ⟨fun hbusy => step_eq_element hrst (.inr hbusy), fun hbusy hlen hcap => ?_⟩
  have hstep : step s = .next s.launched := by
    rw [step_eq_launch hrst hstart hbusy, State.launch_of_launchPremise ⟨hlen, hcap⟩]
  refine ⟨s.launched, hstep, s.launched_fsm, ?_⟩
  simp

/-! ### The input -/

/-- Settles O46: reset and launch keep `IN`, and so do the elements and their faults. -/
theorem inputIsNeverWritten : Obligations.InputIsNeverWritten := by
  intro s t hstep
  rcases step_cases s with he | he | he <;> rw [he] at hstep
  · cases hstep
    exact s.rst_inp
  · obtain ⟨-, rfl⟩ := State.launch_eq_next hstep
    exact s.launched_inp
  · have hadv := element_advances s
    rw [hstep] at hadv
    exact State.inp_of_inputs hadv.inputs

end Sys2Proof.Machine
end
